-- ==== Sys2Proof/Word.lean ====
section
/-! DEFINITION. The words of the block: a 32-bit register or command word, a byte of the artifact buffer,
an 8-bit symbol (`00_scope.md` R8, R9; `20_memory.md` R60). -/

namespace Sys2Proof

/-- A host register, a command word, a count or a weight: 32 bits (`00_scope.md` R9, `30_encoding.md` R90). -/
abbrev Word := BitVec 32

/-- A byte of the artifact buffer (`20_memory.md` R60). -/
abbrev Byte := BitVec 8

/-- A symbol of the byte alphabet 0x00 to 0xFF (`00_scope.md` R8). -/
abbrev Symbol := BitVec 8

/-- A node index, 0 to 510 (`00_scope.md` R10: MAX_NODES = 511). -/
abbrev NodeIdx := Fin 511

end Sys2Proof
end

