-- ==== Sys2Proof/Syntax.lean ====
section
/-! DEFINITION. The commands (`30_encoding.md` R96, one constructor per row of the opcode table), their
formats, and the assembler's source lines (`30_encoding.md` R102, R103). -/

namespace Sys2Proof

/-- The fifteen commands with the operands their words carry (`30_encoding.md` R95, R96).
COUNT and LENGTH come from ARG_LAT, not from the word (`30_encoding.md` R101). -/
inductive Instr where
  | nop
  | clear
  | errAck
  | freqAdd (sym : Symbol)
  | rdFreq (sym : Symbol)
  | build
  | rdNode (idx : BitVec 9)
  | genCodes
  | rdCode (sym : Symbol) (w : BitVec 3)
  | encSym (sym : Symbol)
  | strmRst
  | decSym
  | rewind
  | wrHeader
  | rdHeader
deriving DecidableEq, Repr

/-- The defined opcodes by name (`30_encoding.md` R96). -/
inductive Opcode where
  | nop | clear | errAck | freqAdd | rdFreq | build | rdNode | genCodes | rdCode
  | encSym | strmRst | decSym | rewind | wrHeader | rdHeader
deriving DecidableEq, Repr

/-- The four command formats (`30_encoding.md` R91 to R94). -/
inductive Format where
  | n | s | sw | i
deriving DecidableEq, Repr

/-- The 19 named registers of the host register map (`10_state.md` R20). -/
inductive Reg where
  | id | ctrl | status | errInfo | arg | cmd | result0 | result1 | nsym | total | nnodes | root
  | bitLen | bitPos | pbase | alen | abufPtr | abufData | abufSize
deriving DecidableEq, Repr

/-- A source line of the assembler (`30_encoding.md` R102). Operands are numbers as written, so a line can
be out of range; `AsmLine.wellFormed` is the assembler's check. -/
inductive AsmLine where
  | nop
  | clear
  | errAck
  | freqAdd (sym count : Nat)
  | rdFreq (sym : Nat)
  | build
  | rdNode (idx : Nat)
  | genCodes
  | rdCode (sym w : Nat)
  | encSym (sym : Nat)
  | strmRst
  | decSym
  | rewind
  | wrHeader
  | rdHeader (length : Nat)
deriving DecidableEq, Repr

/-- What a host program is made of: a command line, WAIT, single register accesses, and the loop of DECOMPRESS,
"`DEC_SYM` repeated until RESULT0[8] = 1" (`30_encoding.md` R102, R103). -/
inductive HostOp where
  | cmd (l : AsmLine)
  | wait
  | wr (r : Reg) (v : Nat)
  | rd (r : Reg)
  | decSymUntilEnd
deriving DecidableEq, Repr

/-- A line of a host program, pseudo-commands included (`30_encoding.md` R103). A text is the list of its
characters' codes (DESIGN CHOICE: assumption log 17). -/
inductive ProgLine where
  | op (o : HostOp)
  | count (sym : Nat)
  | countStr (text : List Nat)
  | encStr (text : List Nat)
  | abufWrite (a : Nat) (bytes : List Nat)
  | abufRead (a n : Nat)
  | compress (text : List Nat)
  | decompress (len : Nat)
deriving DecidableEq, Repr

/-- What an assembled host program is made of: each action makes one register access, and what the host does
next can depend on the word it read (`30_encoding.md` R102, R103).
`waitIdle` is the polling of WAIT.
`decSym` and `endTest` are the loop of DECOMPRESS: issuing DEC_SYM, and reading RESULT0 for its bit 8
(`95_test_vectors.md`, P2). -/
inductive HostAct where
  | write (r : Reg) (v : Word)
  | read (r : Reg)
  | waitIdle
  | decSym
  | endTest
deriving DecidableEq, Repr

end Sys2Proof
end

