-- ==== Sys2Proof/Decode.lean ====
section
/-! DEFINITION. The decoder and the encoder of command words (`30_encoding.md` R90 to R101). -/

namespace Sys2Proof

/-- The opcode values (`30_encoding.md` R96). -/
def Opcode.code : Opcode → BitVec 8
  | .nop => 0x00
  | .clear => 0x01
  | .errAck => 0x02
  | .freqAdd => 0x10
  | .rdFreq => 0x11
  | .build => 0x20
  | .rdNode => 0x21
  | .genCodes => 0x30
  | .rdCode => 0x31
  | .encSym => 0x40
  | .strmRst => 0x41
  | .decSym => 0x50
  | .rewind => 0x51
  | .wrHeader => 0x60
  | .rdHeader => 0x61

/-- The format of each opcode (`30_encoding.md` R96). -/
def Opcode.format : Opcode → Format
  | .nop => .n
  | .clear => .n
  | .errAck => .n
  | .freqAdd => .s
  | .rdFreq => .s
  | .build => .n
  | .rdNode => .i
  | .genCodes => .n
  | .rdCode => .sw
  | .encSym => .s
  | .strmRst => .n
  | .decSym => .n
  | .rewind => .n
  | .wrHeader => .n
  | .rdHeader => .n

/-- Every defined opcode, in the order of `30_encoding.md` R96. -/
def Opcode.all : List Opcode :=
  [.nop, .clear, .errAck, .freqAdd, .rdFreq, .build, .rdNode, .genCodes, .rdCode, .encSym, .strmRst,
   .decSym, .rewind, .wrHeader, .rdHeader]

/-- The defined opcode with a given value, or none for a reserved value (`30_encoding.md` R97, R98). -/
def Opcode.ofCode (c : BitVec 8) : Option Opcode := Opcode.all.find? fun op => op.code == c

/-- OPC = w[31:24] (`30_encoding.md` R90). -/
def opcField (w : Word) : BitVec 8 := w.extractLsb' 24 8

/-- SYM = w[7:0] (`30_encoding.md` R95). -/
def symField (w : Word) : Symbol := w.extractLsb' 0 8

/-- W = w[10:8] (`30_encoding.md` R95). -/
def wField (w : Word) : BitVec 3 := w.extractLsb' 8 3

/-- IDX = w[8:0] (`30_encoding.md` R95). -/
def idxField (w : Word) : BitVec 9 := w.extractLsb' 0 9

/-- The must-be-zero bits of each format are all zero (`30_encoding.md` R91 to R94, R99). -/
def reservedClear : Format → Word → Bool
  | .n, w => w.extractLsb' 0 24 == 0
  | .s, w => w.extractLsb' 8 16 == 0
  | .sw, w => w.extractLsb' 11 13 == 0
  | .i, w => w.extractLsb' 9 15 == 0

/-- The command of an opcode with the operand fields of a word (`30_encoding.md` R97). -/
def Opcode.toInstr (op : Opcode) (w : Word) : Instr :=
  match op with
  | .nop => .nop
  | .clear => .clear
  | .errAck => .errAck
  | .freqAdd => .freqAdd (symField w)
  | .rdFreq => .rdFreq (symField w)
  | .build => .build
  | .rdNode => .rdNode (idxField w)
  | .genCodes => .genCodes
  | .rdCode => .rdCode (symField w) (wField w)
  | .encSym => .encSym (symField w)
  | .strmRst => .strmRst
  | .decSym => .decSym
  | .rewind => .rewind
  | .wrHeader => .wrHeader
  | .rdHeader => .rdHeader

/-- Why a word is no command: the two ILLEGAL_COMMAND cases of `30_encoding.md` R98, R99. -/
inductive DecodeError where
  | reservedOpcode
  | reservedBits
deriving DecidableEq, Repr

/-- The subcode ILLEGAL_COMMAND reports (`30_encoding.md` R97). -/
def DecodeError.sub : DecodeError → Byte
  | .reservedOpcode => 0x01
  | .reservedBits => 0x02

/-- Decode(w) (`30_encoding.md` R97): total on every word, the opcode test before the reserved-bit test. -/
def decode (w : Word) : Except DecodeError Instr :=
  match Opcode.ofCode (opcField w) with
  | none => .error .reservedOpcode
  | some op => if reservedClear op.format w then .ok (op.toInstr w) else .error .reservedBits

/-- The opcode of a command. -/
def Instr.opcode : Instr → Opcode
  | .nop => .nop
  | .clear => .clear
  | .errAck => .errAck
  | .freqAdd _ => .freqAdd
  | .rdFreq _ => .rdFreq
  | .build => .build
  | .rdNode _ => .rdNode
  | .genCodes => .genCodes
  | .rdCode _ _ => .rdCode
  | .encSym _ => .encSym
  | .strmRst => .strmRst
  | .decSym => .decSym
  | .rewind => .rewind
  | .wrHeader => .wrHeader
  | .rdHeader => .rdHeader

/-- Bits 23:0 of a command's word: its operand fields, reserved bits zero (`30_encoding.md` R91 to R94). -/
def Instr.operandBits : Instr → BitVec 24
  | .freqAdd sym => (0#16 ++ sym : BitVec 24)
  | .rdFreq sym => (0#16 ++ sym : BitVec 24)
  | .rdNode idx => (0#15 ++ idx : BitVec 24)
  | .rdCode sym w => (0#13 ++ w ++ sym : BitVec 24)
  | .encSym sym => (0#16 ++ sym : BitVec 24)
  | .nop => 0
  | .clear => 0
  | .errAck => 0
  | .build => 0
  | .genCodes => 0
  | .strmRst => 0
  | .decSym => 0
  | .rewind => 0
  | .wrHeader => 0
  | .rdHeader => 0

/-- The word of a command, opcode above operand fields (`30_encoding.md` R90 to R94, R102). -/
def encode (i : Instr) : Word := (i.opcode.code ++ i.operandBits : BitVec 32)

/-- The match value of an opcode's row (`30_encoding.md` R96): the opcode in bits 31:24. -/
def Opcode.matchValue (op : Opcode) : Word := (op.code ++ 0#24 : BitVec 32)

/-- The mask of an opcode's row (`30_encoding.md` R96): every bit but the format's operand fields. -/
def Opcode.maskValue (op : Opcode) : Word :=
  match op.format with
  | .n => 0xFFFFFFFF
  | .s => 0xFFFFFF00
  | .sw => 0xFFFFF800
  | .i => 0xFFFFFE00

/-- The instruction read from a table word: a command is one 32-bit word (`30_encoding.md` R90), so bit 0
of the table's number is bit 0 of the word, and bits above `nbits` are zero. -/
def decodeTableWord (nbits w : Nat) : Option Instr :=
  match decode (BitVec.ofNat 32 (w % 2 ^ nbits)) with
  | .ok i => some i
  | .error _ => none

end Sys2Proof
end

