-- ==== Sys2Proof/Config.lean ====
section
/-! DEFINITION. What an instance of the block fixes (`00_scope.md` R11) and the free values the spec leaves
open (`00_scope.md` R12, `70_reset_and_hazards.md` R291, R302). -/

namespace Sys2Proof

/-- The one per-instance parameter (`00_scope.md` R2, R11): ABUF_BYTES is 2 to the power 11 + `awExtra`,
so it is a power of two from 2^11 to 2^24 by its type. -/
structure Config where
  awExtra : Fin 14
deriving DecidableEq, Repr

/-- The spec's default instance, ABUF_BYTES = 2^16 (`00_scope.md` R11). -/
def Config.standard : Config := { awExtra := 5 }

/-- AW = log2(ABUF_BYTES), the width of a buffer address (`00_scope.md` R11). -/
def Config.aw (c : Config) : Nat := 11 + c.awExtra.val

/-- ABUF_BYTES, the size in bytes of the artifact buffer (`00_scope.md` R11). -/
def Config.abufBytes (c : Config) : Nat := 2 ^ c.aw

/-- ABUF_INIT (`70_reset_and_hazards.md` R291): the byte at an address after the n-th reset.
A free value: it has no body, so every claim holds for every initial contents.
(DESIGN CHOICE, safe: assumption log 2.) -/
opaque Config.abufInit : Nat → Nat → Byte

/-- The word that the n-th any-value read returns (`70_reset_and_hazards.md` R302, R296).
A free value: it has no body. (DESIGN CHOICE, safe: assumption log 3.) -/
opaque Config.busyRead : Nat → Word

end Sys2Proof
end

