-- ==== Sys2Proof/Machine/State.lean ====
section
/-! DEFINITION. The state of the block (`10_state.md`, section 1), the events that act on it
(`70_reset_and_hazards.md` R297), the reasons a step can stop, and the state after reset (`10_state.md` R52). -/

namespace Sys2Proof.Machine

/-- PHASE (`10_state.md` R27, `00_scope.md` R16). The value 3 is never held. -/
inductive Phase where
  | load
  | built
  | coded
deriving DecidableEq, Repr

/-- ERRINFO.CODE (`60_exceptions.md` R250). Values 0x09 to 0xFF are never produced. -/
inductive ErrorCode where
  | none
  | emptyInput
  | unknownSymbol
  | corruptStream
  | illegalCommand
  | sequence
  | operand
  | overflow
  | capacity
deriving DecidableEq, Repr

/-- ERRINFO (`10_state.md` R28): the error code, the opcode of the failing command, the subcode. -/
structure ErrInfo where
  code : ErrorCode
  opc : Byte
  sub : Byte
deriving DecidableEq, Repr

/-- ERRINFO = 0: no error recorded. -/
def ErrInfo.zero : ErrInfo := { code := .none, opc := 0, sub := 0 }

/-- A node arena entry, the tagged variant of `10_state.md` R35: a leaf holds SYM and WEIGHT, an internal
node LEFT, RIGHT and WEIGHT. The fields a variant does not hold are the table's zeros (`Node.symField` and
the others, Operands.lean). -/
inductive Node where
  | leaf (sym : Symbol) (weight : Word)
  | internal (left right : NodeIdx) (weight : Word)
deriving DecidableEq, Repr

/-- A code table entry (`10_state.md` R38): LEN, 0 for an absent symbol, and VAL. -/
structure CodeEntry where
  len : BitVec 8
  val : BitVec 255
deriving DecidableEq, Repr

/-- The code entry of an absent symbol (`10_state.md` R38). -/
def CodeEntry.absent : CodeEntry := { len := 0, val := 0 }

/-- The artifact buffer's written bytes, by rising address (`20_memory.md` R60; assumption log 2). -/
abbrev Memory := List Host.Cell

/-- The canonical form: addresses strictly rising. An unlisted address holds no written byte, which is never
a listed value, so there is nothing more to ask of an entry (assumption log 2). -/
abbrev Memory.wf (m : Memory) : Prop := (m.map Prod.fst).Pairwise (· < ·)

/-- An event of `70_reset_and_hazards.md` R297: a host access (R296; `writeRead` is the cycle with both
strobes), the completion of the accepted command, or reset (R290). -/
inductive Event where
  | write (addr : BitVec 12) (data : Word)
  | read (addr : BitVec 12)
  | writeRead (addr : BitVec 12) (data : Word)
  | complete
  | reset
deriving DecidableEq, Repr

/-- The state of the block, every component of `10_state.md` section 1, with the port `rdata` and the
model's own fields (INVENTORY.md, State). -/
structure State where
  /-- ABUF_BYTES, the instance's parameter; no step writes it (`00_scope.md` R11; assumption log 1). -/
  cfg : Config
  /-- CTRL: bit 0 IE_DONE, bit 1 IE_ERR (`10_state.md` R22). -/
  ctrl : BitVec 2
  /-- STATUS.BUSY (`10_state.md` R24). -/
  busy : Bool
  /-- STATUS.DONE (`10_state.md` R25). -/
  doneFlag : Bool
  /-- STATUS.ERR (`10_state.md` R26). -/
  err : Bool
  /-- STATUS.OVR (`10_state.md` R26). -/
  ovr : Bool
  /-- STATUS.PHASE (`10_state.md` R27). -/
  phase : Phase
  /-- ERRINFO (`10_state.md` R28). -/
  errInfo : ErrInfo
  /-- ARG (`10_state.md` R29). -/
  arg : Word
  /-- CMD_LAST (`10_state.md` R30). -/
  cmdLast : Word
  /-- ARG_LAT, hidden (`10_state.md` R50). -/
  argLat : Word
  /-- CMD_LAT, hidden (`10_state.md` R50). -/
  cmdLat : Word
  /-- RESULT0 (`10_state.md` R40). -/
  result0 : Word
  /-- RESULT1 (`10_state.md` R40). -/
  result1 : Word
  /-- FREQ[0..255] (`10_state.md` R33). -/
  freq : Vector Word 256
  /-- NODE[0..510] (`10_state.md` R35). -/
  node : Vector Node 511
  /-- CODE[0..255] (`10_state.md` R38). -/
  code : Vector CodeEntry 256
  /-- BITLEN (`10_state.md` R41). -/
  bitLen : Word
  /-- BITPOS (`10_state.md` R42). -/
  bitPos : Word
  /-- ABUF_PTR: its low AW bits are the register (`10_state.md` R43; assumption log 12). -/
  abufPtr : BitVec 24
  /-- ABUF: the bytes written since reset (`20_memory.md` R60; assumption log 2). -/
  abuf : Memory
  /-- The word the latest host read returned (`70_reset_and_hazards.md` R295, R296; assumption log 5). -/
  rdata : Word
  /-- The model's own: the events the environment still applies, oldest first (assumption log 4). -/
  pending : List Event
  /-- The model's own: how many any-value words have been drawn (assumption log 3, 15). -/
  draws : Nat
  /-- The model's own: how many resets after the first, which selects ABUF_INIT (assumption log 2, 15). -/
  resets : Nat
deriving DecidableEq, Repr

/-- The reasons the machine stops. -/
inductive Fault where
  /-- Raised by DEC_SYM when the payload bit it needs lies in a byte at address `a` ≥ ABUF_BYTES, which does
  not exist (`20_memory.md` R60, R69). No run reaches it: it needs a state that breaks INV5 (`10_state.md`
  R51). Safe: the machine stops where the spec gives no byte (assumption log 11). -/
  | absentByte (a : Nat)
deriving DecidableEq, Repr

/-- The reasons the model has no meaning for an instruction. -/
inductive Refusal where
  /-- Raised by exec for an instruction whose meaning is not written. Safe: the run stops. -/
  | notModelled (mnemonic : String)
deriving DecidableEq, Repr

/-- The outcome of a command or a step. -/
abbrev Out := Host.Outcome State Fault Refusal

/-- The state after reset (`10_state.md` R52, `70_reset_and_hazards.md` R290), for the default ABUF_BYTES and
an arbitrary ABUF_INIT. NODE and CODE entries are unspecified there: the zero entries are the model's choice
(DESIGN CHOICE, unsafe: assumption log 6), as are `rdata` (log 5), `pending` (log 4) and the counters
(log 15). -/
def State.reset : State :=
  { cfg := Config.standard
    ctrl := 0
    busy := false
    doneFlag := false
    err := false
    ovr := false
    phase := .load
    errInfo := ErrInfo.zero
    arg := 0
    cmdLast := 0
    argLat := 0
    cmdLat := 0
    result0 := 0
    result1 := 0
    freq := Vector.replicate 256 0
    node := Vector.replicate 511 (.leaf 0 0)
    code := Vector.replicate 256 CodeEntry.absent
    bitLen := 0
    bitPos := 0
    abufPtr := 0
    abuf := []
    rdata := 0
    pending := []
    draws := 0
    resets := 0 }

end Sys2Proof.Machine
end

