-- ==== Sys2Proof/Machine/Ops.lean ====
section
/-! DEFINITION. The named operations over the tables, the artifact buffer and the registers, and the two
shared completions: raising an error (`60_exceptions.md` R252) and acknowledging it (R257). -/

namespace Sys2Proof.Machine

/-! ### The frequency table and the values derived from it -/

/-- FREQ[sym] of a table (`10_state.md` R33). -/
def freqAt (f : Vector Word 256) (sym : Symbol) : Word := f.toList.getD sym.toNat 0

/-- FREQ[sym] <- v. -/
def setFreq (f : Vector Word 256) (sym : Symbol) (v : Word) : Vector Word 256 := f.setIfInBounds sym.toNat v

/-- A frequency table with every entry 0. -/
def zeroFreq : Vector Word 256 := Vector.replicate 256 0

/-- The present symbols with their counts, in ascending symbol order (`10_state.md` R33: present means
FREQ[s] ≠ 0; `45_tree_serializer.md` R211). -/
def presentEntries (f : Vector Word 256) : List (Symbol × Word) :=
  f.toList.zipIdx.filterMap fun p => if p.1 = 0 then none else some (BitVec.ofNat 8 p.2, p.1)

/-- NSYM (`10_state.md` R34). -/
def nsym (s : State) : Nat := (presentEntries s.freq).length

/-- TOTAL (`10_state.md` R34), on natural numbers (`00_scope.md` R13). -/
def total (s : State) : Nat := (s.freq.toList.map BitVec.toNat).sum

/-- PBASE = 6 + 5 · NSYM (`10_state.md` R31). -/
def pbase (s : State) : Nat := 6 + 5 * nsym s

/-- ceil8(L) = (L + 7) div 8 (`00_scope.md` R13). -/
def ceil8 (l : Nat) : Nat := (l + 7) / 8

/-- ALEN = PBASE + ceil8(BITLEN) (`10_state.md` R32). -/
def alen (s : State) : Nat := pbase s + ceil8 s.bitLen.toNat

/-- NNODES (`10_state.md` R36). -/
def nnodes (s : State) : Nat :=
  match s.phase with
  | .load => 0
  | .built => 2 * nsym s - 1
  | .coded => 2 * nsym s - 1

/-- ROOT (`10_state.md` R36). -/
def root (s : State) : Nat :=
  match s.phase with
  | .load => 0
  | .built => 2 * nsym s - 2
  | .coded => 2 * nsym s - 2

/-! ### The node arena and the code table -/

/-- A number as a node index. The rules give only numbers below 511 (`00_scope.md` R10). -/
def nodeIdx (k : Nat) : NodeIdx := Fin.ofNat 511 k

/-- NODE[i] (`10_state.md` R35). -/
def nodeAt (t : Vector Node 511) (i : NodeIdx) : Node := t.toList.getD i.val (.leaf 0 0)

/-- NODE[0..arena.length-1] <- arena; the other entries keep their contents (`10_state.md` R35). -/
def writeArena (t : Vector Node 511) (arena : List Node) : Vector Node 511 :=
  arena.zipIdx.foldl (fun t p => t.setIfInBounds p.2 p.1) t

/-- CODE[sym] (`10_state.md` R38). -/
def codeAt (t : Vector CodeEntry 256) (sym : Symbol) : CodeEntry := t.toList.getD sym.toNat CodeEntry.absent

/-- CODE[sym] <- e. -/
def setCode (t : Vector CodeEntry 256) (sym : Symbol) (e : CodeEntry) : Vector CodeEntry 256 :=
  t.setIfInBounds sym.toNat e

/-- A code table with every entry absent (`42_code_table.md` R151). -/
def emptyCodes : Vector CodeEntry 256 := Vector.replicate 256 CodeEntry.absent

/-! ### The artifact buffer -/

/-- The byte written at an address since reset, if any. -/
def Memory.lookup : Memory → Nat → Option Byte
  | [], _ => none
  | (k, v) :: m, a => if k = a then some v else if a < k then none else Memory.lookup m a

/-- Write one byte, keeping addresses strictly rising. -/
def Memory.write : Memory → Nat → Byte → Memory
  | [], a, v => [(a, v)]
  | (k, w) :: m, a, v =>
    if k = a then (a, v) :: m else if a < k then (a, v) :: (k, w) :: m else (k, w) :: Memory.write m a v

/-- Write bytes at consecutive rising addresses. -/
def Memory.writeBytes : Memory → Nat → List Byte → Memory
  | m, _, [] => m
  | m, a, v :: vs => Memory.writeBytes (Memory.write m a v) (a + 1) vs

/-- ABUF[a] (`20_memory.md` R60): the byte written there since reset, or ABUF_INIT's byte
(`70_reset_and_hazards.md` R291; assumption log 2). -/
def abufByte (s : State) (a : Nat) : Byte := (Memory.lookup s.abuf a).getD (Config.abufInit s.resets a)

/-- The big-endian number of a list of bytes (`20_memory.md` R62). -/
def bigEndian (bytes : List Byte) : Nat := bytes.foldl (fun acc b => acc * 256 + b.toNat) 0

/-- The n big-endian bytes of a number (`20_memory.md` R63). -/
def bytesOf (n v : Nat) : List Byte := (List.range n).map fun i => BitVec.ofNat 8 (v >>> (8 * (n - 1 - i)))

/-- MemRead(a, n) (`20_memory.md` R62). -/
def memRead (s : State) (a n : Nat) : Nat := bigEndian ((List.range n).map fun i => abufByte s (a + i))

/-- MemWrite(a, n, v) (`20_memory.md` R63). -/
def memWrite (m : Memory) (a n v : Nat) : Memory := Memory.writeBytes m a (bytesOf n v)

/-- Bit 7 − (p mod 8) of a byte, the place of payload bit p in it (`20_memory.md` R64). -/
def bitOfByte (b : Byte) (p : Nat) : Bool := b.getLsbD (7 - p % 8)

/-- Bit(p) (`00_scope.md` R15, `20_memory.md` R64). -/
def payloadBit (s : State) (p : Nat) : Bool := bitOfByte (abufByte s (pbase s + p / 8)) p

/-! ### The artifact-buffer pointer -/

/-- The value of ABUF_PTR: its AW low bits (`10_state.md` R43; assumption log 12). -/
def ptrValue (s : State) : Nat := s.abufPtr.toNat % s.cfg.abufBytes

/-- ABUF_PTR <- v mod ABUF_BYTES (`10_state.md` R43). -/
def setPtr (s : State) (v : Nat) : State := { s with abufPtr := BitVec.ofNat 24 (v % s.cfg.abufBytes) }

/-- ABUF_PTR <- (ABUF_PTR + 1) mod ABUF_BYTES (`10_state.md` R44). -/
def advancePtr (s : State) : State := setPtr s (ptrValue s + 1)

/-! ### Named register updates -/

/-- RESULT0 <- r0, RESULT1 <- r1 (`10_state.md` R40). -/
def setResults (r0 r1 : Word) (s : State) : State := { s with result0 := r0, result1 := r1 }

/-- BITLEN <- 0, BITPOS <- 0 (`43_bit_packer.md` R174). -/
def emptyStream (s : State) : State := { s with bitLen := 0, bitPos := 0 }

/-- BUSY <- 0, DONE <- 1: the completion of a command (`10_state.md` R24, R25; `70_reset_and_hazards.md`
R300). -/
def complete (s : State) : State := { s with busy := false, doneFlag := true }

/-- `raise E(sub)` in a command with opcode opc (`60_exceptions.md` R252): taking an error. It is the
command's completion; nothing else changes. -/
def raise (opc : Byte) (e : ErrorCode) (sub : Byte) (s : State) : State :=
  complete { s with err := true, errInfo := { code := e, opc := opc, sub := sub } }

/-- ERR <- 0, OVR <- 0, ERRINFO <- 0: the return from an error (`60_exceptions.md` R257), shared by ERR_ACK
and CLEAR (`46_control.md` R231, R232). -/
def acknowledge (s : State) : State := { s with err := false, ovr := false, errInfo := ErrInfo.zero }

/-- The effects of accepting the word w while idle (`70_reset_and_hazards.md` R300). -/
def accept (w : Word) (s : State) : State :=
  { s with cmdLat := w, argLat := s.arg, cmdLast := w, busy := true, doneFlag := false }

/-- OVR <- 1: a host write was dropped (`70_reset_and_hazards.md` R301, R303). -/
def setOverrun (s : State) : State := { s with ovr := true }

end Sys2Proof.Machine
end

