-- ==== Sys2Proof/Machine/Flags.lean ====
section
/-! DEFINITION. The flags and the registers made of them: STATUS, CTRL, ERRINFO, the interrupt line, and the
phases in which a command is legal (`10_state.md` R22 to R28, R49; `60_exceptions.md` R250, R251, R260). -/

namespace Sys2Proof.Machine

/-- The value of PHASE (`10_state.md` R27). -/
def Phase.code : Phase → BitVec 2
  | .load => 0
  | .built => 1
  | .coded => 2

/-- The subcode SEQUENCE reports: the current phase (`60_exceptions.md` R250, R251). -/
def phaseSub (s : State) : Byte := s.phase.code.setWidth 8

/-- The value of ERRINFO.CODE (`60_exceptions.md` R250). -/
def ErrorCode.code : ErrorCode → Byte
  | .none => 0x00
  | .emptyInput => 0x01
  | .unknownSymbol => 0x02
  | .corruptStream => 0x03
  | .illegalCommand => 0x04
  | .sequence => 0x05
  | .operand => 0x06
  | .overflow => 0x07
  | .capacity => 0x08

/-- ERRINFO as read: SUB, OPC and CODE in bits 23:16, 15:8 and 7:0 (`10_state.md` R28). -/
def errInfoWord (e : ErrInfo) : Word := (0#8 ++ e.sub ++ e.opc ++ e.code.code : BitVec 32)

/-- STATUS as read: PHASE, OVR, ERR, DONE, BUSY in bits 5:4, 3, 2, 1, 0 (`10_state.md` R23). -/
def statusWord (s : State) : Word :=
  (0#26 ++ s.phase.code ++ BitVec.ofBool s.ovr ++ BitVec.ofBool s.err ++ BitVec.ofBool s.doneFlag
    ++ BitVec.ofBool s.busy : BitVec 32)

/-- CTRL as read: IE_ERR and IE_DONE in bits 1 and 0 (`10_state.md` R22). -/
def ctrlWord (s : State) : Word := s.ctrl.setWidth 32

/-- CTRL.IE_DONE (`10_state.md` R22). -/
def ieDone (s : State) : Bool := s.ctrl.getLsbD 0

/-- CTRL.IE_ERR (`10_state.md` R22). -/
def ieErr (s : State) : Bool := s.ctrl.getLsbD 1

/-- The interrupt output (`60_exceptions.md` R260). -/
def irq (s : State) : Bool := (ieDone s && s.doneFlag) || (ieErr s && (s.err || s.ovr))

/-- The phases in which a command is legal (`60_exceptions.md` R251). -/
def phaseLegal (op : Opcode) (ph : Phase) : Bool :=
  match op with
  | .nop => true
  | .clear => true
  | .errAck => true
  | .rdFreq => true
  | .strmRst => true
  | .rewind => true
  | .rdHeader => true
  | .freqAdd => ph == .load
  | .build => ph == .load
  | .rdNode => ph != .load
  | .genCodes => ph != .load
  | .decSym => ph != .load
  | .wrHeader => ph != .load
  | .rdCode => ph == .coded
  | .encSym => ph == .coded

/-- The phase check that opens a command (`60_exceptions.md` R251, R255): the body where the command is
legal, SEQUENCE with the current phase as subcode elsewhere. -/
def checkPhase (op : Opcode) (s : State) (body : Out) : Out :=
  if phaseLegal op s.phase then body else .next (raise op.code .sequence (phaseSub s) s)

end Sys2Proof.Machine
end

