-- ==== Sys2Proof/Machine/Bus.lean ====
section
/-! DEFINITION. The host's register bus: the register map, reads and writes with their side effects
(`10_state.md` R20 to R46; `20_memory.md` R66 to R68; `70_reset_and_hazards.md` R296 to R304), and reset
(R290 to R292). -/

namespace Sys2Proof.Machine

/-- The register at a byte address: bits 1:0 are ignored (`20_memory.md` R66); none at a reserved offset
(`10_state.md` R20, R46). -/
def regOfAddr (addr : BitVec 12) : Option Reg :=
  match addr.toNat / 4 with
  | 0 => some .id
  | 1 => some .ctrl
  | 2 => some .status
  | 3 => some .errInfo
  | 4 => some .arg
  | 5 => some .cmd
  | 6 => some .result0
  | 7 => some .result1
  | 8 => some .nsym
  | 9 => some .total
  | 10 => some .nnodes
  | 11 => some .root
  | 12 => some .bitLen
  | 13 => some .bitPos
  | 14 => some .pbase
  | 15 => some .alen
  | 16 => some .abufPtr
  | 17 => some .abufData
  | 18 => some .abufSize
  | _ => none

/-- The offset of a register (`10_state.md` R20). -/
def regOffset : Reg → BitVec 12
  | .id => 0x000
  | .ctrl => 0x004
  | .status => 0x008
  | .errInfo => 0x00C
  | .arg => 0x010
  | .cmd => 0x014
  | .result0 => 0x018
  | .result1 => 0x01C
  | .nsym => 0x020
  | .total => 0x024
  | .nnodes => 0x028
  | .root => 0x02C
  | .bitLen => 0x030
  | .bitPos => 0x034
  | .pbase => 0x038
  | .alen => 0x03C
  | .abufPtr => 0x040
  | .abufData => 0x044
  | .abufSize => 0x048

/-- The value a register shows (`10_state.md` R21 to R45); for ABUF_DATA the byte at ABUF_PTR. -/
def regValue (s : State) : Reg → Word
  | .id => 0x48554601
  | .ctrl => ctrlWord s
  | .status => statusWord s
  | .errInfo => errInfoWord s.errInfo
  | .arg => s.arg
  | .cmd => s.cmdLast
  | .result0 => s.result0
  | .result1 => s.result1
  | .nsym => BitVec.ofNat 32 (nsym s)
  | .total => BitVec.ofNat 32 (total s)
  | .nnodes => BitVec.ofNat 32 (nnodes s)
  | .root => BitVec.ofNat 32 (root s)
  | .bitLen => s.bitLen
  | .bitPos => s.bitPos
  | .pbase => BitVec.ofNat 32 (pbase s)
  | .alen => BitVec.ofNat 32 (alen s)
  | .abufPtr => BitVec.ofNat 32 (ptrValue s)
  | .abufData => (abufByte s (ptrValue s)).setWidth 32
  | .abufSize => BitVec.ofNat 32 s.cfg.abufBytes

/-- The registers whose reads return any value while BUSY = 1 (`70_reset_and_hazards.md` R302). -/
def anyWhileBusy : Reg → Bool
  | .result0 => true
  | .result1 => true
  | .nsym => true
  | .total => true
  | .nnodes => true
  | .root => true
  | .bitLen => true
  | .bitPos => true
  | .pbase => true
  | .alen => true
  | .abufData => true
  | .id => false
  | .ctrl => false
  | .status => false
  | .errInfo => false
  | .arg => false
  | .cmd => false
  | .abufPtr => false
  | .abufSize => false

/-- A read that returns any value: a fresh free value (`70_reset_and_hazards.md` R302; U3). -/
def readAny (s : State) : State := { s with rdata := Config.busyRead s.draws, draws := s.draws + 1 }

/-- The side effect of an idle read: ABUF_DATA advances ABUF_PTR (`10_state.md` R44; `20_memory.md` R68). -/
def afterRead (r : Reg) (s : State) : State := if r = .abufData then advancePtr s else s

/-- A host read (`70_reset_and_hazards.md` R296, R302): rdata is the register value before the edge. -/
def busRead (addr : BitVec 12) (s : State) : State :=
  match regOfAddr addr with
  | none => { s with rdata := 0 }
  | some r =>
    if s.busy && anyWhileBusy r then readAny s
    else afterRead r { s with rdata := regValue s r }

/-- A write that is dropped with OVR <- 1 while BUSY = 1 and takes effect while BUSY = 0
(`70_reset_and_hazards.md` R301, R303). -/
def unlessBusy (s idle : State) : State := if s.busy then setOverrun s else idle

/-- A host write of ABUF_DATA: store a byte, advance ABUF_PTR (`10_state.md` R44). -/
def storeByte (data : Word) (s : State) : State :=
  advancePtr { s with abuf := Memory.write s.abuf (ptrValue s) (data.setWidth 8) }

/-- A write to STATUS clears DONE if its bit 1 is set (`10_state.md` R23, R25). -/
def writeStatus (data : Word) (s : State) : State :=
  { s with doneFlag := s.doneFlag && !data.getLsbD 1 }

/-- A host write (`20_memory.md` R68; `70_reset_and_hazards.md` R296, R300 to R304). Read-only registers and
reserved offsets ignore it. -/
def busWrite (addr : BitVec 12) (data : Word) (s : State) : State :=
  match regOfAddr addr with
  | none => s
  | some .ctrl => { s with ctrl := data.setWidth 2 }
  | some .status => writeStatus data s
  | some .arg => { s with arg := data }
  | some .cmd => unlessBusy s (accept data s)
  | some .abufPtr => unlessBusy s (setPtr s data.toNat)
  | some .abufData => unlessBusy s (storeByte data s)
  | some .id => s
  | some .errInfo => s
  | some .result0 => s
  | some .result1 => s
  | some .nsym => s
  | some .total => s
  | some .nnodes => s
  | some .root => s
  | some .bitLen => s
  | some .bitPos => s
  | some .pbase => s
  | some .alen => s
  | some .abufSize => s

/-- Reset (`70_reset_and_hazards.md` R290 to R292): the reset state with a fresh ABUF_INIT; an accepted
command is abandoned. The instance's ABUF_BYTES, and what is not the block's (the events still to come, the
last word read, the counters), are kept (assumption logs 2, 4, 5). -/
def resetBlock (s : State) : State :=
  { State.reset with
    cfg := s.cfg, rdata := s.rdata, pending := s.pending, draws := s.draws, resets := s.resets + 1 }

end Sys2Proof.Machine
end

