-- ==== Sys2Proof/Machine/Operands.lean ====
section
/-! DEFINITION. The operands and fields the commands read: COUNT and LENGTH (`30_encoding.md` R95), the
fields of a node (`10_state.md` R35), the bits of a code (`00_scope.md` R14), a payload bit that may not
exist (`20_memory.md` R69). -/

namespace Sys2Proof.Machine

/-- COUNT = ARG_LAT (`30_encoding.md` R95). -/
def countOperand (s : State) : Nat := s.argLat.toNat

/-- LENGTH = ARG_LAT (`30_encoding.md` R95). -/
def lengthOperand (s : State) : Nat := s.argLat.toNat

/-- KIND: 0 for a leaf, 1 for an internal node (`10_state.md` R35). -/
def Node.kind : Node → BitVec 1
  | .leaf _ _ => 0
  | .internal _ _ _ => 1

/-- SYM: 0 for an internal node (`10_state.md` R35). -/
def Node.symField : Node → Symbol
  | .leaf sym _ => sym
  | .internal _ _ _ => 0

/-- LEFT: 0 for a leaf (`10_state.md` R35). -/
def Node.left : Node → NodeIdx
  | .leaf _ _ => 0
  | .internal l _ _ => l

/-- RIGHT: 0 for a leaf (`10_state.md` R35). -/
def Node.right : Node → NodeIdx
  | .leaf _ _ => 0
  | .internal _ r _ => r

/-- WEIGHT (`10_state.md` R35). -/
def Node.weight : Node → Word
  | .leaf _ w => w
  | .internal _ _ w => w

/-- The child a bit leads to: 0 left, 1 right (`44_bit_unpacker.md` R190). -/
def Node.child (nd : Node) (b : Bool) : NodeIdx := if b then nd.right else nd.left

/-- The bits of a code in emission order: bit i is (VAL >> (LEN − 1 − i)) & 1 (`00_scope.md` R14,
`10_state.md` R38). -/
def codeBits (e : CodeEntry) : List Bool :=
  (List.range e.len.toNat).map fun i => e.val.getLsbD (e.len.toNat - 1 - i)

/-- Bit(p), if its byte exists: an address of ABUF is below ABUF_BYTES (`20_memory.md` R60, R69). -/
def payloadBit? (s : State) (p : Nat) : Option Bool :=
  if pbase s + p / 8 < s.cfg.abufBytes then some (payloadBit s p) else none

/-- Word w of a code value, bits 32w+31 down to 32w, zero above bit 254 (`42_code_table.md` R155). -/
def codeWord (v : BitVec 255) (w : BitVec 3) : Word := v.extractLsb' (32 * w.toNat) 32

/-- RESULT0 of RD_NODE (`41_tree_builder.md` R135): a leaf's symbol, or KIND, RIGHT and LEFT in bits 31,
24:16 and 8:0. -/
def nodeWord : Node → Word
  | .leaf sym _ => sym.setWidth 32
  | .internal l r _ => (1#1 ++ 0#6 ++ BitVec.ofNat 9 r.val ++ 0#7 ++ BitVec.ofNat 9 l.val : BitVec 32)

end Sys2Proof.Machine
end

