-- ==== Sys2Proof/Machine/BitPacker.lean ====
section
/-! DEFINITION. The bit packer commands ENC_SYM and STRM_RST (`43_bit_packer.md`). -/

namespace Sys2Proof.Machine

/-- The byte PutBit writes (`43_bit_packer.md` R171): the r bits before position p kept, bit c, then zeros.
With r = 0 nothing of the old byte is kept, so it is not read. -/
def putBitByte (old : Byte) (r : Nat) (c : Bool) : Byte :=
  (if r = 0 then 0 else old &&& ((0xFF : Byte) <<< (8 - r))) ||| ((BitVec.ofBool c).setWidth 8 <<< (7 - r))

/-- PutBit(p, c) in a payload that starts at byte `base` (`43_bit_packer.md` R171). -/
def putBit (base p : Nat) (c : Bool) (s : State) : State :=
  { s with abuf := Memory.write s.abuf (base + p / 8) (putBitByte (abufByte s (base + p / 8)) (p % 8) c) }

/-- PutBit of consecutive bits, the first at position p. -/
def putBits (base : Nat) : Nat → List Bool → State → State
  | _, [], s => s
  | p, c :: cs, s => putBits base (p + 1) cs (putBit base p c s)

/-- Append a code to the payload: its bits, then BITLEN <- BITLEN + len (`43_bit_packer.md` R170). -/
def appendCode (e : CodeEntry) (s : State) : State :=
  { putBits (pbase s) s.bitLen.toNat (codeBits e) s with
    bitLen := BitVec.ofNat 32 (s.bitLen.toNat + e.len.toNat) }

/-- RESULT0 and RESULT1 of ENC_SYM: the bits appended and the new BITLEN. -/
def appendResults (e : CodeEntry) (s : State) : State := setResults (e.len.setWidth 32) s.bitLen s

/-- ENC_SYM (`43_bit_packer.md` R170, R172). -/
def execEncSym (sym : Symbol) (s : State) : Out :=
  checkPhase .encSym s <|
    if (codeAt s.code sym).len = 0 then .next (raise Opcode.encSym.code .unknownSymbol sym s)
    else if pbase s + ceil8 (s.bitLen.toNat + (codeAt s.code sym).len.toNat) > s.cfg.abufBytes then
      .next (raise Opcode.encSym.code .capacity 0x01 s)
    else .next (complete (appendResults (codeAt s.code sym) (appendCode (codeAt s.code sym) s)))

/-- STRM_RST (`43_bit_packer.md` R174). -/
def execStrmRst (s : State) : Out := .next (complete (emptyStream s))

end Sys2Proof.Machine
end

