-- ==== Sys2Proof/Machine/BitUnpacker.lean ====
section
/-! DEFINITION. The bit unpacker commands DEC_SYM and REWIND (`44_bit_unpacker.md`). -/

namespace Sys2Proof.Machine

/-- How the traversal of DEC_SYM ends: at a leaf with the stream position after it, at the end of the
stream, or at a payload byte that does not exist (`44_bit_unpacker.md` R190; assumption log 11). -/
inductive WalkEnd where
  | symbol (sym : Symbol) (p : Nat)
  | exhausted
  | absent (a : Nat)
deriving DecidableEq, Repr

/-- The traversal loop of DEC_SYM (`44_bit_unpacker.md` R190) from internal node i at position p, with
`left` bits of the stream left: p = BITLEN exactly when none is left (assumption log 10). -/
def decodeWalk (s : State) : Nat → NodeIdx → Nat → WalkEnd
  | 0, _, _ => .exhausted
  | left + 1, i, p =>
    match payloadBit? s p with
    | none => .absent (pbase s + p / 8)
    | some b =>
      match nodeAt s.node ((nodeAt s.node i).child b) with
      | .leaf sym _ => .symbol sym (p + 1)
      | .internal _ _ _ => decodeWalk s left ((nodeAt s.node i).child b) (p + 1)

/-- DEC_SYM gives a symbol: RESULT0 the symbol, RESULT1 the bits it took, BITPOS the position after it. -/
def decoded (sym : Symbol) (p : Nat) (s : State) : State :=
  setResults (sym.setWidth 32) (BitVec.ofNat 32 (p - s.bitPos.toNat)) { s with bitPos := BitVec.ofNat 32 p }

/-- The single-leaf tree: each symbol is one bit, which must be 0 (`44_bit_unpacker.md` R191). -/
def decodeSingle (sym : Symbol) (s : State) : Out :=
  match payloadBit? s s.bitPos.toNat with
  | none => .fault (.absentByte (pbase s + s.bitPos.toNat / 8))
  | some true => .next (raise Opcode.decSym.code .corruptStream 0x11 s)
  | some false => .next (complete (decoded sym (s.bitPos.toNat + 1) s))

/-- The traversal from an internal root (`44_bit_unpacker.md` R190, R193). -/
def decodeTree (s : State) : Out :=
  match decodeWalk s (s.bitLen.toNat - s.bitPos.toNat) (nodeIdx (root s)) s.bitPos.toNat with
  | .symbol sym p => .next (complete (decoded sym p s))
  | .exhausted => .next (raise Opcode.decSym.code .corruptStream 0x10 s)
  | .absent a => .fault (.absentByte a)

/-- DEC_SYM (`44_bit_unpacker.md` R190). At the end of the stream RESULT0 = 0x100 (R192). -/
def execDecSym (s : State) : Out :=
  checkPhase .decSym s <|
    if s.bitPos = s.bitLen then .next (complete (setResults 0x100 0 s))
    else
      match nodeAt s.node (nodeIdx (root s)) with
      | .leaf sym _ => decodeSingle sym s
      | .internal _ _ _ => decodeTree s

/-- REWIND (`44_bit_unpacker.md` R196). -/
def execRewind (s : State) : Out := .next (complete { s with bitPos := 0 })

end Sys2Proof.Machine
end

