-- ==== Sys2Proof/Machine/CodeTable.lean ====
section
/-! DEFINITION. The code table generator commands GEN_CODES and RD_CODE (`42_code_table.md`). -/

namespace Sys2Proof.Machine

/-- An entry (node, depth, value) of the work-list (`42_code_table.md` R152). -/
structure WalkItem where
  node : NodeIdx
  depth : Nat
  value : Nat
deriving DecidableEq, Repr

/-- A code of a given length and value as a table entry (`10_state.md` R38). -/
def codeEntry (len val : Nat) : CodeEntry := { len := BitVec.ofNat 8 len, val := BitVec.ofNat 255 val }

/-- Walk (`42_code_table.md` R152), at most `fuel` visits. The left child is popped before the right. -/
def walk (t : Vector Node 511) : Nat → List WalkItem → Vector CodeEntry 256 → Vector CodeEntry 256
  | 0, _, c => c
  | _ + 1, [], c => c
  | fuel + 1, w :: stack, c =>
    match nodeAt t w.node with
    | .leaf sym _ => walk t fuel stack (setCode c sym (codeEntry w.depth w.value))
    | .internal l r _ =>
      walk t fuel
        ({ node := l, depth := w.depth + 1, value := 2 * w.value }
          :: { node := r, depth := w.depth + 1, value := 2 * w.value + 1 } :: stack) c

/-- AssignCodes (`42_code_table.md` R151): one-bit code "0" for a single leaf, else the paths of Walk. A
tree of the arena has at most MAX_NODES = 511 nodes, each visited once (assumption log 10). -/
def assignCodes (t : Vector Node 511) (rt : NodeIdx) : Vector CodeEntry 256 :=
  match nodeAt t rt with
  | .leaf sym _ => setCode emptyCodes sym (codeEntry 1 0)
  | .internal _ _ _ => walk t 511 [{ node := rt, depth := 0, value := 0 }] emptyCodes

/-- The weighted path length, the sum of FREQ[s] · CODE[s].LEN (`42_code_table.md` R150). -/
def weightedPathLength (f : Vector Word 256) (c : Vector CodeEntry 256) : Nat :=
  (List.zipWith (fun w e => w.toNat * e.len.toNat) f.toList c.toList).sum

/-- CODE <- the codes of the tree at ROOT. -/
def withCodes (s : State) : State := { s with code := assignCodes s.node (nodeIdx (root s)), phase := .coded }

/-- GEN_CODES (`42_code_table.md` R150): RESULT0 and RESULT1 are the low and high words of the weighted path
length. -/
def execGenCodes (s : State) : Out :=
  checkPhase .genCodes s <|
    .next (complete (setResults
      (BitVec.ofNat 32 (weightedPathLength s.freq (withCodes s).code))
      (BitVec.ofNat 32 (weightedPathLength s.freq (withCodes s).code / 2 ^ 32)) (withCodes s)))

/-- RD_CODE (`42_code_table.md` R155). -/
def execRdCode (sym : Symbol) (w : BitVec 3) (s : State) : Out :=
  checkPhase .rdCode s <|
    .next (complete (setResults ((codeAt s.code sym).len.setWidth 32) (codeWord (codeAt s.code sym).val w) s))

end Sys2Proof.Machine
end

