-- ==== Sys2Proof/Machine/Control.lean ====
section
/-! DEFINITION. The control commands NOP, CLEAR and ERR_ACK (`46_control.md`). -/

namespace Sys2Proof.Machine

/-- NOP (`46_control.md` R230): completion and nothing else. -/
def execNop (s : State) : Out := .next (complete s)

/-- CLEAR (`46_control.md` R231): a fresh run. CTRL, ARG, ABUF_PTR, ABUF, NODE and CODE are kept. -/
def execClear (s : State) : Out :=
  .next (complete (setResults 0 0 (acknowledge (emptyStream { s with freq := zeroFreq, phase := .load }))))

/-- ERR_ACK (`46_control.md` R232): acknowledge an error, keeping the data state. -/
def execErrAck (s : State) : Out := .next (complete (acknowledge s))

end Sys2Proof.Machine
end

