-- ==== Sys2Proof/Machine/FrequencyTable.lean ====
section
/-! DEFINITION. The frequency table commands FREQ_ADD and RD_FREQ (`40_frequency_table.md`). -/

namespace Sys2Proof.Machine

/-- The data effect of a successful FREQ_ADD (`40_frequency_table.md` R110): the symbol's count grows and
the stream is emptied. -/
def addCount (sym : Symbol) (count : Word) (s : State) : State :=
  emptyStream { s with freq := setFreq s.freq sym (freqAt s.freq sym + count) }

/-- RESULT0 and RESULT1 of FREQ_ADD: the symbol's new count and the new TOTAL (`40_frequency_table.md`
R110). -/
def countResults (sym : Symbol) (s : State) : State :=
  setResults (freqAt s.freq sym) (BitVec.ofNat 32 (total s)) s

/-- FREQ_ADD (`40_frequency_table.md` R110). -/
def execFreqAdd (sym : Symbol) (s : State) : Out :=
  checkPhase .freqAdd s <|
    if countOperand s = 0 then .next (raise Opcode.freqAdd.code .operand 0x01 s)
    else if total s + countOperand s > 2 ^ 32 - 1 then .next (raise Opcode.freqAdd.code .overflow 0x01 s)
    else .next (complete (countResults sym (addCount sym s.argLat s)))

/-- RD_FREQ (`40_frequency_table.md` R113). -/
def execRdFreq (sym : Symbol) (s : State) : Out :=
  .next (complete (setResults (freqAt s.freq sym) (BitVec.ofNat 32 (nsym s)) s))

end Sys2Proof.Machine
end

