-- ==== Sys2Proof/Machine/TreeBuilder.lean ====
section
/-! DEFINITION. The tree builder commands BUILD and RD_NODE (`41_tree_builder.md`). -/

namespace Sys2Proof.Machine

/-- An element of the priority collection Q with its key (WEIGHT, index) (`41_tree_builder.md` R132). -/
structure Key where
  weight : Word
  idx : Nat
deriving DecidableEq, Repr

/-- The order of keys: weight first, then index (`00_scope.md` R15; `41_tree_builder.md` R133). -/
def keyLess (a b : Key) : Bool :=
  decide (a.weight.toNat < b.weight.toNat) || (a.weight == b.weight && decide (a.idx < b.idx))

/-- The least of a key and a list of keys. -/
def leastKey : Key → List Key → Key
  | k, [] => k
  | k, x :: xs => if keyLess x k then leastKey x xs else leastKey k xs

/-- a <- argmin of Q; Q <- Q without a (`41_tree_builder.md` R132). None for an empty Q. -/
def extractLeast : List Key → Option (Key × List Key)
  | [] => none
  | k :: ks => some (leastKey k ks, (k :: ks).erase (leastKey k ks))

/-- The internal node that merges two extracted nodes: the first is LEFT, the second RIGHT
(`41_tree_builder.md` R132). -/
def mergeNode (a b : Key) : Node := .internal (nodeIdx a.idx) (nodeIdx b.idx) (a.weight + b.weight)

/-- The merge loop (`41_tree_builder.md` R132), `fuel` merges. The next arena index k is the length of the
arena so far. -/
def mergeLoop : Nat → List Key → List Node → List Node
  | 0, _, arena => arena
  | fuel + 1, q, arena =>
    match extractLeast q with
    | none => arena
    | some (a, q1) =>
      match extractLeast q1 with
      | none => arena
      | some (b, q2) =>
        mergeLoop fuel (q2 ++ [{ weight := a.weight + b.weight, idx := arena.length }])
          (arena ++ [mergeNode a b])

/-- The leaves, in ascending symbol order (`41_tree_builder.md` R132). -/
def leaves (f : Vector Word 256) : List Node := (presentEntries f).map fun p => .leaf p.1 p.2

/-- The keys of the nodes of an arena. -/
def keysOf (arena : List Node) : List Key := arena.zipIdx.map fun p => { weight := p.1.weight, idx := p.2 }

/-- BuildTree (`41_tree_builder.md` R132): the arena entries 0 to 2·NSYM − 2. The collection loses one
element at each merge, so NSYM − 1 merges leave one. -/
def buildArena (f : Vector Word 256) : List Node :=
  mergeLoop ((leaves f).length - 1) (keysOf (leaves f)) (leaves f)

/-- BUILD (`41_tree_builder.md` R130, R131). -/
def execBuild (s : State) : Out :=
  checkPhase .build s <|
    if nsym s = 0 then .next (raise Opcode.build.code .emptyInput 0x00 s)
    else
      .next (complete (setResults (BitVec.ofNat 32 (2 * nsym s - 2)) (BitVec.ofNat 32 (2 * nsym s - 1))
        { s with node := writeArena s.node (buildArena s.freq), phase := .built }))

/-- RD_NODE (`41_tree_builder.md` R135). -/
def execRdNode (idx : BitVec 9) (s : State) : Out :=
  checkPhase .rdNode s <|
    if idx.toNat ≥ nnodes s then .next (raise Opcode.rdNode.code .operand 0x02 s)
    else
      .next (complete (setResults (nodeWord (nodeAt s.node (nodeIdx idx.toNat)))
        (nodeAt s.node (nodeIdx idx.toNat)).weight s))

end Sys2Proof.Machine
end

