-- ==== Sys2Proof/Machine/TreeSerializer.lean ====
section
/-! DEFINITION. The tree serializer commands WR_HEADER and RD_HEADER (`45_tree_serializer.md`). -/

namespace Sys2Proof.Machine

/-- The entries of the header from entry i on: symbol, then frequency (`45_tree_serializer.md` R210, R213). -/
def writeEntries : Memory → Nat → List (Symbol × Word) → Memory
  | m, _, [] => m
  | m, i, (sym, f) :: es =>
    writeEntries (memWrite (memWrite m (2 + 5 * i) 1 sym.toNat) (3 + 5 * i) 4 f.toNat) (i + 1) es

/-- ABUF after WR_HEADER: symbol-count, the entries in ascending symbol order, payload-bit-length
(`45_tree_serializer.md` R213). -/
def headerWritten (s : State) : Memory :=
  memWrite (writeEntries (memWrite s.abuf 0 2 (nsym s)) 0 (presentEntries s.freq)) (2 + 5 * nsym s) 4
    s.bitLen.toNat

/-- WR_HEADER (`45_tree_serializer.md` R213). -/
def execWrHeader (s : State) : Out :=
  checkPhase .wrHeader s <|
    .next (complete (setResults (BitVec.ofNat 32 (pbase s)) (BitVec.ofNat 32 (alen s))
      { s with abuf := headerWritten s }))

/-- The symbol s_i of the header (`45_tree_serializer.md` R210). -/
def headerSym (s : State) (i : Nat) : Symbol := BitVec.ofNat 8 (memRead s (2 + 5 * i) 1)

/-- The frequency f_i of the header (`45_tree_serializer.md` R210). -/
def headerFreq (s : State) (i : Nat) : Nat := memRead s (3 + 5 * i) 4

/-- The payload-bit-length L of a header with n entries (`45_tree_serializer.md` R210). -/
def headerLen (s : State) (n : Nat) : Nat := memRead s (2 + 5 * n) 4

/-- The symbol order check of an entry: s_i ≤ s_{i−1} for i > 0 (`45_tree_serializer.md` R215, check 5). -/
def outOfOrder (prev : Option Symbol) (sym : Symbol) : Bool :=
  match prev with
  | none => false
  | some q => decide (sym.toNat ≤ q.toNat)

/-- Checks 5, 6 and 7 entry by entry (`45_tree_serializer.md` R214, R215): `k` entries from entry i on,
after the symbol `prev` and the running total `tot`. The entries, or the subcode of the first check that
fails. -/
def readEntries (s : State) : Nat → Nat → Option Symbol → Nat → Except Byte (List (Symbol × Word))
  | 0, _, _, _ => .ok []
  | k + 1, i, prev, tot =>
    if outOfOrder prev (headerSym s i) then .error 0x03
    else if headerFreq s i = 0 then .error 0x04
    else if tot + headerFreq s i > 2 ^ 32 - 1 then .error 0x05
    else
      match readEntries s k (i + 1) (some (headerSym s i)) (tot + headerFreq s i) with
      | .error e => .error e
      | .ok es => .ok ((headerSym s i, BitVec.ofNat 32 (headerFreq s i)) :: es)

/-- Checks 2 to 8 of an artifact of `len` bytes (`45_tree_serializer.md` R215): the entries and L, or the
CORRUPT_STREAM subcode of the first check that fails. -/
def readArtifact (s : State) (len : Nat) : Except Byte (List (Symbol × Word) × Nat) :=
  if len < 2 then .error 0x01
  else if memRead s 0 2 = 0 ∨ memRead s 0 2 > 256 then .error 0x02
  else if len < 6 + 5 * memRead s 0 2 then .error 0x01
  else
    match readEntries s (memRead s 0 2) 0 none 0 with
    | .error e => .error e
    | .ok es =>
      if len ≠ 6 + 5 * memRead s 0 2 + ceil8 (headerLen s (memRead s 0 2)) then .error 0x06
      else .ok (es, headerLen s (memRead s 0 2))

/-- The table of a list of entries (`45_tree_serializer.md` R214, the commit). -/
def loadFreq (es : List (Symbol × Word)) : Vector Word 256 :=
  es.foldl (fun f p => setFreq f p.1 p.2) zeroFreq

/-- The commit of RD_HEADER (`45_tree_serializer.md` R214). -/
def loadArtifact (es : List (Symbol × Word)) (l : Nat) (s : State) : State :=
  setResults (BitVec.ofNat 32 es.length) (BitVec.ofNat 32 l)
    { s with freq := loadFreq es, phase := .load, bitLen := BitVec.ofNat 32 l, bitPos := 0 }

/-- RD_HEADER (`45_tree_serializer.md` R214, R215). -/
def execRdHeader (s : State) : Out :=
  if lengthOperand s > s.cfg.abufBytes then .next (raise Opcode.rdHeader.code .operand 0x03 s)
  else
    match readArtifact s (lengthOperand s) with
    | .error sub => .next (raise Opcode.rdHeader.code .corruptStream sub s)
    | .ok (es, l) => .next (complete (loadArtifact es l s))

end Sys2Proof.Machine
end

