-- ==== Sys2Proof/Machine/Dispatch.lean ====
section
/-! DEFINITION. exec: one arm per command, each a direct call of its meaning. -/

namespace Sys2Proof.Machine

/-- The rule of a decoded command (`30_encoding.md` R96, R97). -/
def exec (i : Instr) (s : State) : Host.Outcome State Fault Refusal :=
  match i with
  | .nop => Sys2Proof.Machine.execNop s
  | .clear => Sys2Proof.Machine.execClear s
  | .errAck => Sys2Proof.Machine.execErrAck s
  | .freqAdd sym => Sys2Proof.Machine.execFreqAdd sym s
  | .rdFreq sym => Sys2Proof.Machine.execRdFreq sym s
  | .build => Sys2Proof.Machine.execBuild s
  | .rdNode idx => Sys2Proof.Machine.execRdNode idx s
  | .genCodes => Sys2Proof.Machine.execGenCodes s
  | .rdCode sym w => Sys2Proof.Machine.execRdCode sym w s
  | .encSym sym => Sys2Proof.Machine.execEncSym sym s
  | .strmRst => Sys2Proof.Machine.execStrmRst s
  | .decSym => Sys2Proof.Machine.execDecSym s
  | .rewind => Sys2Proof.Machine.execRewind s
  | .wrHeader => Sys2Proof.Machine.execWrHeader s
  | .rdHeader => Sys2Proof.Machine.execRdHeader s

end Sys2Proof.Machine
end

