-- ==== Sys2Proof/Machine/Engine.lean ====
section
/-! DEFINITION. The engine's completion of an accepted command: the discard test (`60_exceptions.md` R254),
then decoding (`30_encoding.md` R97), then the command's rule. -/

namespace Sys2Proof.Machine

/-- The words that execute while ERR = 1: exactly CLEAR and ERR_ACK (`60_exceptions.md` R254). -/
def runsUnderError (w : Word) : Bool := w == 0x01000000 || w == 0x02000000

/-- The accepted word is discarded (`60_exceptions.md` R254). -/
def discarded (s : State) : Bool := s.err && !runsUnderError s.cmdLat

/-- Execute(CMD_LAT, ARG_LAT, s) (`00_scope.md` R5, `60_exceptions.md` R255): discard, illegal encodings, the
command's rule. ERRINFO.OPC of an illegal word is its bits 31:24 (`10_state.md` R28). -/
def execute (s : State) : Out :=
  if discarded s then .next (complete s)
  else
    match decode s.cmdLat with
    | .error e => .next (raise (opcField s.cmdLat) .illegalCommand e.sub s)
    | .ok i => exec i s

/-- The engine's turn: the accepted command completes; an idle engine holds its state (`60_exceptions.md`
R267; `70_reset_and_hazards.md` R297, R307). -/
def engineTurn (s : State) : Out := if s.busy then execute s else .next s

end Sys2Proof.Machine
end

