-- ==== Sys2Proof/Machine/Events.lean ====
section
/-! DEFINITION. What each event does (`70_reset_and_hazards.md` R297). -/

namespace Sys2Proof.Machine

/-- Apply one event (`70_reset_and_hazards.md` R290, R296, R297). In a cycle with both strobes the write
takes effect and the read data are any value (R296; U9; assumption log 9). -/
def applyEvent (e : Event) (s : State) : Out :=
  match e with
  | .write addr data => .next (busWrite addr data s)
  | .read addr => .next (busRead addr s)
  | .writeRead addr data => .next (readAny (busWrite addr data s))
  | .complete => engineTurn s
  | .reset => .next (resetBlock s)

/-- The word w accepted (`70_reset_and_hazards.md` R300) with its completion as the very next event: events
still pending come after it, and an unacknowledged error, which would discard the word, is acknowledged
(assumption log 7). -/
def placeWord (w : Word) (s : State) : State :=
  { accept w (if s.err && !runsUnderError w then { s with err := false, errInfo := ErrInfo.zero } else s) with
    pending := match s.pending with
      | [] => []
      | e :: rest => .complete :: e :: rest }

end Sys2Proof.Machine
end

