-- ==== Sys2Proof/Machine/Step.lean ====
section
/-! DEFINITION. One step of the block: the oldest pending event, or, with none pending, the engine's turn
(`70_reset_and_hazards.md` R297, R307); and the placing of a command where the next step runs it. -/

namespace Sys2Proof.Machine

/-- One step (`20_memory.md` R72; `70_reset_and_hazards.md` R297; assumption log 4). -/
def step (s : State) : Host.Outcome State Fault Refusal :=
  match s.pending with
  | [] => engineTurn s
  | e :: rest => applyEvent e { s with pending := rest }

/-- The command word of the table's number `w` of `nbits` bits, accepted and completing at the very next step
(`30_encoding.md` R90; assumption log 7). -/
def State.withFetchWord (s : State) (nbits w : Nat) : State := placeWord (BitVec.ofNat 32 (w % 2 ^ nbits)) s

end Sys2Proof.Machine
end

