-- ==== Sys2Proof/WellFormed.lean ====
section
/-! DEFINITION. The assembler's range checks (`30_encoding.md` R102). A term of `Instr` needs no check: the
types of its operands are exactly the widths of `30_encoding.md` R95, so every term is well formed. A source
line carries numbers as written and is checked here; the assembler never truncates. -/

namespace Sys2Proof

/-- A symbol operand is at most 255 (`30_encoding.md` R102). -/
def symInRange (sym : Nat) : Bool := decide (sym ≤ 255)

/-- A count or a length is below 2^32 (`30_encoding.md` R102). -/
def argInRange (v : Nat) : Bool := decide (v < 2 ^ 32)

/-- "An operand out of its range (sym > 255, w > 7, idx > 511, count or length ≥ 2^32) is an assembly
error" (`30_encoding.md` R102). -/
def AsmLine.wellFormed : AsmLine → Bool
  | .nop => true
  | .clear => true
  | .errAck => true
  | .freqAdd sym count => symInRange sym && argInRange count
  | .rdFreq sym => symInRange sym
  | .build => true
  | .rdNode idx => decide (idx ≤ 511)
  | .genCodes => true
  | .rdCode sym w => symInRange sym && decide (w ≤ 7)
  | .encSym sym => symInRange sym
  | .strmRst => true
  | .decSym => true
  | .rewind => true
  | .wrHeader => true
  | .rdHeader length => argInRange length

end Sys2Proof
end

