-- ==== Sys2Proof/Machine/Assembly.lean ====
section
/-! DEFINITION. The assembler: source lines and pseudo-commands as the actions of a host program
(`30_encoding.md` R102, R103). -/

namespace Sys2Proof.Machine

/-- The command of a line (`30_encoding.md` R102), for a line in range. -/
def lineInstr : AsmLine → Instr
  | .nop => .nop
  | .clear => .clear
  | .errAck => .errAck
  | .freqAdd sym _ => .freqAdd (BitVec.ofNat 8 sym)
  | .rdFreq sym => .rdFreq (BitVec.ofNat 8 sym)
  | .build => .build
  | .rdNode idx => .rdNode (BitVec.ofNat 9 idx)
  | .genCodes => .genCodes
  | .rdCode sym w => .rdCode (BitVec.ofNat 8 sym) (BitVec.ofNat 3 w)
  | .encSym sym => .encSym (BitVec.ofNat 8 sym)
  | .strmRst => .strmRst
  | .decSym => .decSym
  | .rewind => .rewind
  | .wrHeader => .wrHeader
  | .rdHeader _ => .rdHeader

/-- The value a line writes to ARG first, if any (`30_encoding.md` R102). -/
def lineArg : AsmLine → Option Word
  | .freqAdd _ count => some (BitVec.ofNat 32 count)
  | .rdHeader length => some (BitVec.ofNat 32 length)
  | .nop => none
  | .clear => none
  | .errAck => none
  | .rdFreq _ => none
  | .build => none
  | .rdNode _ => none
  | .genCodes => none
  | .rdCode _ _ => none
  | .encSym _ => none
  | .strmRst => none
  | .decSym => none
  | .rewind => none
  | .wrHeader => none

/-- The write of ARG that a line makes first, if any. -/
def argActs : Option Word → List HostAct
  | none => []
  | some v => [.write .arg v]

/-- The actions of a line in range: "write ARG (if the table says so), write CMD with the word, then read STATUS
until BUSY = 0" (`30_encoding.md` R102). -/
def lineActs (l : AsmLine) : List HostAct :=
  argActs (lineArg l) ++ [.write .cmd (encode (lineInstr l)), .waitIdle]

/-- The actions of a host operation, none for an operand out of range (`30_encoding.md` R102: "an assembly
error; the assembler never truncates"). -/
def opActs : HostOp → Option (List HostAct)
  | .cmd l => if l.wellFormed then some (lineActs l) else none
  | .wait => some [.waitIdle]
  | .wr r v => if argInRange v then some [.write r (BitVec.ofNat 32 v)] else none
  | .rd r => some [.read r]
  | .decSymUntilEnd => some [.decSym]

/-- `COUNT sym` is `FREQ_ADD sym, 1` (`30_encoding.md` R103). -/
def countOp (sym : Nat) : HostOp := .cmd (.freqAdd sym 1)

/-- `ENC_SYM c` as an operation. -/
def encOp (sym : Nat) : HostOp := .cmd (.encSym sym)

/-- The expansions of `30_encoding.md` R103. -/
def expandLine : ProgLine → List HostOp
  | .op o => [o]
  | .count sym => [countOp sym]
  | .countStr text => text.map countOp
  | .encStr text => text.map encOp
  | .abufWrite a bytes => .wr .abufPtr a :: bytes.map fun b => .wr .abufData b
  | .abufRead a n => .wr .abufPtr a :: List.replicate n (.rd .abufData)
  | .compress text =>
    .cmd .clear :: text.map countOp ++ [.cmd .build, .cmd .genCodes] ++ text.map encOp ++ [.cmd .wrHeader]
  | .decompress len => [.cmd (.rdHeader len), .cmd .build, .decSymUntilEnd]

/-- The actions of a list of operations, none if one of them is out of range. -/
def opsActs : List HostOp → Option (List HostAct)
  | [] => some []
  | o :: os =>
    match opActs o, opsActs os with
    | some as, some rest => some (as ++ rest)
    | _, _ => none

/-- The actions of a host program. -/
def assemble (prog : List ProgLine) : Option (List HostAct) := opsActs (prog.map expandLine).flatten

end Sys2Proof.Machine
end

