-- ==== Sys2Proof/Machine/HostProgram.lean ====
section
/-! DEFINITION. A host program running beside the block: the host's accesses, with the polling of WAIT and the loop
of DECOMPRESS (`30_encoding.md` R103), and everything else that happens between them (`20_memory.md` R72,
`70_reset_and_hazards.md` R297). -/

namespace Sys2Proof.Machine

/-- A host program under way: the actions still to do, and the block. -/
structure HostRun where
  acts : List HostAct
  state : State
deriving DecidableEq, Repr

/-- Whose turn it is: the program makes its next access, or an event from outside the program happens (the
completion of the accepted command, another access, reset) (`70_reset_and_hazards.md` R297). -/
inductive Turn where
  | host
  | outside (e : Event)
deriving DecidableEq, Repr

/-- The outcome of turns of a host program. -/
abbrev RunOut := Host.Outcome HostRun Fault Refusal

/-- The access an action makes. -/
def actEvent : HostAct → Event
  | .write r v => .write (regOffset r) v
  | .read r => .read (regOffset r)
  | .waitIdle => .read (regOffset .status)
  | .decSym => .write (regOffset .cmd) (encode .decSym)
  | .endTest => .read (regOffset .result0)

/-- What an action leaves to do, given the word on the read port after its access.
WAIT reads STATUS again until BUSY, bit 0, is 0, and the loop of DECOMPRESS issues DEC_SYM again until bit 8 of
RESULT0 is 1 (`30_encoding.md` R103). The loop has no other exit. -/
def actAfter (w : Word) : HostAct → List HostAct
  | .write _ _ => []
  | .read _ => []
  | .waitIdle => if w.getLsbD 0 then [.waitIdle] else []
  | .decSym => [.waitIdle, .endTest]
  | .endTest => if w.getLsbD 8 then [] else [.decSym]

/-- An outcome of the block, as an outcome of a program with these actions to do in the state reached. -/
def runOut (acts : State → List HostAct) : Out → RunOut
  | .next t => .next { acts := acts t, state := t }
  | .fault f => .fault f
  | .refused f => .refused f

/-- The program's turn: its next action. A program with nothing left to do makes no access. -/
def hostTurn (r : HostRun) : RunOut :=
  match r.acts with
  | [] => .next r
  | a :: rest => runOut (fun t => actAfter t.rdata a ++ rest) (applyEvent (actEvent a) r.state)

/-- One turn. -/
def takeTurn (x : Turn) (r : HostRun) : RunOut :=
  match x with
  | .host => hostTurn r
  | .outside e => runOut (fun _ => r.acts) (applyEvent e r.state)

/-- Turns one after the other, as far as none stops. -/
def takeTurns : List Turn → HostRun → RunOut
  | [], r => .next r
  | x :: xs, r =>
    match takeTurn x r with
    | .next r' => takeTurns xs r'
    | .fault f => .fault f
    | .refused f => .refused f

end Sys2Proof.Machine
end

