-- ==== Sys2Proof/Safety.lean ====
section
/-! DEFINITION. What a sound state is (the invariants INV1 to INV7 of `10_state.md` R51 with the form of the
stored data), and the words in which claims say what a command leaves alone. -/

namespace Sys2Proof.Machine

/-- The invariants of `10_state.md` R51 and the form of the data. INV1 holds by the type of PHASE. -/
structure Sound (s : State) : Prop where
  /-- INV2: while a tree exists, the table is not empty and the arena is the one BUILD computes. -/
  tree : s.phase ≠ .load →
    1 ≤ nsym s ∧ s.node.toList.take (2 * nsym s - 1) = buildArena s.freq
  /-- INV3: in CODED the code table is the one GEN_CODES computes. -/
  codes : s.phase = .coded → s.code = assignCodes s.node (nodeIdx (root s))
  /-- INV4. -/
  cursor : s.bitPos.toNat ≤ s.bitLen.toNat
  /-- INV5. -/
  fits : alen s ≤ s.cfg.abufBytes
  /-- INV6. -/
  total_le : total s ≤ 2 ^ 32 - 1
  /-- INV7. -/
  errCode : s.err = true ↔ s.errInfo.code ≠ .none
  /-- ABUF is in canonical form. -/
  abufForm : Memory.wf s.abuf
  /-- Every listed byte of ABUF exists (`20_memory.md` R60). -/
  abufExists : ∀ c ∈ s.abuf, c.1 < s.cfg.abufBytes
  /-- ABUF_PTR has AW bits (`10_state.md` R43). -/
  ptrExists : s.abufPtr.toNat < s.cfg.abufBytes
  /-- DONE is 0 while BUSY is 1 (`10_state.md` R25, `70_reset_and_hazards.md` R302). -/
  handshake : s.busy = true → s.doneFlag = false
  /-- CMD reads CMD_LAST, which equals CMD_LAT (`10_state.md` R50). -/
  latched : s.cmdLast = s.cmdLat

/-- Every byte of ABUF reads the same in both states. -/
def SameAbuf (s t : State) : Prop := ∀ a, abufByte t a = abufByte s a

/-- What no command writes (`10_state.md` R22, R29, R30, R43, R50; `00_scope.md` R11): CTRL, ARG, CMD_LAST,
the latches, ABUF_PTR, the instance's parameter, and what is not the engine's (the bus word, the pending
events, the counters). -/
def SameHostSide (s t : State) : Prop :=
  t.cfg = s.cfg ∧ t.ctrl = s.ctrl ∧ t.arg = s.arg ∧ t.cmdLast = s.cmdLast ∧ t.argLat = s.argLat
    ∧ t.cmdLat = s.cmdLat ∧ t.abufPtr = s.abufPtr ∧ t.rdata = s.rdata ∧ t.pending = s.pending
    ∧ t.draws = s.draws ∧ t.resets = s.resets

/-- The tables and PHASE are the same in both states. -/
def SameTables (s t : State) : Prop :=
  t.freq = s.freq ∧ t.node = s.node ∧ t.code = s.code ∧ t.phase = s.phase

/-- The stream cursors are the same in both states. -/
def SameCursors (s t : State) : Prop := t.bitLen = s.bitLen ∧ t.bitPos = s.bitPos

/-- The result words are the same in both states. -/
def SameResults (s t : State) : Prop := t.result0 = s.result0 ∧ t.result1 = s.result1

/-- The error state (ERR, OVR, ERRINFO) is the same in both states. -/
def SameErrors (s t : State) : Prop := t.err = s.err ∧ t.ovr = s.ovr ∧ t.errInfo = s.errInfo

/-- The command has completed: BUSY = 0, DONE = 1 (`10_state.md` R24, R25). -/
def Completed (t : State) : Prop := t.busy = false ∧ t.doneFlag = true

/-- The command answers a next state in which it has failed with the given ERRINFO and nothing else changed
(`60_exceptions.md` R252). -/
def FailsWith (o : Out) (s : State) (opc : Byte) (e : ErrorCode) (sub : Byte) : Prop :=
  ∃ t, o = .next t ∧ t.err = true ∧ t.errInfo = { code := e, opc := opc, sub := sub } ∧ t.ovr = s.ovr
    ∧ Completed t ∧ SameTables s t ∧ SameCursors s t ∧ SameResults s t ∧ t.abuf = s.abuf ∧ SameHostSide s t

/-- A command that stores nothing: every byte of ABUF reads as before. -/
def NoStore (s t : State) : Prop := t.abuf = s.abuf ∧ SameAbuf s t

/-- A command that completes, writes its result words at most, and changes nothing else. -/
def OnlyResults (s t : State) : Prop :=
  Completed t ∧ SameTables s t ∧ SameCursors s t ∧ SameErrors s t ∧ NoStore s t ∧ SameHostSide s t

/-! ### Words for claims about the tree -/

/-- The node a string of bits leads to: 0 left, 1 right (`44_bit_unpacker.md` R190). -/
def follow (t : Vector Node 511) (i : NodeIdx) (bits : List Bool) : NodeIdx :=
  bits.foldl (fun j b => (nodeAt t j).child b) i

/-- NODE[i] is an internal node. -/
def IsInternal (t : Vector Node 511) (i : NodeIdx) : Prop := ∃ l r w, nodeAt t i = .internal l r w

/-- NODE[j] is a child of NODE[i]. -/
def IsChild (t : Vector Node 511) (i j : NodeIdx) : Prop :=
  ∃ l r w, nodeAt t i = .internal l r w ∧ (l = j ∨ r = j)

/-- The root of the tree as a node index. -/
def rootIdx (s : State) : NodeIdx := nodeIdx (root s)

/-- k bits of the stream from position p on. -/
def streamBits (s : State) (p k : Nat) : List Bool := (List.range k).map fun j => payloadBit s (p + j)

/-- The nodes of an arena that no node before entry k has merged yet: the priority collection before entry k
is made (`41_tree_builder.md` R132). -/
def Unmerged (arena : List Node) (k i : Nat) : Prop :=
  i < k ∧ ∀ j < k, ∀ l r w, arena[j]? = some (.internal l r w) → l.val ≠ i ∧ r.val ≠ i

/-- The strict order of (WEIGHT, index) keys on the entries of an arena (`41_tree_builder.md` R133). -/
def Before (arena : List Node) (i j : Nat) : Prop :=
  ∃ a b, arena[i]? = some a ∧ arena[j]? = some b
    ∧ (a.weight.toNat < b.weight.toNat ∨ a.weight = b.weight ∧ i < j)

/-! ### Words for claims about the header -/

/-- f_0 + ... + f_i of the header in ABUF (`45_tree_serializer.md` R214). -/
def headerTotal (s : State) (i : Nat) : Nat := ((List.range (i + 1)).map fun j => memRead s (3 + 5 * j) 4).sum

/-- The subcode of the first of checks 5, 6, 7 that entry i fails (`45_tree_serializer.md` R215). -/
def entryFault (s : State) (i : Nat) : Option Byte :=
  if 0 < i ∧ memRead s (2 + 5 * i) 1 ≤ memRead s (2 + 5 * (i - 1)) 1 then some 0x03
  else if memRead s (3 + 5 * i) 4 = 0 then some 0x04
  else if headerTotal s i > 2 ^ 32 - 1 then some 0x05
  else none

/-! ### Sequences of commands -/

/-- FREQ_ADD of each pair in turn, its count in ARG_LAT (`40_frequency_table.md` R112). -/
def addCounts : List (Symbol × Word) → State → Out
  | [], s => .next s
  | (x, c) :: l, s =>
    match exec (.freqAdd x) { s with argLat := c } with
    | .next t => addCounts l t
    | o => o

/-- ENC_SYM of each symbol in turn (`44_bit_unpacker.md` R197). -/
def encodeAll : List Symbol → State → Out
  | [], s => .next s
  | x :: xs, s =>
    match exec (.encSym x) s with
    | .next t => encodeAll xs t
    | o => o

/-- RESULT0 of each of n DEC_SYM in turn, as long as none stops (`44_bit_unpacker.md` R197). -/
def decodeAll : Nat → State → List Word
  | 0, _ => []
  | n + 1, s =>
    match exec .decSym s with
    | .next t => t.result0 :: decodeAll n t
    | _ => []

/-! ### The host's reads -/

/-- A read at a register's offset, whatever address bits 1:0 are, returns v (`20_memory.md` R66). -/
def ReadsAs (s : State) (off : Nat) (v : Word) : Prop :=
  ∀ k < 4, (busRead (BitVec.ofNat 12 (off + k)) s).rdata = v

/-- A step or a command does not stop. -/
def Goes (o : Out) : Prop := ∃ t, o = .next t

end Sys2Proof.Machine
end

