-- ==== Sys2Proof/Certificates/Slice0/Obligations.lean ====
section
/-! DEFINITION. The statements for the provers, in the order of spec/: encodings, the engine's turn, the commands
family by family, the host's bus, the machine as a whole, host programs. -/

open Sys2Proof Sys2Proof.Machine

/-- Words of `30_encoding.md` R102, one for each family, decode to their commands. -/
def Obligations.TableWordsDecode : Prop :=
  decode 0x02000000 = .ok .errAck ∧ decode 0x10000061 = .ok (.freqAdd 0x61)
    ∧ decode 0x210001FE = .ok (.rdNode 510) ∧ decode 0x31000762 = .ok (.rdCode 0x62 7)
    ∧ decode 0x4000007A = .ok (.encSym 0x7A) ∧ decode 0x50000000 = .ok .decSym
    ∧ decode 0x61000000 = .ok .rdHeader

/-- Every command, with every operand at every value, decodes from its word (`30_encoding.md` R91 to R97). -/
def Obligations.EncodeThenDecodeGivesCommand : Prop :=
  ∀ i : Instr, decode (encode i) = .ok i

/-- A word that decodes is its command's word: decoding ignores no bit (`30_encoding.md` R97, R99). -/
def Obligations.DecodeThenEncodeGivesWord : Prop :=
  ∀ (w : Word) (i : Instr), decode w = .ok i → encode i = w

/-- The rows of `30_encoding.md` R96 with their match and mask values: a word is a row's command exactly when it
meets that row, and no two rows share a word. -/
def Obligations.RowMatchesExactlyItsCommand : Prop :=
  let rows : List (Opcode × Word × Word) :=
    [(.nop, 0x00000000, 0xFFFFFFFF), (.clear, 0x01000000, 0xFFFFFFFF), (.errAck, 0x02000000, 0xFFFFFFFF),
     (.freqAdd, 0x10000000, 0xFFFFFF00), (.rdFreq, 0x11000000, 0xFFFFFF00), (.build, 0x20000000, 0xFFFFFFFF),
     (.rdNode, 0x21000000, 0xFFFFFE00), (.genCodes, 0x30000000, 0xFFFFFFFF),
     (.rdCode, 0x31000000, 0xFFFFF800), (.encSym, 0x40000000, 0xFFFFFF00), (.strmRst, 0x41000000, 0xFFFFFFFF),
     (.decSym, 0x50000000, 0xFFFFFFFF), (.rewind, 0x51000000, 0xFFFFFFFF), (.wrHeader, 0x60000000, 0xFFFFFFFF),
     (.rdHeader, 0x61000000, 0xFFFFFFFF)]
  (∀ w : Word, ∀ row ∈ rows, w &&& row.2.2 = row.2.1 ↔ ∃ i, decode w = .ok i ∧ i.opcode = row.1)
    ∧ (∀ w : Word, ∀ r ∈ rows, ∀ q ∈ rows, w &&& r.2.2 = r.2.1 → w &&& q.2.2 = q.2.1 → r = q)

/-- Decode(w) of `30_encoding.md` R97 on every word: the reserved opcode test, then the reserved bits of the
format (R91 to R94, R98, R99). -/
def Obligations.DecodeRejectsReserved : Prop :=
  let formatN : List Nat := [0x00, 0x01, 0x02, 0x20, 0x30, 0x41, 0x50, 0x51, 0x60, 0x61]
  let formatS : List Nat := [0x10, 0x11, 0x40]
  let defined : List Nat := formatN ++ formatS ++ [0x31, 0x21]
  (∀ w : Word, decode w = .error .reservedOpcode ↔ w.toNat / 2 ^ 24 ∉ defined)
    ∧ (∀ w : Word, decode w = .error .reservedBits ↔
        (w.toNat / 2 ^ 24 ∈ formatN ∧ w.toNat % 2 ^ 24 ≠ 0)
          ∨ (w.toNat / 2 ^ 24 ∈ formatS ∧ w.toNat / 2 ^ 8 % 2 ^ 16 ≠ 0)
          ∨ (w.toNat / 2 ^ 24 = 0x31 ∧ w.toNat / 2 ^ 11 % 2 ^ 13 ≠ 0)
          ∨ (w.toNat / 2 ^ 24 = 0x21 ∧ w.toNat / 2 ^ 9 % 2 ^ 15 ≠ 0))

/-- The syntax table of `30_encoding.md` R102 with its range rule, and the expansions of R103 inside any
program. A text is the list of its characters' codes (assumption log 17). -/
def Obligations.AssembledLinesAreTheTables : Prop :=
  let line : AsmLine → Option (List HostAct) := fun l => opActs (.cmd l)
  let issue : Nat → List HostAct := fun w => [.write .cmd (BitVec.ofNat 32 w), .waitIdle]
  line .nop = some (issue 0x00000000) ∧ line .clear = some (issue 0x01000000)
    ∧ line .errAck = some (issue 0x02000000) ∧ line .build = some (issue 0x20000000)
    ∧ line .genCodes = some (issue 0x30000000) ∧ line .strmRst = some (issue 0x41000000)
    ∧ line .decSym = some (issue 0x50000000) ∧ line .rewind = some (issue 0x51000000)
    ∧ line .wrHeader = some (issue 0x60000000)
    ∧ (∀ sym count, line (.freqAdd sym count) =
        if sym ≤ 255 ∧ count < 2 ^ 32 then
          some (.write .arg (BitVec.ofNat 32 count) :: issue (0x10000000 + sym)) else none)
    ∧ (∀ len, line (.rdHeader len) =
        if len < 2 ^ 32 then some (.write .arg (BitVec.ofNat 32 len) :: issue 0x61000000) else none)
    ∧ (∀ sym, line (.rdFreq sym) = if sym ≤ 255 then some (issue (0x11000000 + sym)) else none)
    ∧ (∀ sym, line (.encSym sym) = if sym ≤ 255 then some (issue (0x40000000 + sym)) else none)
    ∧ (∀ idx, line (.rdNode idx) = if idx ≤ 511 then some (issue (0x21000000 + idx)) else none)
    ∧ (∀ sym w, line (.rdCode sym w) =
        if sym ≤ 255 ∧ w ≤ 7 then some (issue (0x31000000 + 256 * w + sym)) else none)
    ∧ (∀ v : Word, actEvent (.write .arg v) = .write 0x010 v ∧ actEvent (.write .cmd v) = .write 0x014 v)
    ∧ actEvent .waitIdle = .read 0x008
    ∧ (∀ pre post : List ProgLine,
        let same : ProgLine → List ProgLine → Prop := fun l ls =>
          assemble (pre ++ l :: post) = assemble (pre ++ ls ++ post)
        (∀ sym, same (.count sym) [.op (.cmd (.freqAdd sym 1))])
          ∧ (∀ text, same (.countStr text) (text.map .count))
          ∧ (∀ text, same (.encStr text) (text.map fun c => .op (.cmd (.encSym c))))
          ∧ (∀ a bytes, same (.abufWrite a bytes) (.op (.wr .abufPtr a) :: bytes.map fun b => .op (.wr .abufData b)))
          ∧ (∀ a n, same (.abufRead a n) (.op (.wr .abufPtr a) :: List.replicate n (.op (.rd .abufData))))
          ∧ (∀ text, same (.compress text)
              [.op (.cmd .clear), .countStr text, .op (.cmd .build), .op (.cmd .genCodes), .encStr text,
                .op (.cmd .wrHeader)])
          ∧ (∀ len, same (.decompress len) [.op (.cmd (.rdHeader len)), .op (.cmd .build), .op .decSymUntilEnd])
          ∧ assemble [.op .decSymUntilEnd] = some [.decSym] ∧ assemble [.op .wait] = some [.waitIdle]
          ∧ (∀ r, assemble [.op (.rd r)] = some [.read r])
          ∧ (∀ r v, v < 2 ^ 32 → assemble [.op (.wr r v)] = some [.write r (BitVec.ofNat 32 v)]))

/-- The engine's turn is exec of the decoded command, whether the completion is pending as an event or nothing
is pending (`70_reset_and_hazards.md` R297, R300; the pending list is the model's, assumption log 4). -/
def Obligations.StepRunsDecodedCommand : Prop :=
  ∀ (s : State) (i : Instr), s.busy = true → decode s.cmdLat = .ok i →
    (s.err = false ∨ i = .clear ∨ i = .errAck) →
    (s.pending = [] → step s = exec i s)
      ∧ (∀ rest, s.pending = .complete :: rest → step s = exec i { s with pending := rest })

/-- withFetchWord places a word where the next step runs it (the model's choice, assumption log 7). -/
def Obligations.PlacedWordRunsNext : Prop :=
  ∀ (s : State) (i : Instr), s.pending = [] →
    step (s.withFetchWord 32 (encode i).toNat) = exec i (s.withFetchWord 32 (encode i).toNat)

/-- Errors are sticky (`60_exceptions.md` R254): every other word completes with no change but BUSY and DONE. -/
def Obligations.ErrorDiscardsAllButClearAndAck : Prop :=
  ∀ s : State, s.busy = true → s.err = true → s.pending = [] →
    (s.cmdLat ≠ 0x01000000 → s.cmdLat ≠ 0x02000000 → step s = .next { s with busy := false, doneFlag := true })
      ∧ (s.cmdLat = 0x01000000 → step s = exec .clear s)
      ∧ (s.cmdLat = 0x02000000 → step s = exec .errAck s)

/-- ILLEGAL_COMMAND 0x01 and 0x02 (`30_encoding.md` R98, R99; `60_exceptions.md` R250, R252). -/
def Obligations.IllegalWordsFail : Prop :=
  let formatN : List Nat := [0x00, 0x01, 0x02, 0x20, 0x30, 0x41, 0x50, 0x51, 0x60, 0x61]
  let formatS : List Nat := [0x10, 0x11, 0x40]
  let defined : List Nat := formatN ++ formatS ++ [0x31, 0x21]
  ∀ (s : State) (w : Nat), s.cmdLat.toNat = w → s.busy = true → s.err = false → s.pending = [] →
    (w / 2 ^ 24 ∉ defined → FailsWith (step s) s (s.cmdLat.extractLsb' 24 8) .illegalCommand 0x01)
      ∧ ((w / 2 ^ 24 ∈ formatN ∧ w % 2 ^ 24 ≠ 0) ∨ (w / 2 ^ 24 ∈ formatS ∧ w / 2 ^ 8 % 2 ^ 16 ≠ 0)
          ∨ (w / 2 ^ 24 = 0x31 ∧ w / 2 ^ 11 % 2 ^ 13 ≠ 0) ∨ (w / 2 ^ 24 = 0x21 ∧ w / 2 ^ 9 % 2 ^ 15 ≠ 0) →
        FailsWith (step s) s (s.cmdLat.extractLsb' 24 8) .illegalCommand 0x02)
      ∧ ((List.range 256).filter fun c => c ∉ defined).length = 241

/-- Errors are precise (`60_exceptions.md` R252, R253): a failing command leaves everything but the error fields
and BUSY and DONE. -/
def Obligations.FailingCommandChangesOnlyErrorState : Prop :=
  ∀ (i : Instr) (s t : State), s.err = false → exec i s = .next t → t.err = true →
    t = { s with err := true, errInfo := t.errInfo, busy := false, doneFlag := true }
      ∧ t.errInfo.opc = i.opcode.code ∧ t.errInfo.code ≠ .none

/-- The phase table of `60_exceptions.md` R251. -/
def Obligations.SequenceErrorExactlyInIllegalPhase : Prop :=
  let legal : Instr → Phase → Prop := fun i ph =>
    match i with
    | .freqAdd _ | .build => ph = .load
    | .rdNode _ | .genCodes | .decSym | .wrHeader => ph = .built ∨ ph = .coded
    | .rdCode _ _ | .encSym _ => ph = .coded
    | .nop | .clear | .errAck | .rdFreq _ | .strmRst | .rewind | .rdHeader => True
  let sub : Phase → Byte := fun ph => match ph with | .load => 0 | .built => 1 | .coded => 2
  ∀ (i : Instr) (s : State),
    (¬ legal i s.phase → FailsWith (exec i s) s i.opcode.code .sequence (sub s.phase))
      ∧ (legal i s.phase → ∀ t, exec i s = .next t → s.errInfo.code ≠ .sequence → t.errInfo.code ≠ .sequence)

/-- Every command completes (`70_reset_and_hazards.md` R300, R307; `00_scope.md` R7) and leaves the host's side
alone. INV4 and INV5 are the hypotheses that DEC_SYM needs. -/
def Obligations.EveryCommandCompletes : Prop :=
  ∀ (i : Instr) (s : State), s.bitPos.toNat ≤ s.bitLen.toNat → alen s ≤ s.cfg.abufBytes →
    ∃ t, exec i s = .next t ∧ Completed t ∧ SameHostSide s t

/-- The writers of each piece of state (`10_state.md` R26, R27, R33, R35, R38, R41, R42; `20_memory.md` R60). -/
def Obligations.EachTableHasItsWriters : Prop :=
  ∀ (i : Instr) (s t : State), exec i s = .next t →
    (t.freq ≠ s.freq → (∃ x, i = .freqAdd x) ∨ i = .rdHeader ∨ i = .clear)
      ∧ (t.node ≠ s.node → i = .build)
      ∧ (t.code ≠ s.code → i = .genCodes)
      ∧ (t.abuf ≠ s.abuf → (∃ x, i = .encSym x) ∨ i = .wrHeader)
      ∧ (t.bitLen ≠ s.bitLen →
          (∃ x, i = .encSym x) ∨ i = .rdHeader ∨ (∃ x, i = .freqAdd x) ∨ i = .strmRst ∨ i = .clear)
      ∧ (t.bitPos ≠ s.bitPos →
          i = .decSym ∨ i = .rewind ∨ i = .rdHeader ∨ (∃ x, i = .freqAdd x) ∨ i = .strmRst ∨ i = .clear)
      ∧ (t.ovr ≠ s.ovr → i = .errAck ∨ i = .clear)
      ∧ (t.phase ≠ s.phase → i = .build ∨ i = .genCodes ∨ i = .rdHeader ∨ i = .clear)

/-- The phase transitions of `10_state.md` R27, for commands and for every event. -/
def Obligations.PhaseTransitionsAreTheListed : Prop :=
  (∀ (i : Instr) (s t : State), exec i s = .next t → t.phase ≠ s.phase →
      (i = .build ∧ s.phase = .load ∧ t.phase = .built)
        ∨ (i = .genCodes ∧ s.phase = .built ∧ t.phase = .coded)
        ∨ ((i = .clear ∨ i = .rdHeader) ∧ t.phase = .load))
    ∧ (∀ (i : Instr) (s t : State), exec i s = .next t → t.err = false →
        (i = .build → t.phase = .built) ∧ (i = .genCodes → t.phase = .coded)
          ∧ (i = .clear ∨ i = .rdHeader → t.phase = .load))
    ∧ (∀ (e : Event) (s t : State), applyEvent e s = .next t → t.phase ≠ s.phase →
        (e = .reset ∧ t.phase = .load)
          ∨ (e = .complete ∧ s.busy = true ∧ ∃ i, decode s.cmdLat = .ok i ∧ exec i s = .next t))
    ∧ (∀ s t : State, applyEvent .reset s = .next t → t.phase = .load)

/-- Every command but FREQ_ADD and RD_HEADER ignores ARG_LAT (`30_encoding.md` R101). -/
def Obligations.ArgLatReadByTwoCommandsOnly : Prop :=
  ∀ (i : Instr) (s t : State) (v : Word), (∀ x, i ≠ .freqAdd x) → i ≠ .rdHeader → exec i s = .next t →
    exec i { s with argLat := v } = .next { t with argLat := v }

/-- The running command uses ARG_LAT and no CTRL bit (`70_reset_and_hazards.md` R297, R304). -/
def Obligations.HostWindowWritesDoNotReachCommand : Prop :=
  ∀ (s t : State) (c : BitVec 2) (v : Word), s.busy = true → engineTurn s = .next t →
    engineTurn { s with ctrl := c, arg := v } = .next { t with ctrl := c, arg := v }

/-- NOP (`46_control.md` R230): no state change but completion. -/
def Obligations.NopOnlyCompletes : Prop :=
  decode 0x00000000 = .ok .nop
    ∧ (∀ w : Word, w.toNat / 2 ^ 24 = 0 → w ≠ 0 → decode w = .error .reservedBits)
    ∧ ∀ s : State, exec .nop s = .next { s with busy := false, doneFlag := true }
      ∧ (s.busy = true → s.cmdLat = 0 → s.pending = [] →
          step s = .next { s with busy := false, doneFlag := true })

/-- CLEAR (`46_control.md` R231), with the register values that follow. -/
def Obligations.ClearStartsFreshRun : Prop :=
  decode 0x01000000 = .ok .clear ∧ ∀ s : State, ∃ t, exec .clear s = .next t ∧ (∀ x, freqAt t.freq x = 0) ∧ t.phase = .load
    ∧ t.bitLen = 0 ∧ t.bitPos = 0 ∧ t.err = false ∧ t.ovr = false
    ∧ t.errInfo = { code := .none, opc := 0, sub := 0 } ∧ t.result0 = 0 ∧ t.result1 = 0
    ∧ Completed t ∧ t.node = s.node ∧ t.code = s.code ∧ NoStore s t ∧ SameHostSide s t
    ∧ ReadsAs t 0x000 0x48554601 ∧ ReadsAs t 0x008 0x00000002 ∧ ReadsAs t 0x00C 0 ∧ ReadsAs t 0x018 0
    ∧ ReadsAs t 0x01C 0 ∧ ReadsAs t 0x020 0 ∧ ReadsAs t 0x024 0 ∧ ReadsAs t 0x028 0 ∧ ReadsAs t 0x02C 0
    ∧ ReadsAs t 0x030 0 ∧ ReadsAs t 0x034 0 ∧ ReadsAs t 0x038 6 ∧ ReadsAs t 0x03C 6
    ∧ ReadsAs t 0x048 (BitVec.ofNat 32 s.cfg.abufBytes)

/-- ERR_ACK, the return from an error (`46_control.md` R232, `60_exceptions.md` R257). -/
def Obligations.ErrAckClearsErrorsOnly : Prop :=
  decode 0x02000000 = .ok .errAck ∧ ∀ s : State, exec .errAck s = .next { s with
    err := false, ovr := false, errInfo := { code := .none, opc := 0, sub := 0 }, busy := false, doneFlag := true }

/-- FREQ_ADD (`40_frequency_table.md` R110), its checks in order and its effect. -/
def Obligations.FreqAddFollowsItsRule : Prop :=
  ∀ (s : State) (x : Symbol),
    decode (0x10000000 ||| x.setWidth 32) = .ok (.freqAdd x)
      ∧ (s.phase ≠ .load → FailsWith (exec (.freqAdd x) s) s 0x10 .sequence (s.phase.code.setWidth 8))
      ∧ (s.phase = .load → s.argLat = 0 → FailsWith (exec (.freqAdd x) s) s 0x10 .operand 0x01)
      ∧ (s.phase = .load → s.argLat ≠ 0 → total s + s.argLat.toNat > 2 ^ 32 - 1 →
          FailsWith (exec (.freqAdd x) s) s 0x10 .overflow 0x01)
      ∧ (s.phase = .load → s.argLat ≠ 0 → total s + s.argLat.toNat ≤ 2 ^ 32 - 1 →
          ∃ t, exec (.freqAdd x) s = .next t
            ∧ (freqAt t.freq x).toNat = (freqAt s.freq x).toNat + s.argLat.toNat
            ∧ (∀ y, y ≠ x → freqAt t.freq y = freqAt s.freq y)
            ∧ t.bitLen = 0 ∧ t.bitPos = 0 ∧ t.result0 = freqAt t.freq x
            ∧ t.result1.toNat = total s + s.argLat.toNat ∧ total t = total s + s.argLat.toNat
            ∧ nsym t = nsym s + (if freqAt s.freq x = 0 then 1 else 0)
            ∧ pbase t = pbase s + (if freqAt s.freq x = 0 then 5 else 0)
            ∧ Completed t ∧ t.phase = s.phase ∧ t.node = s.node ∧ t.code = s.code ∧ SameErrors s t
            ∧ NoStore s t ∧ SameHostSide s t)

/-- The table after FREQ_ADD commands is the per-symbol sum of their counts (`40_frequency_table.md` R112). -/
def Obligations.FreqAddOrderIrrelevant : Prop :=
  ∀ (l : List (Symbol × Word)) (s : State), s.phase = .load → (∀ x, freqAt s.freq x = 0) →
    (∀ p ∈ l, p.2 ≠ 0) → (l.map fun p => p.2.toNat).sum ≤ 2 ^ 32 - 1 →
    ∃ t, addCounts l s = .next t
      ∧ (∀ x, (freqAt t.freq x).toNat = ((l.filter fun p => p.1 = x).map fun p => p.2.toNat).sum)
      ∧ ∀ m, m.Perm l → ∃ u, addCounts m s = .next u ∧ u.freq = t.freq

/-- RD_FREQ (`40_frequency_table.md` R113), NSYM counted over the entries of FREQ. -/
def Obligations.RdFreqReadsCount : Prop :=
  ∀ (s : State) (x : Symbol), decode (0x11000000 ||| x.setWidth 32) = .ok (.rdFreq x)
    ∧ ∃ t, exec (.rdFreq x) s = .next t ∧ t.result0 = s.freq[x.toNat]'x.isLt
    ∧ t.result1.toNat = ((List.finRange 256).filter fun i => s.freq[i] ≠ 0).length ∧ OnlyResults s t

/-- BUILD (`41_tree_builder.md` R130, R131) with the arena of R132, and ROOT and NNODES (`10_state.md` R36). -/
def Obligations.BuildFollowsItsRule : Prop :=
  ∀ s : State,
    decode 0x20000000 = .ok .build
      ∧ (s.phase ≠ .load → FailsWith (exec .build s) s 0x20 .sequence (s.phase.code.setWidth 8))
      ∧ (s.phase = .load → nsym s = 0 → FailsWith (exec .build s) s 0x20 .emptyInput 0x00)
      ∧ (s.phase = .load → nsym s ≠ 0 → ∃ t, exec .build s = .next t
          ∧ (buildArena s.freq).length = 2 * nsym s - 1
          ∧ (∀ i : NodeIdx, i.val < 2 * nsym s - 1 → (buildArena s.freq)[i.val]? = some (nodeAt t.node i))
          ∧ (∀ i : NodeIdx, 2 * nsym s - 1 ≤ i.val → nodeAt t.node i = nodeAt s.node i)
          ∧ t.phase = .built ∧ t.result0.toNat = 2 * nsym s - 2 ∧ t.result1.toNat = 2 * nsym s - 1
          ∧ root t = 2 * nsym s - 2 ∧ nnodes t = 2 * nsym s - 1
          ∧ Completed t ∧ t.freq = s.freq ∧ t.code = s.code ∧ SameCursors s t ∧ SameErrors s t ∧ NoStore s t
          ∧ SameHostSide s t)

/-- BuildTree (`41_tree_builder.md` R132, R133), said of the arena alone: each merge takes the two least nodes
not yet merged, ties going to the smaller index. -/
def Obligations.LeavesThenMergesOfTheTwoLeast : Prop :=
  ∀ (f : Vector Word 256) (n : Nat), (presentEntries f).length = n → 1 ≤ n →
    (f.toList.map BitVec.toNat).sum ≤ 2 ^ 32 - 1 →
    (buildArena f).length = 2 * n - 1
      ∧ (∀ i < n, ∃ x, (buildArena f)[i]? = some (.leaf x (freqAt f x)) ∧ freqAt f x ≠ 0)
      ∧ (∀ (i j : Nat) (x y : Symbol) (v w : Word), i < j → (buildArena f)[i]? = some (.leaf x v) → (buildArena f)[j]? = some (.leaf y w) →
          x.toNat < y.toNat)
      ∧ (∀ x, freqAt f x ≠ 0 → ∃ i < n, (buildArena f)[i]? = some (.leaf x (freqAt f x)))
      ∧ (∀ k, n ≤ k → k < 2 * n - 1 → ∃ (l r : NodeIdx) (w : Word) (a b : Node),
          (buildArena f)[k]? = some (.internal l r w)
          ∧ Unmerged (buildArena f) k l.val ∧ Unmerged (buildArena f) k r.val ∧ Before (buildArena f) l.val r.val
          ∧ (∀ i, Unmerged (buildArena f) k i → i ≠ l.val → i ≠ r.val → Before (buildArena f) r.val i)
          ∧ (buildArena f)[l.val]? = some a ∧ (buildArena f)[r.val]? = some b
          ∧ w.toNat = a.weight.toNat + b.weight.toNat)
      ∧ (∀ i, Unmerged (buildArena f) (2 * n - 1) i ↔ i = 2 * n - 2)

/-- The tree invariant of `10_state.md` R37. -/
def Obligations.NodesFormATree : Prop :=
  ∀ s : State, Sound s → s.phase ≠ .load →
    (∀ j : NodeIdx, j.val < nnodes s → j ≠ rootIdx s →
        ∃ i : NodeIdx, (i.val < nnodes s ∧ IsChild s.node i j)
          ∧ ∀ k : NodeIdx, k.val < nnodes s → IsChild s.node k j → k = i)
      ∧ (∀ i : NodeIdx, i.val < nnodes s → ¬ IsChild s.node i (rootIdx s))
      ∧ (∀ (i l r : NodeIdx) (w : Word), i.val < nnodes s → nodeAt s.node i = .internal l r w →
          l ≠ r ∧ l.val < i.val ∧ r.val < i.val
            ∧ w.toNat = (nodeAt s.node l).weight.toNat + (nodeAt s.node r).weight.toNat)
      ∧ (∀ (i : NodeIdx) (x : Symbol) (w : Word), i.val < nnodes s → nodeAt s.node i = .leaf x w →
          w = freqAt s.freq x ∧ w ≠ 0)
      ∧ (∀ x : Symbol, freqAt s.freq x ≠ 0 →
          ∃ i : NodeIdx, (i.val < nnodes s ∧ ∃ w, nodeAt s.node i = .leaf x w)
            ∧ ∀ k : NodeIdx, k.val < nnodes s → (∃ w, nodeAt s.node k = .leaf x w) → k = i)

/-- The single-symbol tree (`41_tree_builder.md` R134). -/
def Obligations.SingleSymbolTreeIsOneLeaf : Prop :=
  ∀ (s : State) (x : Symbol), s.phase = .load → freqAt s.freq x ≠ 0 → (∀ y, y ≠ x → freqAt s.freq y = 0) →
    ∃ t, exec .build s = .next t ∧ nodeAt t.node 0 = .leaf x (freqAt s.freq x) ∧ nnodes t = 1 ∧ root t = 0
      ∧ t.result0 = 0 ∧ t.result1 = 1

/-- RD_NODE (`41_tree_builder.md` R135). -/
def Obligations.RdNodeFollowsItsRule : Prop :=
  ∀ (s : State) (idx : BitVec 9),
    decode (0x21000000 ||| idx.setWidth 32) = .ok (.rdNode idx)
      ∧ (s.phase = .load → FailsWith (exec (.rdNode idx) s) s 0x21 .sequence 0x00)
      ∧ (s.phase ≠ .load → nnodes s ≤ idx.toNat → FailsWith (exec (.rdNode idx) s) s 0x21 .operand 0x02)
      ∧ (∀ i : NodeIdx, s.phase ≠ .load → idx.toNat < nnodes s → i.val = idx.toNat →
          ∃ t, exec (.rdNode idx) s = .next t ∧ OnlyResults s t
            ∧ (∀ x w, nodeAt s.node i = .leaf x w → t.result0.toNat = x.toNat ∧ t.result1 = w)
            ∧ (∀ l r w, nodeAt s.node i = .internal l r w →
                t.result0.toNat = 2 ^ 31 + r.val * 2 ^ 16 + l.val ∧ t.result1 = w))

/-- GEN_CODES (`42_code_table.md` R150) with the table of R151. -/
def Obligations.GenCodesFollowsItsRule : Prop :=
  ∀ s : State,
    decode 0x30000000 = .ok .genCodes
      ∧ (s.phase = .load → FailsWith (exec .genCodes s) s 0x30 .sequence 0x00)
      ∧ (s.phase ≠ .load → total s ≤ 2 ^ 32 - 1 → ∃ t, exec .genCodes s = .next t
          ∧ t.phase = .coded ∧ t.code = assignCodes s.node (rootIdx s)
          ∧ t.result1.toNat * 2 ^ 32 + t.result0.toNat =
              ((List.finRange 256).map fun i => (s.freq[i]).toNat * (t.code[i]).len.toNat).sum
          ∧ t.result1.toNat < 2 ^ 8
          ∧ Completed t ∧ t.freq = s.freq ∧ t.node = s.node ∧ SameCursors s t ∧ SameErrors s t ∧ NoStore s t
          ∧ SameHostSide s t)

/-- AssignCodes (`42_code_table.md` R151, R152): codes are root-to-leaf paths, 0 left and 1 right. -/
def Obligations.CodesArePathsFromTheRoot : Prop :=
  ∀ s : State, Sound s → s.phase ≠ .load → ∃ t, exec .genCodes s = .next t
    ∧ (∀ x, freqAt s.freq x = 0 → codeAt t.code x = { len := 0, val := 0 })
    ∧ (∀ x w, nodeAt s.node (rootIdx s) = .leaf x w → codeAt t.code x = { len := 1, val := 0 })
    ∧ (IsInternal s.node (rootIdx s) → ∀ x, freqAt s.freq x ≠ 0 →
        nodeAt s.node (follow s.node (rootIdx s) (codeBits (codeAt t.code x))) = .leaf x (freqAt s.freq x)
          ∧ 1 ≤ (codeAt t.code x).len.toNat
          ∧ (codeAt t.code x).val.toNat < 2 ^ (codeAt t.code x).len.toNat
          ∧ ∀ k < (codeAt t.code x).len.toNat,
              IsInternal s.node (follow s.node (rootIdx s) ((codeBits (codeAt t.code x)).take k)))

/-- The prefix-free property (`42_code_table.md` R153). -/
def Obligations.CodesArePrefixFree : Prop :=
  ∀ s : State, Sound s → s.phase = .coded → ∀ x y : Symbol, freqAt s.freq x ≠ 0 → freqAt s.freq y ≠ 0 → x ≠ y →
    ¬ codeBits (codeAt s.code x) <+: codeBits (codeAt s.code y) ∧ codeAt s.code x ≠ codeAt s.code y

/-- Code lengths and their Kraft sum (`42_code_table.md` R154). -/
def Obligations.CodeLengthsAreFull : Prop :=
  ∀ s : State, Sound s → s.phase = .coded →
    (nsym s = 1 → ∀ x, freqAt s.freq x ≠ 0 → (codeAt s.code x).len = 1)
      ∧ (2 ≤ nsym s → ∀ x, freqAt s.freq x ≠ 0 →
          1 ≤ (codeAt s.code x).len.toNat ∧ (codeAt s.code x).len.toNat ≤ nsym s - 1)
      ∧ (2 ≤ nsym s →
          ((presentEntries s.freq).map fun p => 2 ^ (255 - (codeAt s.code p.1).len.toNat)).sum = 2 ^ 255)

/-- RD_CODE (`42_code_table.md` R155). -/
def Obligations.RdCodeFollowsItsRule : Prop :=
  ∀ (s : State) (x : Symbol) (w : BitVec 3),
    decode (0x31000000 ||| w.setWidth 32 <<< 8 ||| x.setWidth 32) = .ok (.rdCode x w)
      ∧ (s.phase ≠ .coded → FailsWith (exec (.rdCode x w) s) s 0x31 .sequence (s.phase.code.setWidth 8))
      ∧ (s.phase = .coded → ∃ t, exec (.rdCode x w) s = .next t ∧ OnlyResults s t
          ∧ t.result0.toNat = (codeAt s.code x).len.toNat
          ∧ ∀ j < 32, t.result1.getLsbD j = (codeAt s.code x).val.getLsbD (32 * w.toNat + j))

/-- ENC_SYM with PutBit and the capacity check (`43_bit_packer.md` R170, R171, R172). The bytes stored to are
those PutBit computes, PBASE + p div 8 for each new bit p. -/
def Obligations.EncSymFollowsItsRule : Prop :=
  ∀ (s : State) (x : Symbol) (e : CodeEntry), codeAt s.code x = e →
    decode (0x40000000 ||| x.setWidth 32) = .ok (.encSym x)
      ∧ (s.phase ≠ .coded → FailsWith (exec (.encSym x) s) s 0x40 .sequence (s.phase.code.setWidth 8))
      ∧ (s.phase = .coded → e.len = 0 → FailsWith (exec (.encSym x) s) s 0x40 .unknownSymbol x)
      ∧ (s.phase = .coded → e.len ≠ 0 → pbase s + ceil8 (s.bitLen.toNat + e.len.toNat) > s.cfg.abufBytes →
          FailsWith (exec (.encSym x) s) s 0x40 .capacity 0x01)
      ∧ (s.phase = .coded → e.len ≠ 0 → pbase s + ceil8 (s.bitLen.toNat + e.len.toNat) ≤ s.cfg.abufBytes →
          ∃ t, exec (.encSym x) s = .next t
            ∧ (∀ p < s.bitLen.toNat, payloadBit t p = payloadBit s p)
            ∧ (∀ i < e.len.toNat,
                payloadBit t (s.bitLen.toNat + i) = e.val.getLsbD (e.len.toNat - 1 - i))
            ∧ (∀ p, s.bitLen.toNat + e.len.toNat ≤ p → p / 8 = (s.bitLen.toNat + e.len.toNat - 1) / 8 →
                payloadBit t p = false)
            ∧ (∀ a, (∀ p, s.bitLen.toNat ≤ p → p < s.bitLen.toNat + e.len.toNat → a ≠ pbase s + p / 8) →
                abufByte t a = abufByte s a)
            ∧ t.bitLen.toNat = s.bitLen.toNat + e.len.toNat ∧ t.bitPos = s.bitPos
            ∧ t.result0.toNat = e.len.toNat ∧ t.result1 = t.bitLen
            ∧ Completed t ∧ SameTables s t ∧ SameErrors s t ∧ SameHostSide s t)

/-- STRM_RST (`43_bit_packer.md` R174) and REWIND (`44_bit_unpacker.md` R196). -/
def Obligations.StreamResetsMoveCursorsOnly : Prop :=
  ∀ s : State,
    decode 0x41000000 = .ok .strmRst ∧ decode 0x51000000 = .ok .rewind
      ∧ exec .strmRst s = .next { s with bitLen := 0, bitPos := 0, busy := false, doneFlag := true }
      ∧ exec .rewind s = .next { s with bitPos := 0, busy := false, doneFlag := true }

/-- DEC_SYM (`44_bit_unpacker.md` R190 to R193), with INV4 and INV5 as hypotheses. -/
def Obligations.DecSymFollowsItsRule : Prop :=
  ∀ s : State, s.bitPos.toNat ≤ s.bitLen.toNat → alen s ≤ s.cfg.abufBytes →
    decode 0x50000000 = .ok .decSym
      ∧ (s.phase = .load → FailsWith (exec .decSym s) s 0x50 .sequence 0x00)
      ∧ (s.phase ≠ .load → s.bitPos = s.bitLen →
          ∃ t, exec .decSym s = .next t ∧ t.result0 = 0x100 ∧ t.result1 = 0 ∧ OnlyResults s t)
      ∧ (∀ x w, s.phase ≠ .load → s.bitPos ≠ s.bitLen → nodeAt s.node (rootIdx s) = .leaf x w →
          (payloadBit s s.bitPos.toNat = true → FailsWith (exec .decSym s) s 0x50 .corruptStream 0x11)
            ∧ (payloadBit s s.bitPos.toNat = false →
                ∃ t, exec .decSym s = .next t ∧ t.result0.toNat = x.toNat ∧ t.result1 = 1
                  ∧ t.bitPos.toNat = s.bitPos.toNat + 1 ∧ OnlyResults s { t with bitPos := s.bitPos }))
      ∧ (s.phase ≠ .load → s.bitPos ≠ s.bitLen → IsInternal s.node (rootIdx s) →
          (∀ k x w, s.bitPos.toNat + k ≤ s.bitLen.toNat →
              nodeAt s.node (follow s.node (rootIdx s) (streamBits s s.bitPos.toNat k)) = .leaf x w →
              (∀ j < k, IsInternal s.node (follow s.node (rootIdx s) (streamBits s s.bitPos.toNat j))) →
              ∃ t, exec .decSym s = .next t ∧ t.result0.toNat = x.toNat ∧ t.result1.toNat = k
                ∧ t.bitPos.toNat = s.bitPos.toNat + k ∧ OnlyResults s { t with bitPos := s.bitPos })
            ∧ ((∀ k, s.bitPos.toNat + k ≤ s.bitLen.toNat →
                  IsInternal s.node (follow s.node (rootIdx s) (streamBits s s.bitPos.toNat k))) →
                FailsWith (exec .decSym s) s 0x50 .corruptStream 0x10))

/-- Padding is ignored (`44_bit_unpacker.md` R194): only payload bits below BITLEN reach DEC_SYM. -/
def Obligations.PaddingBitsAreNeverRead : Prop :=
  ∀ (s t : State) (m : Memory), s.bitPos.toNat ≤ s.bitLen.toNat →
    (∀ p < s.bitLen.toNat, payloadBit { s with abuf := m } p = payloadBit s p) → exec .decSym s = .next t →
    exec .decSym { s with abuf := m } = .next { t with abuf := m }

/-- The packer and the unpacker agree, one symbol (`44_bit_unpacker.md` R197). -/
def Obligations.EncodedSymbolDecodesBack : Prop :=
  ∀ (s t : State) (x : Symbol), Sound s → s.phase = .coded → s.err = false → exec (.encSym x) s = .next t →
    t.err = false →
    ∃ u, exec .decSym { t with bitPos := s.bitLen } = .next u ∧ u.err = false ∧ u.result0.toNat = x.toNat
      ∧ u.bitPos = t.bitLen

/-- The round trip of `44_bit_unpacker.md` R197 from a coded state: packing, REWIND, unpacking until the end. -/
def Obligations.StreamRoundTrip : Prop :=
  ∀ (s : State) (xs : List Symbol), Sound s → s.phase = .coded → s.bitLen = 0 →
    (∀ x ∈ xs, freqAt s.freq x ≠ 0) →
    pbase s + ceil8 (xs.map fun x => (codeAt s.code x).len.toNat).sum ≤ s.cfg.abufBytes →
    ∃ t u, encodeAll xs s = .next t ∧ t.err = s.err
      ∧ t.bitLen.toNat = (xs.map fun x => (codeAt s.code x).len.toNat).sum ∧ exec .rewind t = .next u
      ∧ decodeAll (xs.length + 1) u = xs.map (fun x => x.setWidth 32) ++ [0x100]

/-- WR_HEADER (`45_tree_serializer.md` R210, R211, R213). The bytes stored to are ABUF[0..PBASE−1]. -/
def Obligations.WrHeaderFollowsItsRule : Prop :=
  ∀ s : State,
    decode 0x60000000 = .ok .wrHeader
      ∧ (s.phase = .load → FailsWith (exec .wrHeader s) s 0x60 .sequence 0x00)
      ∧ (s.phase ≠ .load → ∃ (t : State) (es : List (Symbol × Word)), exec .wrHeader s = .next t
          ∧ es.length = nsym s ∧ es.Pairwise (fun p q => p.1.toNat < q.1.toNat)
          ∧ (∀ x w, (x, w) ∈ es ↔ w ≠ 0 ∧ freqAt s.freq x = w)
          ∧ memRead t 0 2 = nsym s
          ∧ (∀ i x w, es[i]? = some (x, w) →
              memRead t (2 + 5 * i) 1 = x.toNat ∧ memRead t (3 + 5 * i) 4 = w.toNat)
          ∧ memRead t (2 + 5 * nsym s) 4 = s.bitLen.toNat
          ∧ (∀ a, pbase s ≤ a → abufByte t a = abufByte s a)
          ∧ t.result0.toNat = 6 + 5 * nsym s ∧ t.result1.toNat = alen s
          ∧ Completed t ∧ SameTables s t ∧ SameCursors s t ∧ SameErrors s t ∧ SameHostSide s t)

/-- The checks of RD_HEADER (`45_tree_serializer.md` R215), each as a failure with its code and subcode. -/
def Obligations.RdHeaderChecksInOrder : Prop :=
  ∀ (s : State) (len n : Nat), s.argLat.toNat = len → memRead s 0 2 = n →
    (len > s.cfg.abufBytes → FailsWith (exec .rdHeader s) s 0x61 .operand 0x03)
      ∧ (len ≤ s.cfg.abufBytes → len < 2 → FailsWith (exec .rdHeader s) s 0x61 .corruptStream 0x01)
      ∧ (len ≤ s.cfg.abufBytes → 2 ≤ len → n = 0 ∨ n > 256 →
          FailsWith (exec .rdHeader s) s 0x61 .corruptStream 0x02)
      ∧ (len ≤ s.cfg.abufBytes → 2 ≤ len → 1 ≤ n → n ≤ 256 → len < 6 + 5 * n →
          FailsWith (exec .rdHeader s) s 0x61 .corruptStream 0x01)
      ∧ (∀ i sub, len ≤ s.cfg.abufBytes → 1 ≤ n → n ≤ 256 → 6 + 5 * n ≤ len → i < n →
          (∀ j < i, entryFault s j = none) → entryFault s i = some sub →
          FailsWith (exec .rdHeader s) s 0x61 .corruptStream sub)
      ∧ (len ≤ s.cfg.abufBytes → 1 ≤ n → n ≤ 256 → 6 + 5 * n ≤ len → (∀ j < n, entryFault s j = none) →
          len ≠ 6 + 5 * n + ceil8 (memRead s (2 + 5 * n) 4) →
          FailsWith (exec .rdHeader s) s 0x61 .corruptStream 0x06)

/-- The commit of RD_HEADER (`45_tree_serializer.md` R214). -/
def Obligations.RdHeaderLoadsTableAndStream : Prop :=
  ∀ (s : State) (len n : Nat), s.argLat.toNat = len → memRead s 0 2 = n → len ≤ s.cfg.abufBytes → 1 ≤ n →
    n ≤ 256 → (∀ j < n, entryFault s j = none) → len = 6 + 5 * n + ceil8 (memRead s (2 + 5 * n) 4) →
    ∃ t, exec .rdHeader s = .next t
      ∧ (∀ i < n, ∀ x : Symbol, x.toNat = memRead s (2 + 5 * i) 1 →
          (freqAt t.freq x).toNat = memRead s (3 + 5 * i) 4)
      ∧ (∀ x : Symbol, (∀ i < n, x.toNat ≠ memRead s (2 + 5 * i) 1) → freqAt t.freq x = 0)
      ∧ t.phase = .load ∧ t.bitLen.toNat = memRead s (2 + 5 * n) 4 ∧ t.bitPos = 0
      ∧ t.result0.toNat = n ∧ t.result1 = t.bitLen
      ∧ Completed t ∧ t.node = s.node ∧ t.code = s.code ∧ SameErrors s t ∧ NoStore s t ∧ SameHostSide s t

/-- Rebuild (`45_tree_serializer.md` R212). -/
def Obligations.HeaderRoundTripRebuilds : Prop :=
  ∀ s : State, Sound s → s.phase ≠ .load → s.err = false →
    ∃ t u v w, exec .wrHeader s = .next t ∧ exec .rdHeader { t with argLat := t.result1 } = .next u
      ∧ u.freq = s.freq ∧ u.bitLen = s.bitLen ∧ u.bitPos = 0 ∧ u.phase = .load
      ∧ exec .build u = .next v ∧ (∀ i : NodeIdx, i.val < nnodes s → nodeAt v.node i = nodeAt s.node i)
      ∧ nnodes v = nnodes s ∧ exec .genCodes v = .next w
      ∧ (∀ s', exec .genCodes s = .next s' → w.code = s'.code) ∧ w.err = false

/-- Truncation (`45_tree_serializer.md` R217). -/
def Obligations.TruncatedArtifactIsRefused : Prop :=
  ∀ s t : State, s.err = false → exec .rdHeader s = .next t → t.err = false → 1 ≤ ceil8 t.bitLen.toNat →
    FailsWith (exec .rdHeader { s with argLat := s.argLat - 1 }) { s with argLat := s.argLat - 1 } 0x61
      .corruptStream 0x06

/-- MemRead and MemWrite (`20_memory.md` R62, R63). -/
def Obligations.HeaderBytesAreBigEndian : Prop :=
  ∀ (s t : State) (a n v : Nat), n ∈ [1, 2, 4] → v < 256 ^ n → t = { s with abuf := memWrite s.abuf a n v } →
    (∀ i < n, (abufByte t (a + i)).toNat = v / 2 ^ (8 * (n - 1 - i)) % 256)
      ∧ (∀ b, b < a ∨ a + n ≤ b → abufByte t b = abufByte s b) ∧ memRead t a n = v

/-- Acceptance (`70_reset_and_hazards.md` R300, `10_state.md` R30). -/
def Obligations.CmdWriteAcceptsWhenIdle : Prop :=
  ∀ (s : State) (w : Word) (k : Nat), k < 4 → s.busy = false →
    applyEvent (.write (BitVec.ofNat 12 (0x014 + k)) w) s =
      .next { s with cmdLat := w, cmdLast := w, argLat := s.arg, busy := true, doneFlag := false }

/-- Writes while busy (`70_reset_and_hazards.md` R301, R303, R304). -/
def Obligations.WritesWhileBusy : Prop :=
  ∀ (s : State) (d : Word) (k : Nat), k < 4 → s.busy = true → s.doneFlag = false →
    (∀ off ∈ [0x014, 0x040, 0x044], busWrite (BitVec.ofNat 12 (off + k)) d s = { s with ovr := true })
      ∧ busWrite (BitVec.ofNat 12 (0x004 + k)) d s = { s with ctrl := d.extractLsb' 0 2 }
      ∧ irq (busWrite (BitVec.ofNat 12 (0x004 + k)) d s) = (d.getLsbD 1 && (s.err || s.ovr))
      ∧ busWrite (BitVec.ofNat 12 (0x010 + k)) d s = { s with arg := d }
      ∧ (∀ t, engineTurn s = .next t →
          engineTurn (busWrite (BitVec.ofNat 12 (0x010 + k)) d s) = .next { t with arg := d })
      ∧ busWrite (BitVec.ofNat 12 (0x008 + k)) d s = s
      ∧ (∀ off ∈ [0x000, 0x00C, 0x018, 0x01C, 0x020, 0x024, 0x028, 0x02C, 0x030, 0x034, 0x038, 0x03C, 0x048],
          busWrite (BitVec.ofNat 12 (off + k)) d s = s)
      ∧ (∀ a, 0x04C ≤ a → a < 0x1000 → busWrite (BitVec.ofNat 12 a) d s = s)

/-- CTRL, ARG, STATUS, read-only and reserved writes (`10_state.md` R22, R23, R29, R46; `20_memory.md` R68). -/
def Obligations.WritesWhileIdle : Prop :=
  ∀ (s : State) (d : Word) (k : Nat), k < 4 → s.busy = false →
    busWrite (BitVec.ofNat 12 (0x004 + k)) d s = { s with ctrl := d.extractLsb' 0 2 }
      ∧ ReadsAs (busWrite (BitVec.ofNat 12 (0x004 + k)) d s) 0x004 (d &&& 3)
      ∧ busWrite (BitVec.ofNat 12 (0x010 + k)) d s = { s with arg := d }
      ∧ busWrite (BitVec.ofNat 12 (0x008 + k)) d s =
          (if d.getLsbD 1 then { s with doneFlag := false } else s)
      ∧ (∀ off ∈ [0x000, 0x00C, 0x018, 0x01C, 0x020, 0x024, 0x028, 0x02C, 0x030, 0x034, 0x038, 0x03C, 0x048],
          busWrite (BitVec.ofNat 12 (off + k)) d s = s)
      ∧ (∀ a, 0x04C ≤ a → a < 0x1000 → busWrite (BitVec.ofNat 12 a) d s = s
          ∧ busRead (BitVec.ofNat 12 a) s = { s with rdata := 0 })

/-- The register map read while idle (`10_state.md` R21 to R45), in a state that meets the invariants. -/
def Obligations.IdleReadsShowTheRegisters : Prop :=
  ∀ (s : State) (n tot : Nat), Sound s → s.busy = false →
    ((List.finRange 256).filter fun i => s.freq[i] ≠ 0).length = n →
    ((List.finRange 256).map fun i => (s.freq[i]).toNat).sum = tot →
    ReadsAs s 0x000 0x48554601 ∧ ReadsAs s 0x004 (s.ctrl.setWidth 32) ∧ ReadsAs s 0x010 s.arg
      ∧ ReadsAs s 0x014 s.cmdLast
      ∧ ReadsAs s 0x018 s.result0 ∧ ReadsAs s 0x01C s.result1
      ∧ ReadsAs s 0x00C (BitVec.ofNat 32
          (s.errInfo.sub.toNat * 2 ^ 16 + s.errInfo.opc.toNat * 2 ^ 8 + s.errInfo.code.code.toNat))
      ∧ ReadsAs s 0x008 (BitVec.ofNat 32 (s.phase.code.toNat * 16 + s.ovr.toNat * 8 + s.err.toNat * 4
          + s.doneFlag.toNat * 2 + s.busy.toNat))
      ∧ ReadsAs s 0x020 (BitVec.ofNat 32 n) ∧ ReadsAs s 0x024 (BitVec.ofNat 32 tot) ∧ tot < 2 ^ 32
      ∧ (s.phase = .load → ReadsAs s 0x028 0 ∧ ReadsAs s 0x02C 0)
      ∧ (s.phase ≠ .load →
          ReadsAs s 0x028 (BitVec.ofNat 32 (2 * n - 1)) ∧ ReadsAs s 0x02C (BitVec.ofNat 32 (2 * n - 2)))
      ∧ ReadsAs s 0x030 s.bitLen ∧ ReadsAs s 0x034 s.bitPos ∧ ReadsAs s 0x038 (BitVec.ofNat 32 (6 + 5 * n))
      ∧ ReadsAs s 0x03C (BitVec.ofNat 32 (6 + 5 * n + (s.bitLen.toNat + 7) / 8))
      ∧ ReadsAs s 0x040 (BitVec.ofNat 32 s.abufPtr.toNat)
      ∧ ReadsAs s 0x048 (BitVec.ofNat 32 s.cfg.abufBytes)
      ∧ (∀ a : Nat, a < 0x1000 → a / 4 ≠ 17 → ∃ v, busRead (BitVec.ofNat 12 a) s = { s with rdata := v })

/-- Reads while busy (`70_reset_and_hazards.md` R302, R303): the any-value reads are free, so the statement
holds for every value; `draws` is the model's own counter (assumption log 3). -/
def Obligations.ReadsWhileBusy : Prop :=
  ∀ (s : State) (k : Nat), k < 4 → s.busy = true → s.doneFlag = false →
    s.abufPtr.toNat < s.cfg.abufBytes →
    ReadsAs s 0x000 0x48554601 ∧ ReadsAs s 0x004 (s.ctrl.setWidth 32) ∧ ReadsAs s 0x010 s.arg
      ∧ ReadsAs s 0x014 s.cmdLast ∧ ReadsAs s 0x048 (BitVec.ofNat 32 s.cfg.abufBytes)
      ∧ ReadsAs s 0x040 (BitVec.ofNat 32 s.abufPtr.toNat)
      ∧ ReadsAs s 0x008 (BitVec.ofNat 32 (s.phase.code.toNat * 16 + s.ovr.toNat * 8 + s.err.toNat * 4 + 1))
      ∧ ReadsAs s 0x00C (BitVec.ofNat 32
          (s.errInfo.sub.toNat * 2 ^ 16 + s.errInfo.opc.toNat * 2 ^ 8 + s.errInfo.code.code.toNat))
      ∧ (∀ off ∈ [0x000, 0x004, 0x008, 0x00C, 0x010, 0x014, 0x040, 0x048],
          ∃ v, busRead (BitVec.ofNat 12 (off + k)) s = { s with rdata := v })
      ∧ (∀ off ∈ [0x018, 0x01C, 0x020, 0x024, 0x028, 0x02C, 0x030, 0x034, 0x038, 0x03C, 0x044],
          ∃ v n, busRead (BitVec.ofNat 12 (off + k)) s = { s with rdata := v, draws := n })
      ∧ (∀ a, 0x04C ≤ a → a < 0x1000 → busRead (BitVec.ofNat 12 a) s = { s with rdata := 0 })

/-- The artifact-buffer port (`10_state.md` R43, R44). ABUF_PTR below ABUF_BYTES is part of the invariant, and
AW bits by the rule. -/
def Obligations.AbufPortMovesBytes : Prop :=
  ∀ (s : State) (d : Word) (k : Nat), k < 4 → s.abufPtr.toNat < s.cfg.abufBytes →
    ReadsAs s 0x040 (BitVec.ofNat 32 s.abufPtr.toNat)
      ∧ (s.busy = false →
          (∃ t, busWrite (BitVec.ofNat 12 (0x040 + k)) d s = t ∧ t.abufPtr.toNat = d.toNat % s.cfg.abufBytes
              ∧ t = { s with abufPtr := t.abufPtr })
            ∧ (∃ t, busWrite (BitVec.ofNat 12 (0x044 + k)) d s = t
                ∧ abufByte t s.abufPtr.toNat = d.extractLsb' 0 8
                ∧ (∀ a, a ≠ s.abufPtr.toNat → abufByte t a = abufByte s a)
                ∧ t.abufPtr.toNat = (s.abufPtr.toNat + 1) % s.cfg.abufBytes
                ∧ t = { s with abuf := t.abuf, abufPtr := t.abufPtr })
            ∧ (∃ t, busRead (BitVec.ofNat 12 (0x044 + k)) s = t
                ∧ t.rdata.toNat = (abufByte s s.abufPtr.toNat).toNat
                ∧ t.abufPtr.toNat = (s.abufPtr.toNat + 1) % s.cfg.abufBytes
                ∧ t = { s with rdata := t.rdata, abufPtr := t.abufPtr }))
      ∧ (s.busy = true →
          busWrite (BitVec.ofNat 12 (0x040 + k)) d s = { s with ovr := true }
            ∧ busWrite (BitVec.ofNat 12 (0x044 + k)) d s = { s with ovr := true }
            ∧ (busRead (BitVec.ofNat 12 (0x044 + k)) s).abufPtr = s.abufPtr)
      ∧ (∀ i t, exec i s = .next t → t.abufPtr = s.abufPtr) ∧ State.reset.abufPtr = 0

/-- The interrupt line (`60_exceptions.md` R260), in terms of the words the host reads. -/
def Obligations.InterruptIsThePendingEnabledSources : Prop :=
  ∀ (s : State) (c t : Word), ReadsAs s 0x004 c → ReadsAs s 0x008 t →
    irq s = (c.getLsbD 0 && t.getLsbD 1 || c.getLsbD 1 && (t.getLsbD 2 || t.getLsbD 3))

/-- Reset, also while busy (`70_reset_and_hazards.md` R290, R292; `10_state.md` R52). -/
def Obligations.ResetEventGivesResetState : Prop :=
  (∀ s : State, ∃ t, applyEvent .reset s = .next t ∧ t.cfg = s.cfg)
    ∧ ∀ t : State, (t = State.reset ∨ ∃ s, applyEvent .reset s = .next t) →
      t.ctrl = 0 ∧ t.busy = false ∧ t.doneFlag = false ∧ t.err = false ∧ t.ovr = false ∧ t.phase = .load
        ∧ t.errInfo = { code := .none, opc := 0, sub := 0 } ∧ t.arg = 0 ∧ t.cmdLast = 0 ∧ t.cmdLat = 0
        ∧ t.argLat = 0 ∧ t.result0 = 0 ∧ t.result1 = 0 ∧ (∀ x, freqAt t.freq x = 0) ∧ t.bitLen = 0
        ∧ t.bitPos = 0 ∧ t.abufPtr = 0 ∧ irq t = false
        ∧ ReadsAs t 0x000 0x48554601 ∧ ReadsAs t 0x020 0 ∧ ReadsAs t 0x024 0 ∧ ReadsAs t 0x028 0
        ∧ ReadsAs t 0x02C 0 ∧ ReadsAs t 0x038 6 ∧ ReadsAs t 0x03C 6
        ∧ ReadsAs t 0x048 (BitVec.ofNat 32 t.cfg.abufBytes)

/-- Idleness (`60_exceptions.md` R267); a step with nothing pending is the model's form (assumption log 4). -/
def Obligations.IdleEngineHoldsState : Prop :=
  ∀ s : State, s.busy = false → (s.pending = [] → step s = .next s) ∧ applyEvent .complete s = .next s

/-- A cycle with wr = 1 and rd = 1 (`70_reset_and_hazards.md` R296; U9); no read side effect is the model's
reading (assumption log 9). -/
def Obligations.WriteWithReadTakesTheWrite : Prop :=
  ∀ (s t : State) (a : BitVec 12) (d : Word), applyEvent (.write a d) s = .next t →
    ∃ v n, applyEvent (.writeRead a d) s = .next { t with rdata := v, draws := n }

/-- The invariants of `10_state.md` R51 hold at reset. -/
def Obligations.ResetMeetsInvariants : Prop :=
  Sound State.reset

/-- The invariants of `10_state.md` R51, with the form of the data, are kept by every step: commands, host
accesses and reset alike. -/
def Obligations.StepKeepsInvariants : Prop :=
  ∀ s t : State, Sound s → step s = .next t → Sound t

/-- Every outcome is defined (`70_reset_and_hazards.md` R294, R306; `20_memory.md` R69). -/
def Obligations.SoundStatesNeverStop : Prop :=
  ∀ s : State, Sound s → ∃ t, step s = .next t

/-- WAIT of `30_encoding.md` R103, for any number of polls before the completion. -/
def Obligations.WaitPollsUntilIdle : Prop :=
  ∀ (s : State) (k : List HostAct),
    (∃ v, ReadsAs s 0x008 v ∧ hostTurn { acts := .waitIdle :: k, state := s } =
        .next { acts := if s.busy then .waitIdle :: k else k, state := { s with rdata := v } })
      ∧ (∀ (n : Nat) (t : State), s.busy = true → engineTurn s = .next t →
          (∃ v, takeTurns (List.replicate n .host) { acts := .waitIdle :: k, state := s } =
              .next { acts := .waitIdle :: k, state := { s with rdata := v } })
            ∧ ∃ v, takeTurns (List.replicate n .host ++ [.outside .complete, .host])
                { acts := .waitIdle :: k, state := s } = .next { acts := k, state := { t with rdata := v } })

/-- DECOMPRESS's loop (`30_encoding.md` R103) on a stream that ENC_SYM packed (`44_bit_unpacker.md` R192, R197).
-/
def Obligations.DecompressLoopStopsAtEndOfStream : Prop :=
  ∀ (s t u : State) (xs : List Symbol) (n : Nat) (k : List HostAct),
    Sound s → s.phase = .coded → s.err = false → s.bitLen = 0 → (∀ x ∈ xs, freqAt s.freq x ≠ 0) →
    pbase s + ceil8 (xs.map fun x => (codeAt s.code x).len.toNat).sum ≤ s.cfg.abufBytes →
    encodeAll xs s = .next t → exec .rewind t = .next u →
    let round : List Turn := .host :: List.replicate n .host ++ [.outside .complete, .host, .host]
    (∀ (m : Nat) (x : Symbol), xs[m]? = some x → ∃ v,
        takeTurns (List.replicate (m + 1) round).flatten { acts := .decSym :: k, state := u } =
          .next { acts := .decSym :: k, state := v } ∧ v.rdata = x.setWidth 32 ∧ v.err = false)
      ∧ ∃ v, takeTurns (List.replicate (xs.length + 1) round).flatten { acts := .decSym :: k, state := u } =
          .next { acts := k, state := v } ∧ v.rdata = 0x100 ∧ v.bitPos = v.bitLen ∧ v.bitLen = t.bitLen
            ∧ v.err = false
end

