-- ==== Sys2Proof/Laws/State.lean ====
section
/-! SUPPORT. One lemma per field per named update of the state, each true by unfolding, so that no later proof
unfolds a record update; and the values derived from the fields an update leaves alone. -/

namespace Sys2Proof.Machine

/-! ### setResults -/

@[simp] theorem setResults_cfg (r0 r1 : Word) (s : State) : (setResults r0 r1 s).cfg = s.cfg := rfl
@[simp] theorem setResults_ctrl (r0 r1 : Word) (s : State) : (setResults r0 r1 s).ctrl = s.ctrl := rfl
@[simp] theorem setResults_busy (r0 r1 : Word) (s : State) : (setResults r0 r1 s).busy = s.busy := rfl
@[simp] theorem setResults_doneFlag (r0 r1 : Word) (s : State) : (setResults r0 r1 s).doneFlag = s.doneFlag := rfl
@[simp] theorem setResults_err (r0 r1 : Word) (s : State) : (setResults r0 r1 s).err = s.err := rfl
@[simp] theorem setResults_ovr (r0 r1 : Word) (s : State) : (setResults r0 r1 s).ovr = s.ovr := rfl
@[simp] theorem setResults_phase (r0 r1 : Word) (s : State) : (setResults r0 r1 s).phase = s.phase := rfl
@[simp] theorem setResults_errInfo (r0 r1 : Word) (s : State) : (setResults r0 r1 s).errInfo = s.errInfo := rfl
@[simp] theorem setResults_arg (r0 r1 : Word) (s : State) : (setResults r0 r1 s).arg = s.arg := rfl
@[simp] theorem setResults_cmdLast (r0 r1 : Word) (s : State) : (setResults r0 r1 s).cmdLast = s.cmdLast := rfl
@[simp] theorem setResults_argLat (r0 r1 : Word) (s : State) : (setResults r0 r1 s).argLat = s.argLat := rfl
@[simp] theorem setResults_cmdLat (r0 r1 : Word) (s : State) : (setResults r0 r1 s).cmdLat = s.cmdLat := rfl
@[simp] theorem setResults_result0 (r0 r1 : Word) (s : State) : (setResults r0 r1 s).result0 = r0 := rfl
@[simp] theorem setResults_result1 (r0 r1 : Word) (s : State) : (setResults r0 r1 s).result1 = r1 := rfl
@[simp] theorem setResults_freq (r0 r1 : Word) (s : State) : (setResults r0 r1 s).freq = s.freq := rfl
@[simp] theorem setResults_node (r0 r1 : Word) (s : State) : (setResults r0 r1 s).node = s.node := rfl
@[simp] theorem setResults_code (r0 r1 : Word) (s : State) : (setResults r0 r1 s).code = s.code := rfl
@[simp] theorem setResults_bitLen (r0 r1 : Word) (s : State) : (setResults r0 r1 s).bitLen = s.bitLen := rfl
@[simp] theorem setResults_bitPos (r0 r1 : Word) (s : State) : (setResults r0 r1 s).bitPos = s.bitPos := rfl
@[simp] theorem setResults_abufPtr (r0 r1 : Word) (s : State) : (setResults r0 r1 s).abufPtr = s.abufPtr := rfl
@[simp] theorem setResults_abuf (r0 r1 : Word) (s : State) : (setResults r0 r1 s).abuf = s.abuf := rfl
@[simp] theorem setResults_rdata (r0 r1 : Word) (s : State) : (setResults r0 r1 s).rdata = s.rdata := rfl
@[simp] theorem setResults_pending (r0 r1 : Word) (s : State) : (setResults r0 r1 s).pending = s.pending := rfl
@[simp] theorem setResults_draws (r0 r1 : Word) (s : State) : (setResults r0 r1 s).draws = s.draws := rfl
@[simp] theorem setResults_resets (r0 r1 : Word) (s : State) : (setResults r0 r1 s).resets = s.resets := rfl

/-! ### emptyStream -/

@[simp] theorem emptyStream_cfg (s : State) : (emptyStream s).cfg = s.cfg := rfl
@[simp] theorem emptyStream_ctrl (s : State) : (emptyStream s).ctrl = s.ctrl := rfl
@[simp] theorem emptyStream_busy (s : State) : (emptyStream s).busy = s.busy := rfl
@[simp] theorem emptyStream_doneFlag (s : State) : (emptyStream s).doneFlag = s.doneFlag := rfl
@[simp] theorem emptyStream_err (s : State) : (emptyStream s).err = s.err := rfl
@[simp] theorem emptyStream_ovr (s : State) : (emptyStream s).ovr = s.ovr := rfl
@[simp] theorem emptyStream_phase (s : State) : (emptyStream s).phase = s.phase := rfl
@[simp] theorem emptyStream_errInfo (s : State) : (emptyStream s).errInfo = s.errInfo := rfl
@[simp] theorem emptyStream_arg (s : State) : (emptyStream s).arg = s.arg := rfl
@[simp] theorem emptyStream_cmdLast (s : State) : (emptyStream s).cmdLast = s.cmdLast := rfl
@[simp] theorem emptyStream_argLat (s : State) : (emptyStream s).argLat = s.argLat := rfl
@[simp] theorem emptyStream_cmdLat (s : State) : (emptyStream s).cmdLat = s.cmdLat := rfl
@[simp] theorem emptyStream_result0 (s : State) : (emptyStream s).result0 = s.result0 := rfl
@[simp] theorem emptyStream_result1 (s : State) : (emptyStream s).result1 = s.result1 := rfl
@[simp] theorem emptyStream_freq (s : State) : (emptyStream s).freq = s.freq := rfl
@[simp] theorem emptyStream_node (s : State) : (emptyStream s).node = s.node := rfl
@[simp] theorem emptyStream_code (s : State) : (emptyStream s).code = s.code := rfl
@[simp] theorem emptyStream_bitLen (s : State) : (emptyStream s).bitLen = 0 := rfl
@[simp] theorem emptyStream_bitPos (s : State) : (emptyStream s).bitPos = 0 := rfl
@[simp] theorem emptyStream_abufPtr (s : State) : (emptyStream s).abufPtr = s.abufPtr := rfl
@[simp] theorem emptyStream_abuf (s : State) : (emptyStream s).abuf = s.abuf := rfl
@[simp] theorem emptyStream_rdata (s : State) : (emptyStream s).rdata = s.rdata := rfl
@[simp] theorem emptyStream_pending (s : State) : (emptyStream s).pending = s.pending := rfl
@[simp] theorem emptyStream_draws (s : State) : (emptyStream s).draws = s.draws := rfl
@[simp] theorem emptyStream_resets (s : State) : (emptyStream s).resets = s.resets := rfl

/-! ### complete -/

@[simp] theorem complete_cfg (s : State) : (complete s).cfg = s.cfg := rfl
@[simp] theorem complete_ctrl (s : State) : (complete s).ctrl = s.ctrl := rfl
@[simp] theorem complete_busy (s : State) : (complete s).busy = false := rfl
@[simp] theorem complete_doneFlag (s : State) : (complete s).doneFlag = true := rfl
@[simp] theorem complete_err (s : State) : (complete s).err = s.err := rfl
@[simp] theorem complete_ovr (s : State) : (complete s).ovr = s.ovr := rfl
@[simp] theorem complete_phase (s : State) : (complete s).phase = s.phase := rfl
@[simp] theorem complete_errInfo (s : State) : (complete s).errInfo = s.errInfo := rfl
@[simp] theorem complete_arg (s : State) : (complete s).arg = s.arg := rfl
@[simp] theorem complete_cmdLast (s : State) : (complete s).cmdLast = s.cmdLast := rfl
@[simp] theorem complete_argLat (s : State) : (complete s).argLat = s.argLat := rfl
@[simp] theorem complete_cmdLat (s : State) : (complete s).cmdLat = s.cmdLat := rfl
@[simp] theorem complete_result0 (s : State) : (complete s).result0 = s.result0 := rfl
@[simp] theorem complete_result1 (s : State) : (complete s).result1 = s.result1 := rfl
@[simp] theorem complete_freq (s : State) : (complete s).freq = s.freq := rfl
@[simp] theorem complete_node (s : State) : (complete s).node = s.node := rfl
@[simp] theorem complete_code (s : State) : (complete s).code = s.code := rfl
@[simp] theorem complete_bitLen (s : State) : (complete s).bitLen = s.bitLen := rfl
@[simp] theorem complete_bitPos (s : State) : (complete s).bitPos = s.bitPos := rfl
@[simp] theorem complete_abufPtr (s : State) : (complete s).abufPtr = s.abufPtr := rfl
@[simp] theorem complete_abuf (s : State) : (complete s).abuf = s.abuf := rfl
@[simp] theorem complete_rdata (s : State) : (complete s).rdata = s.rdata := rfl
@[simp] theorem complete_pending (s : State) : (complete s).pending = s.pending := rfl
@[simp] theorem complete_draws (s : State) : (complete s).draws = s.draws := rfl
@[simp] theorem complete_resets (s : State) : (complete s).resets = s.resets := rfl

/-! ### raise -/

@[simp] theorem raise_cfg (opc : Byte) (e : ErrorCode) (sub : Byte) (s : State) :
    (raise opc e sub s).cfg = s.cfg := rfl
@[simp] theorem raise_ctrl (opc : Byte) (e : ErrorCode) (sub : Byte) (s : State) :
    (raise opc e sub s).ctrl = s.ctrl := rfl
@[simp] theorem raise_busy (opc : Byte) (e : ErrorCode) (sub : Byte) (s : State) :
    (raise opc e sub s).busy = false := rfl
@[simp] theorem raise_doneFlag (opc : Byte) (e : ErrorCode) (sub : Byte) (s : State) :
    (raise opc e sub s).doneFlag = true := rfl
@[simp] theorem raise_err (opc : Byte) (e : ErrorCode) (sub : Byte) (s : State) :
    (raise opc e sub s).err = true := rfl
@[simp] theorem raise_ovr (opc : Byte) (e : ErrorCode) (sub : Byte) (s : State) :
    (raise opc e sub s).ovr = s.ovr := rfl
@[simp] theorem raise_phase (opc : Byte) (e : ErrorCode) (sub : Byte) (s : State) :
    (raise opc e sub s).phase = s.phase := rfl
@[simp] theorem raise_errInfo (opc : Byte) (e : ErrorCode) (sub : Byte) (s : State) :
    (raise opc e sub s).errInfo = { code := e, opc := opc, sub := sub } := rfl
@[simp] theorem raise_arg (opc : Byte) (e : ErrorCode) (sub : Byte) (s : State) :
    (raise opc e sub s).arg = s.arg := rfl
@[simp] theorem raise_cmdLast (opc : Byte) (e : ErrorCode) (sub : Byte) (s : State) :
    (raise opc e sub s).cmdLast = s.cmdLast := rfl
@[simp] theorem raise_argLat (opc : Byte) (e : ErrorCode) (sub : Byte) (s : State) :
    (raise opc e sub s).argLat = s.argLat := rfl
@[simp] theorem raise_cmdLat (opc : Byte) (e : ErrorCode) (sub : Byte) (s : State) :
    (raise opc e sub s).cmdLat = s.cmdLat := rfl
@[simp] theorem raise_result0 (opc : Byte) (e : ErrorCode) (sub : Byte) (s : State) :
    (raise opc e sub s).result0 = s.result0 := rfl
@[simp] theorem raise_result1 (opc : Byte) (e : ErrorCode) (sub : Byte) (s : State) :
    (raise opc e sub s).result1 = s.result1 := rfl
@[simp] theorem raise_freq (opc : Byte) (e : ErrorCode) (sub : Byte) (s : State) :
    (raise opc e sub s).freq = s.freq := rfl
@[simp] theorem raise_node (opc : Byte) (e : ErrorCode) (sub : Byte) (s : State) :
    (raise opc e sub s).node = s.node := rfl
@[simp] theorem raise_code (opc : Byte) (e : ErrorCode) (sub : Byte) (s : State) :
    (raise opc e sub s).code = s.code := rfl
@[simp] theorem raise_bitLen (opc : Byte) (e : ErrorCode) (sub : Byte) (s : State) :
    (raise opc e sub s).bitLen = s.bitLen := rfl
@[simp] theorem raise_bitPos (opc : Byte) (e : ErrorCode) (sub : Byte) (s : State) :
    (raise opc e sub s).bitPos = s.bitPos := rfl
@[simp] theorem raise_abufPtr (opc : Byte) (e : ErrorCode) (sub : Byte) (s : State) :
    (raise opc e sub s).abufPtr = s.abufPtr := rfl
@[simp] theorem raise_abuf (opc : Byte) (e : ErrorCode) (sub : Byte) (s : State) :
    (raise opc e sub s).abuf = s.abuf := rfl
@[simp] theorem raise_rdata (opc : Byte) (e : ErrorCode) (sub : Byte) (s : State) :
    (raise opc e sub s).rdata = s.rdata := rfl
@[simp] theorem raise_pending (opc : Byte) (e : ErrorCode) (sub : Byte) (s : State) :
    (raise opc e sub s).pending = s.pending := rfl
@[simp] theorem raise_draws (opc : Byte) (e : ErrorCode) (sub : Byte) (s : State) :
    (raise opc e sub s).draws = s.draws := rfl
@[simp] theorem raise_resets (opc : Byte) (e : ErrorCode) (sub : Byte) (s : State) :
    (raise opc e sub s).resets = s.resets := rfl

/-! ### acknowledge -/

@[simp] theorem acknowledge_cfg (s : State) : (acknowledge s).cfg = s.cfg := rfl
@[simp] theorem acknowledge_ctrl (s : State) : (acknowledge s).ctrl = s.ctrl := rfl
@[simp] theorem acknowledge_busy (s : State) : (acknowledge s).busy = s.busy := rfl
@[simp] theorem acknowledge_doneFlag (s : State) : (acknowledge s).doneFlag = s.doneFlag := rfl
@[simp] theorem acknowledge_err (s : State) : (acknowledge s).err = false := rfl
@[simp] theorem acknowledge_ovr (s : State) : (acknowledge s).ovr = false := rfl
@[simp] theorem acknowledge_phase (s : State) : (acknowledge s).phase = s.phase := rfl
@[simp] theorem acknowledge_errInfo (s : State) : (acknowledge s).errInfo = ErrInfo.zero := rfl
@[simp] theorem acknowledge_arg (s : State) : (acknowledge s).arg = s.arg := rfl
@[simp] theorem acknowledge_cmdLast (s : State) : (acknowledge s).cmdLast = s.cmdLast := rfl
@[simp] theorem acknowledge_argLat (s : State) : (acknowledge s).argLat = s.argLat := rfl
@[simp] theorem acknowledge_cmdLat (s : State) : (acknowledge s).cmdLat = s.cmdLat := rfl
@[simp] theorem acknowledge_result0 (s : State) : (acknowledge s).result0 = s.result0 := rfl
@[simp] theorem acknowledge_result1 (s : State) : (acknowledge s).result1 = s.result1 := rfl
@[simp] theorem acknowledge_freq (s : State) : (acknowledge s).freq = s.freq := rfl
@[simp] theorem acknowledge_node (s : State) : (acknowledge s).node = s.node := rfl
@[simp] theorem acknowledge_code (s : State) : (acknowledge s).code = s.code := rfl
@[simp] theorem acknowledge_bitLen (s : State) : (acknowledge s).bitLen = s.bitLen := rfl
@[simp] theorem acknowledge_bitPos (s : State) : (acknowledge s).bitPos = s.bitPos := rfl
@[simp] theorem acknowledge_abufPtr (s : State) : (acknowledge s).abufPtr = s.abufPtr := rfl
@[simp] theorem acknowledge_abuf (s : State) : (acknowledge s).abuf = s.abuf := rfl
@[simp] theorem acknowledge_rdata (s : State) : (acknowledge s).rdata = s.rdata := rfl
@[simp] theorem acknowledge_pending (s : State) : (acknowledge s).pending = s.pending := rfl
@[simp] theorem acknowledge_draws (s : State) : (acknowledge s).draws = s.draws := rfl
@[simp] theorem acknowledge_resets (s : State) : (acknowledge s).resets = s.resets := rfl

/-! ### accept -/

@[simp] theorem accept_cfg (w : Word) (s : State) : (accept w s).cfg = s.cfg := rfl
@[simp] theorem accept_ctrl (w : Word) (s : State) : (accept w s).ctrl = s.ctrl := rfl
@[simp] theorem accept_busy (w : Word) (s : State) : (accept w s).busy = true := rfl
@[simp] theorem accept_doneFlag (w : Word) (s : State) : (accept w s).doneFlag = false := rfl
@[simp] theorem accept_err (w : Word) (s : State) : (accept w s).err = s.err := rfl
@[simp] theorem accept_ovr (w : Word) (s : State) : (accept w s).ovr = s.ovr := rfl
@[simp] theorem accept_phase (w : Word) (s : State) : (accept w s).phase = s.phase := rfl
@[simp] theorem accept_errInfo (w : Word) (s : State) : (accept w s).errInfo = s.errInfo := rfl
@[simp] theorem accept_arg (w : Word) (s : State) : (accept w s).arg = s.arg := rfl
@[simp] theorem accept_cmdLast (w : Word) (s : State) : (accept w s).cmdLast = w := rfl
@[simp] theorem accept_argLat (w : Word) (s : State) : (accept w s).argLat = s.arg := rfl
@[simp] theorem accept_cmdLat (w : Word) (s : State) : (accept w s).cmdLat = w := rfl
@[simp] theorem accept_result0 (w : Word) (s : State) : (accept w s).result0 = s.result0 := rfl
@[simp] theorem accept_result1 (w : Word) (s : State) : (accept w s).result1 = s.result1 := rfl
@[simp] theorem accept_freq (w : Word) (s : State) : (accept w s).freq = s.freq := rfl
@[simp] theorem accept_node (w : Word) (s : State) : (accept w s).node = s.node := rfl
@[simp] theorem accept_code (w : Word) (s : State) : (accept w s).code = s.code := rfl
@[simp] theorem accept_bitLen (w : Word) (s : State) : (accept w s).bitLen = s.bitLen := rfl
@[simp] theorem accept_bitPos (w : Word) (s : State) : (accept w s).bitPos = s.bitPos := rfl
@[simp] theorem accept_abufPtr (w : Word) (s : State) : (accept w s).abufPtr = s.abufPtr := rfl
@[simp] theorem accept_abuf (w : Word) (s : State) : (accept w s).abuf = s.abuf := rfl
@[simp] theorem accept_rdata (w : Word) (s : State) : (accept w s).rdata = s.rdata := rfl
@[simp] theorem accept_pending (w : Word) (s : State) : (accept w s).pending = s.pending := rfl
@[simp] theorem accept_draws (w : Word) (s : State) : (accept w s).draws = s.draws := rfl
@[simp] theorem accept_resets (w : Word) (s : State) : (accept w s).resets = s.resets := rfl

/-! ### setOverrun -/

@[simp] theorem setOverrun_cfg (s : State) : (setOverrun s).cfg = s.cfg := rfl
@[simp] theorem setOverrun_ctrl (s : State) : (setOverrun s).ctrl = s.ctrl := rfl
@[simp] theorem setOverrun_busy (s : State) : (setOverrun s).busy = s.busy := rfl
@[simp] theorem setOverrun_doneFlag (s : State) : (setOverrun s).doneFlag = s.doneFlag := rfl
@[simp] theorem setOverrun_err (s : State) : (setOverrun s).err = s.err := rfl
@[simp] theorem setOverrun_ovr (s : State) : (setOverrun s).ovr = true := rfl
@[simp] theorem setOverrun_phase (s : State) : (setOverrun s).phase = s.phase := rfl
@[simp] theorem setOverrun_errInfo (s : State) : (setOverrun s).errInfo = s.errInfo := rfl
@[simp] theorem setOverrun_arg (s : State) : (setOverrun s).arg = s.arg := rfl
@[simp] theorem setOverrun_cmdLast (s : State) : (setOverrun s).cmdLast = s.cmdLast := rfl
@[simp] theorem setOverrun_argLat (s : State) : (setOverrun s).argLat = s.argLat := rfl
@[simp] theorem setOverrun_cmdLat (s : State) : (setOverrun s).cmdLat = s.cmdLat := rfl
@[simp] theorem setOverrun_result0 (s : State) : (setOverrun s).result0 = s.result0 := rfl
@[simp] theorem setOverrun_result1 (s : State) : (setOverrun s).result1 = s.result1 := rfl
@[simp] theorem setOverrun_freq (s : State) : (setOverrun s).freq = s.freq := rfl
@[simp] theorem setOverrun_node (s : State) : (setOverrun s).node = s.node := rfl
@[simp] theorem setOverrun_code (s : State) : (setOverrun s).code = s.code := rfl
@[simp] theorem setOverrun_bitLen (s : State) : (setOverrun s).bitLen = s.bitLen := rfl
@[simp] theorem setOverrun_bitPos (s : State) : (setOverrun s).bitPos = s.bitPos := rfl
@[simp] theorem setOverrun_abufPtr (s : State) : (setOverrun s).abufPtr = s.abufPtr := rfl
@[simp] theorem setOverrun_abuf (s : State) : (setOverrun s).abuf = s.abuf := rfl
@[simp] theorem setOverrun_rdata (s : State) : (setOverrun s).rdata = s.rdata := rfl
@[simp] theorem setOverrun_pending (s : State) : (setOverrun s).pending = s.pending := rfl
@[simp] theorem setOverrun_draws (s : State) : (setOverrun s).draws = s.draws := rfl
@[simp] theorem setOverrun_resets (s : State) : (setOverrun s).resets = s.resets := rfl

/-! ### setPtr -/

@[simp] theorem setPtr_cfg (s : State) (v : Nat) : (setPtr s v).cfg = s.cfg := rfl
@[simp] theorem setPtr_ctrl (s : State) (v : Nat) : (setPtr s v).ctrl = s.ctrl := rfl
@[simp] theorem setPtr_busy (s : State) (v : Nat) : (setPtr s v).busy = s.busy := rfl
@[simp] theorem setPtr_doneFlag (s : State) (v : Nat) : (setPtr s v).doneFlag = s.doneFlag := rfl
@[simp] theorem setPtr_err (s : State) (v : Nat) : (setPtr s v).err = s.err := rfl
@[simp] theorem setPtr_ovr (s : State) (v : Nat) : (setPtr s v).ovr = s.ovr := rfl
@[simp] theorem setPtr_phase (s : State) (v : Nat) : (setPtr s v).phase = s.phase := rfl
@[simp] theorem setPtr_errInfo (s : State) (v : Nat) : (setPtr s v).errInfo = s.errInfo := rfl
@[simp] theorem setPtr_arg (s : State) (v : Nat) : (setPtr s v).arg = s.arg := rfl
@[simp] theorem setPtr_cmdLast (s : State) (v : Nat) : (setPtr s v).cmdLast = s.cmdLast := rfl
@[simp] theorem setPtr_argLat (s : State) (v : Nat) : (setPtr s v).argLat = s.argLat := rfl
@[simp] theorem setPtr_cmdLat (s : State) (v : Nat) : (setPtr s v).cmdLat = s.cmdLat := rfl
@[simp] theorem setPtr_result0 (s : State) (v : Nat) : (setPtr s v).result0 = s.result0 := rfl
@[simp] theorem setPtr_result1 (s : State) (v : Nat) : (setPtr s v).result1 = s.result1 := rfl
@[simp] theorem setPtr_freq (s : State) (v : Nat) : (setPtr s v).freq = s.freq := rfl
@[simp] theorem setPtr_node (s : State) (v : Nat) : (setPtr s v).node = s.node := rfl
@[simp] theorem setPtr_code (s : State) (v : Nat) : (setPtr s v).code = s.code := rfl
@[simp] theorem setPtr_bitLen (s : State) (v : Nat) : (setPtr s v).bitLen = s.bitLen := rfl
@[simp] theorem setPtr_bitPos (s : State) (v : Nat) : (setPtr s v).bitPos = s.bitPos := rfl
@[simp] theorem setPtr_abufPtr (s : State) (v : Nat) :
    (setPtr s v).abufPtr = BitVec.ofNat 24 (v % s.cfg.abufBytes) := rfl
@[simp] theorem setPtr_abuf (s : State) (v : Nat) : (setPtr s v).abuf = s.abuf := rfl
@[simp] theorem setPtr_rdata (s : State) (v : Nat) : (setPtr s v).rdata = s.rdata := rfl
@[simp] theorem setPtr_pending (s : State) (v : Nat) : (setPtr s v).pending = s.pending := rfl
@[simp] theorem setPtr_draws (s : State) (v : Nat) : (setPtr s v).draws = s.draws := rfl
@[simp] theorem setPtr_resets (s : State) (v : Nat) : (setPtr s v).resets = s.resets := rfl

/-! ### advancePtr -/

@[simp] theorem advancePtr_cfg (s : State) : (advancePtr s).cfg = s.cfg := rfl
@[simp] theorem advancePtr_ctrl (s : State) : (advancePtr s).ctrl = s.ctrl := rfl
@[simp] theorem advancePtr_busy (s : State) : (advancePtr s).busy = s.busy := rfl
@[simp] theorem advancePtr_doneFlag (s : State) : (advancePtr s).doneFlag = s.doneFlag := rfl
@[simp] theorem advancePtr_err (s : State) : (advancePtr s).err = s.err := rfl
@[simp] theorem advancePtr_ovr (s : State) : (advancePtr s).ovr = s.ovr := rfl
@[simp] theorem advancePtr_phase (s : State) : (advancePtr s).phase = s.phase := rfl
@[simp] theorem advancePtr_errInfo (s : State) : (advancePtr s).errInfo = s.errInfo := rfl
@[simp] theorem advancePtr_arg (s : State) : (advancePtr s).arg = s.arg := rfl
@[simp] theorem advancePtr_cmdLast (s : State) : (advancePtr s).cmdLast = s.cmdLast := rfl
@[simp] theorem advancePtr_argLat (s : State) : (advancePtr s).argLat = s.argLat := rfl
@[simp] theorem advancePtr_cmdLat (s : State) : (advancePtr s).cmdLat = s.cmdLat := rfl
@[simp] theorem advancePtr_result0 (s : State) : (advancePtr s).result0 = s.result0 := rfl
@[simp] theorem advancePtr_result1 (s : State) : (advancePtr s).result1 = s.result1 := rfl
@[simp] theorem advancePtr_freq (s : State) : (advancePtr s).freq = s.freq := rfl
@[simp] theorem advancePtr_node (s : State) : (advancePtr s).node = s.node := rfl
@[simp] theorem advancePtr_code (s : State) : (advancePtr s).code = s.code := rfl
@[simp] theorem advancePtr_bitLen (s : State) : (advancePtr s).bitLen = s.bitLen := rfl
@[simp] theorem advancePtr_bitPos (s : State) : (advancePtr s).bitPos = s.bitPos := rfl
@[simp] theorem advancePtr_abufPtr (s : State) :
    (advancePtr s).abufPtr = BitVec.ofNat 24 ((ptrValue s + 1) % s.cfg.abufBytes) := rfl
@[simp] theorem advancePtr_abuf (s : State) : (advancePtr s).abuf = s.abuf := rfl
@[simp] theorem advancePtr_rdata (s : State) : (advancePtr s).rdata = s.rdata := rfl
@[simp] theorem advancePtr_pending (s : State) : (advancePtr s).pending = s.pending := rfl
@[simp] theorem advancePtr_draws (s : State) : (advancePtr s).draws = s.draws := rfl
@[simp] theorem advancePtr_resets (s : State) : (advancePtr s).resets = s.resets := rfl

/-! ### addCount -/

@[simp] theorem addCount_cfg (x : Symbol) (w : Word) (s : State) : (addCount x w s).cfg = s.cfg := rfl
@[simp] theorem addCount_ctrl (x : Symbol) (w : Word) (s : State) : (addCount x w s).ctrl = s.ctrl := rfl
@[simp] theorem addCount_busy (x : Symbol) (w : Word) (s : State) : (addCount x w s).busy = s.busy := rfl
@[simp] theorem addCount_doneFlag (x : Symbol) (w : Word) (s : State) : (addCount x w s).doneFlag = s.doneFlag := rfl
@[simp] theorem addCount_err (x : Symbol) (w : Word) (s : State) : (addCount x w s).err = s.err := rfl
@[simp] theorem addCount_ovr (x : Symbol) (w : Word) (s : State) : (addCount x w s).ovr = s.ovr := rfl
@[simp] theorem addCount_phase (x : Symbol) (w : Word) (s : State) : (addCount x w s).phase = s.phase := rfl
@[simp] theorem addCount_errInfo (x : Symbol) (w : Word) (s : State) : (addCount x w s).errInfo = s.errInfo := rfl
@[simp] theorem addCount_arg (x : Symbol) (w : Word) (s : State) : (addCount x w s).arg = s.arg := rfl
@[simp] theorem addCount_cmdLast (x : Symbol) (w : Word) (s : State) : (addCount x w s).cmdLast = s.cmdLast := rfl
@[simp] theorem addCount_argLat (x : Symbol) (w : Word) (s : State) : (addCount x w s).argLat = s.argLat := rfl
@[simp] theorem addCount_cmdLat (x : Symbol) (w : Word) (s : State) : (addCount x w s).cmdLat = s.cmdLat := rfl
@[simp] theorem addCount_result0 (x : Symbol) (w : Word) (s : State) : (addCount x w s).result0 = s.result0 := rfl
@[simp] theorem addCount_result1 (x : Symbol) (w : Word) (s : State) : (addCount x w s).result1 = s.result1 := rfl
@[simp] theorem addCount_freq (x : Symbol) (w : Word) (s : State) :
    (addCount x w s).freq = setFreq s.freq x (freqAt s.freq x + w) := rfl
@[simp] theorem addCount_node (x : Symbol) (w : Word) (s : State) : (addCount x w s).node = s.node := rfl
@[simp] theorem addCount_code (x : Symbol) (w : Word) (s : State) : (addCount x w s).code = s.code := rfl
@[simp] theorem addCount_bitLen (x : Symbol) (w : Word) (s : State) : (addCount x w s).bitLen = 0 := rfl
@[simp] theorem addCount_bitPos (x : Symbol) (w : Word) (s : State) : (addCount x w s).bitPos = 0 := rfl
@[simp] theorem addCount_abufPtr (x : Symbol) (w : Word) (s : State) : (addCount x w s).abufPtr = s.abufPtr := rfl
@[simp] theorem addCount_abuf (x : Symbol) (w : Word) (s : State) : (addCount x w s).abuf = s.abuf := rfl
@[simp] theorem addCount_rdata (x : Symbol) (w : Word) (s : State) : (addCount x w s).rdata = s.rdata := rfl
@[simp] theorem addCount_pending (x : Symbol) (w : Word) (s : State) : (addCount x w s).pending = s.pending := rfl
@[simp] theorem addCount_draws (x : Symbol) (w : Word) (s : State) : (addCount x w s).draws = s.draws := rfl
@[simp] theorem addCount_resets (x : Symbol) (w : Word) (s : State) : (addCount x w s).resets = s.resets := rfl

/-! ### withCodes -/

@[simp] theorem withCodes_cfg (s : State) : (withCodes s).cfg = s.cfg := rfl
@[simp] theorem withCodes_ctrl (s : State) : (withCodes s).ctrl = s.ctrl := rfl
@[simp] theorem withCodes_busy (s : State) : (withCodes s).busy = s.busy := rfl
@[simp] theorem withCodes_doneFlag (s : State) : (withCodes s).doneFlag = s.doneFlag := rfl
@[simp] theorem withCodes_err (s : State) : (withCodes s).err = s.err := rfl
@[simp] theorem withCodes_ovr (s : State) : (withCodes s).ovr = s.ovr := rfl
@[simp] theorem withCodes_phase (s : State) : (withCodes s).phase = .coded := rfl
@[simp] theorem withCodes_errInfo (s : State) : (withCodes s).errInfo = s.errInfo := rfl
@[simp] theorem withCodes_arg (s : State) : (withCodes s).arg = s.arg := rfl
@[simp] theorem withCodes_cmdLast (s : State) : (withCodes s).cmdLast = s.cmdLast := rfl
@[simp] theorem withCodes_argLat (s : State) : (withCodes s).argLat = s.argLat := rfl
@[simp] theorem withCodes_cmdLat (s : State) : (withCodes s).cmdLat = s.cmdLat := rfl
@[simp] theorem withCodes_result0 (s : State) : (withCodes s).result0 = s.result0 := rfl
@[simp] theorem withCodes_result1 (s : State) : (withCodes s).result1 = s.result1 := rfl
@[simp] theorem withCodes_freq (s : State) : (withCodes s).freq = s.freq := rfl
@[simp] theorem withCodes_node (s : State) : (withCodes s).node = s.node := rfl
@[simp] theorem withCodes_code (s : State) : (withCodes s).code = assignCodes s.node (nodeIdx (root s)) := rfl
@[simp] theorem withCodes_bitLen (s : State) : (withCodes s).bitLen = s.bitLen := rfl
@[simp] theorem withCodes_bitPos (s : State) : (withCodes s).bitPos = s.bitPos := rfl
@[simp] theorem withCodes_abufPtr (s : State) : (withCodes s).abufPtr = s.abufPtr := rfl
@[simp] theorem withCodes_abuf (s : State) : (withCodes s).abuf = s.abuf := rfl
@[simp] theorem withCodes_rdata (s : State) : (withCodes s).rdata = s.rdata := rfl
@[simp] theorem withCodes_pending (s : State) : (withCodes s).pending = s.pending := rfl
@[simp] theorem withCodes_draws (s : State) : (withCodes s).draws = s.draws := rfl
@[simp] theorem withCodes_resets (s : State) : (withCodes s).resets = s.resets := rfl

/-! ### putBit -/

@[simp] theorem putBit_cfg (base p : Nat) (c : Bool) (s : State) : (putBit base p c s).cfg = s.cfg := rfl
@[simp] theorem putBit_ctrl (base p : Nat) (c : Bool) (s : State) : (putBit base p c s).ctrl = s.ctrl := rfl
@[simp] theorem putBit_busy (base p : Nat) (c : Bool) (s : State) : (putBit base p c s).busy = s.busy := rfl
@[simp] theorem putBit_doneFlag (base p : Nat) (c : Bool) (s : State) :
    (putBit base p c s).doneFlag = s.doneFlag := rfl
@[simp] theorem putBit_err (base p : Nat) (c : Bool) (s : State) : (putBit base p c s).err = s.err := rfl
@[simp] theorem putBit_ovr (base p : Nat) (c : Bool) (s : State) : (putBit base p c s).ovr = s.ovr := rfl
@[simp] theorem putBit_phase (base p : Nat) (c : Bool) (s : State) : (putBit base p c s).phase = s.phase := rfl
@[simp] theorem putBit_errInfo (base p : Nat) (c : Bool) (s : State) : (putBit base p c s).errInfo = s.errInfo := rfl
@[simp] theorem putBit_arg (base p : Nat) (c : Bool) (s : State) : (putBit base p c s).arg = s.arg := rfl
@[simp] theorem putBit_cmdLast (base p : Nat) (c : Bool) (s : State) : (putBit base p c s).cmdLast = s.cmdLast := rfl
@[simp] theorem putBit_argLat (base p : Nat) (c : Bool) (s : State) : (putBit base p c s).argLat = s.argLat := rfl
@[simp] theorem putBit_cmdLat (base p : Nat) (c : Bool) (s : State) : (putBit base p c s).cmdLat = s.cmdLat := rfl
@[simp] theorem putBit_result0 (base p : Nat) (c : Bool) (s : State) : (putBit base p c s).result0 = s.result0 := rfl
@[simp] theorem putBit_result1 (base p : Nat) (c : Bool) (s : State) : (putBit base p c s).result1 = s.result1 := rfl
@[simp] theorem putBit_freq (base p : Nat) (c : Bool) (s : State) : (putBit base p c s).freq = s.freq := rfl
@[simp] theorem putBit_node (base p : Nat) (c : Bool) (s : State) : (putBit base p c s).node = s.node := rfl
@[simp] theorem putBit_code (base p : Nat) (c : Bool) (s : State) : (putBit base p c s).code = s.code := rfl
@[simp] theorem putBit_bitLen (base p : Nat) (c : Bool) (s : State) : (putBit base p c s).bitLen = s.bitLen := rfl
@[simp] theorem putBit_bitPos (base p : Nat) (c : Bool) (s : State) : (putBit base p c s).bitPos = s.bitPos := rfl
@[simp] theorem putBit_abufPtr (base p : Nat) (c : Bool) (s : State) : (putBit base p c s).abufPtr = s.abufPtr := rfl
@[simp] theorem putBit_abuf (base p : Nat) (c : Bool) (s : State) :
    (putBit base p c s).abuf = Memory.write s.abuf (base + p / 8) (putBitByte (abufByte s (base + p / 8)) (p % 8) c) := rfl
@[simp] theorem putBit_rdata (base p : Nat) (c : Bool) (s : State) : (putBit base p c s).rdata = s.rdata := rfl
@[simp] theorem putBit_pending (base p : Nat) (c : Bool) (s : State) : (putBit base p c s).pending = s.pending := rfl
@[simp] theorem putBit_draws (base p : Nat) (c : Bool) (s : State) : (putBit base p c s).draws = s.draws := rfl
@[simp] theorem putBit_resets (base p : Nat) (c : Bool) (s : State) : (putBit base p c s).resets = s.resets := rfl

/-! ### readAny -/

@[simp] theorem readAny_cfg (s : State) : (readAny s).cfg = s.cfg := rfl
@[simp] theorem readAny_ctrl (s : State) : (readAny s).ctrl = s.ctrl := rfl
@[simp] theorem readAny_busy (s : State) : (readAny s).busy = s.busy := rfl
@[simp] theorem readAny_doneFlag (s : State) : (readAny s).doneFlag = s.doneFlag := rfl
@[simp] theorem readAny_err (s : State) : (readAny s).err = s.err := rfl
@[simp] theorem readAny_ovr (s : State) : (readAny s).ovr = s.ovr := rfl
@[simp] theorem readAny_phase (s : State) : (readAny s).phase = s.phase := rfl
@[simp] theorem readAny_errInfo (s : State) : (readAny s).errInfo = s.errInfo := rfl
@[simp] theorem readAny_arg (s : State) : (readAny s).arg = s.arg := rfl
@[simp] theorem readAny_cmdLast (s : State) : (readAny s).cmdLast = s.cmdLast := rfl
@[simp] theorem readAny_argLat (s : State) : (readAny s).argLat = s.argLat := rfl
@[simp] theorem readAny_cmdLat (s : State) : (readAny s).cmdLat = s.cmdLat := rfl
@[simp] theorem readAny_result0 (s : State) : (readAny s).result0 = s.result0 := rfl
@[simp] theorem readAny_result1 (s : State) : (readAny s).result1 = s.result1 := rfl
@[simp] theorem readAny_freq (s : State) : (readAny s).freq = s.freq := rfl
@[simp] theorem readAny_node (s : State) : (readAny s).node = s.node := rfl
@[simp] theorem readAny_code (s : State) : (readAny s).code = s.code := rfl
@[simp] theorem readAny_bitLen (s : State) : (readAny s).bitLen = s.bitLen := rfl
@[simp] theorem readAny_bitPos (s : State) : (readAny s).bitPos = s.bitPos := rfl
@[simp] theorem readAny_abufPtr (s : State) : (readAny s).abufPtr = s.abufPtr := rfl
@[simp] theorem readAny_abuf (s : State) : (readAny s).abuf = s.abuf := rfl
@[simp] theorem readAny_rdata (s : State) : (readAny s).rdata = Config.busyRead s.draws := rfl
@[simp] theorem readAny_pending (s : State) : (readAny s).pending = s.pending := rfl
@[simp] theorem readAny_draws (s : State) : (readAny s).draws = s.draws + 1 := rfl
@[simp] theorem readAny_resets (s : State) : (readAny s).resets = s.resets := rfl

/-! ### storeByte -/

@[simp] theorem storeByte_cfg (d : Word) (s : State) : (storeByte d s).cfg = s.cfg := rfl
@[simp] theorem storeByte_ctrl (d : Word) (s : State) : (storeByte d s).ctrl = s.ctrl := rfl
@[simp] theorem storeByte_busy (d : Word) (s : State) : (storeByte d s).busy = s.busy := rfl
@[simp] theorem storeByte_doneFlag (d : Word) (s : State) : (storeByte d s).doneFlag = s.doneFlag := rfl
@[simp] theorem storeByte_err (d : Word) (s : State) : (storeByte d s).err = s.err := rfl
@[simp] theorem storeByte_ovr (d : Word) (s : State) : (storeByte d s).ovr = s.ovr := rfl
@[simp] theorem storeByte_phase (d : Word) (s : State) : (storeByte d s).phase = s.phase := rfl
@[simp] theorem storeByte_errInfo (d : Word) (s : State) : (storeByte d s).errInfo = s.errInfo := rfl
@[simp] theorem storeByte_arg (d : Word) (s : State) : (storeByte d s).arg = s.arg := rfl
@[simp] theorem storeByte_cmdLast (d : Word) (s : State) : (storeByte d s).cmdLast = s.cmdLast := rfl
@[simp] theorem storeByte_argLat (d : Word) (s : State) : (storeByte d s).argLat = s.argLat := rfl
@[simp] theorem storeByte_cmdLat (d : Word) (s : State) : (storeByte d s).cmdLat = s.cmdLat := rfl
@[simp] theorem storeByte_result0 (d : Word) (s : State) : (storeByte d s).result0 = s.result0 := rfl
@[simp] theorem storeByte_result1 (d : Word) (s : State) : (storeByte d s).result1 = s.result1 := rfl
@[simp] theorem storeByte_freq (d : Word) (s : State) : (storeByte d s).freq = s.freq := rfl
@[simp] theorem storeByte_node (d : Word) (s : State) : (storeByte d s).node = s.node := rfl
@[simp] theorem storeByte_code (d : Word) (s : State) : (storeByte d s).code = s.code := rfl
@[simp] theorem storeByte_bitLen (d : Word) (s : State) : (storeByte d s).bitLen = s.bitLen := rfl
@[simp] theorem storeByte_bitPos (d : Word) (s : State) : (storeByte d s).bitPos = s.bitPos := rfl
@[simp] theorem storeByte_abufPtr (d : Word) (s : State) :
    (storeByte d s).abufPtr = BitVec.ofNat 24 ((ptrValue s + 1) % s.cfg.abufBytes) := rfl
@[simp] theorem storeByte_abuf (d : Word) (s : State) :
    (storeByte d s).abuf = Memory.write s.abuf (ptrValue s) (d.setWidth 8) := rfl
@[simp] theorem storeByte_rdata (d : Word) (s : State) : (storeByte d s).rdata = s.rdata := rfl
@[simp] theorem storeByte_pending (d : Word) (s : State) : (storeByte d s).pending = s.pending := rfl
@[simp] theorem storeByte_draws (d : Word) (s : State) : (storeByte d s).draws = s.draws := rfl
@[simp] theorem storeByte_resets (d : Word) (s : State) : (storeByte d s).resets = s.resets := rfl

/-! ### Derived values that an update leaves alone -/

@[simp] theorem nsym_setResults (r0 r1 : Word) (s : State) : nsym (setResults r0 r1 s) = nsym s := rfl
@[simp] theorem total_setResults (r0 r1 : Word) (s : State) : total (setResults r0 r1 s) = total s := rfl
@[simp] theorem pbase_setResults (r0 r1 : Word) (s : State) : pbase (setResults r0 r1 s) = pbase s := rfl
@[simp] theorem nnodes_setResults (r0 r1 : Word) (s : State) : nnodes (setResults r0 r1 s) = nnodes s := rfl
@[simp] theorem root_setResults (r0 r1 : Word) (s : State) : root (setResults r0 r1 s) = root s := rfl
@[simp] theorem alen_setResults (r0 r1 : Word) (s : State) : alen (setResults r0 r1 s) = alen s := rfl
@[simp] theorem countOperand_setResults (r0 r1 : Word) (s : State) : countOperand (setResults r0 r1 s) = countOperand s := rfl
@[simp] theorem lengthOperand_setResults (r0 r1 : Word) (s : State) : lengthOperand (setResults r0 r1 s) = lengthOperand s := rfl
@[simp] theorem phaseSub_setResults (r0 r1 : Word) (s : State) : phaseSub (setResults r0 r1 s) = phaseSub s := rfl
@[simp] theorem ptrValue_setResults (r0 r1 : Word) (s : State) : ptrValue (setResults r0 r1 s) = ptrValue s := rfl
@[simp] theorem abufByte_setResults (r0 r1 : Word) (s : State) (a : Nat) : abufByte (setResults r0 r1 s) a = abufByte s a := rfl
@[simp] theorem payloadBit_setResults (r0 r1 : Word) (s : State) (p : Nat) :
    payloadBit (setResults r0 r1 s) p = payloadBit s p := rfl

@[simp] theorem nsym_emptyStream (s : State) : nsym (emptyStream s) = nsym s := rfl
@[simp] theorem total_emptyStream (s : State) : total (emptyStream s) = total s := rfl
@[simp] theorem pbase_emptyStream (s : State) : pbase (emptyStream s) = pbase s := rfl
@[simp] theorem nnodes_emptyStream (s : State) : nnodes (emptyStream s) = nnodes s := rfl
@[simp] theorem root_emptyStream (s : State) : root (emptyStream s) = root s := rfl
@[simp] theorem countOperand_emptyStream (s : State) : countOperand (emptyStream s) = countOperand s := rfl
@[simp] theorem lengthOperand_emptyStream (s : State) : lengthOperand (emptyStream s) = lengthOperand s := rfl
@[simp] theorem phaseSub_emptyStream (s : State) : phaseSub (emptyStream s) = phaseSub s := rfl
@[simp] theorem ptrValue_emptyStream (s : State) : ptrValue (emptyStream s) = ptrValue s := rfl
@[simp] theorem abufByte_emptyStream (s : State) (a : Nat) : abufByte (emptyStream s) a = abufByte s a := rfl
@[simp] theorem payloadBit_emptyStream (s : State) (p : Nat) :
    payloadBit (emptyStream s) p = payloadBit s p := rfl

@[simp] theorem nsym_complete (s : State) : nsym (complete s) = nsym s := rfl
@[simp] theorem total_complete (s : State) : total (complete s) = total s := rfl
@[simp] theorem pbase_complete (s : State) : pbase (complete s) = pbase s := rfl
@[simp] theorem nnodes_complete (s : State) : nnodes (complete s) = nnodes s := rfl
@[simp] theorem root_complete (s : State) : root (complete s) = root s := rfl
@[simp] theorem alen_complete (s : State) : alen (complete s) = alen s := rfl
@[simp] theorem countOperand_complete (s : State) : countOperand (complete s) = countOperand s := rfl
@[simp] theorem lengthOperand_complete (s : State) : lengthOperand (complete s) = lengthOperand s := rfl
@[simp] theorem phaseSub_complete (s : State) : phaseSub (complete s) = phaseSub s := rfl
@[simp] theorem ptrValue_complete (s : State) : ptrValue (complete s) = ptrValue s := rfl
@[simp] theorem abufByte_complete (s : State) (a : Nat) : abufByte (complete s) a = abufByte s a := rfl
@[simp] theorem payloadBit_complete (s : State) (p : Nat) :
    payloadBit (complete s) p = payloadBit s p := rfl

@[simp] theorem nsym_raise (opc : Byte) (e : ErrorCode) (sub : Byte) (s : State) : nsym (raise opc e sub s) = nsym s := rfl
@[simp] theorem total_raise (opc : Byte) (e : ErrorCode) (sub : Byte) (s : State) : total (raise opc e sub s) = total s := rfl
@[simp] theorem pbase_raise (opc : Byte) (e : ErrorCode) (sub : Byte) (s : State) : pbase (raise opc e sub s) = pbase s := rfl
@[simp] theorem nnodes_raise (opc : Byte) (e : ErrorCode) (sub : Byte) (s : State) : nnodes (raise opc e sub s) = nnodes s := rfl
@[simp] theorem root_raise (opc : Byte) (e : ErrorCode) (sub : Byte) (s : State) : root (raise opc e sub s) = root s := rfl
@[simp] theorem alen_raise (opc : Byte) (e : ErrorCode) (sub : Byte) (s : State) : alen (raise opc e sub s) = alen s := rfl
@[simp] theorem countOperand_raise (opc : Byte) (e : ErrorCode) (sub : Byte) (s : State) : countOperand (raise opc e sub s) = countOperand s := rfl
@[simp] theorem lengthOperand_raise (opc : Byte) (e : ErrorCode) (sub : Byte) (s : State) : lengthOperand (raise opc e sub s) = lengthOperand s := rfl
@[simp] theorem phaseSub_raise (opc : Byte) (e : ErrorCode) (sub : Byte) (s : State) : phaseSub (raise opc e sub s) = phaseSub s := rfl
@[simp] theorem ptrValue_raise (opc : Byte) (e : ErrorCode) (sub : Byte) (s : State) : ptrValue (raise opc e sub s) = ptrValue s := rfl
@[simp] theorem abufByte_raise (opc : Byte) (e : ErrorCode) (sub : Byte) (s : State) (a : Nat) : abufByte (raise opc e sub s) a = abufByte s a := rfl
@[simp] theorem payloadBit_raise (opc : Byte) (e : ErrorCode) (sub : Byte) (s : State) (p : Nat) :
    payloadBit (raise opc e sub s) p = payloadBit s p := rfl

@[simp] theorem nsym_acknowledge (s : State) : nsym (acknowledge s) = nsym s := rfl
@[simp] theorem total_acknowledge (s : State) : total (acknowledge s) = total s := rfl
@[simp] theorem pbase_acknowledge (s : State) : pbase (acknowledge s) = pbase s := rfl
@[simp] theorem nnodes_acknowledge (s : State) : nnodes (acknowledge s) = nnodes s := rfl
@[simp] theorem root_acknowledge (s : State) : root (acknowledge s) = root s := rfl
@[simp] theorem alen_acknowledge (s : State) : alen (acknowledge s) = alen s := rfl
@[simp] theorem countOperand_acknowledge (s : State) : countOperand (acknowledge s) = countOperand s := rfl
@[simp] theorem lengthOperand_acknowledge (s : State) : lengthOperand (acknowledge s) = lengthOperand s := rfl
@[simp] theorem phaseSub_acknowledge (s : State) : phaseSub (acknowledge s) = phaseSub s := rfl
@[simp] theorem ptrValue_acknowledge (s : State) : ptrValue (acknowledge s) = ptrValue s := rfl
@[simp] theorem abufByte_acknowledge (s : State) (a : Nat) : abufByte (acknowledge s) a = abufByte s a := rfl
@[simp] theorem payloadBit_acknowledge (s : State) (p : Nat) :
    payloadBit (acknowledge s) p = payloadBit s p := rfl

@[simp] theorem nsym_accept (w : Word) (s : State) : nsym (accept w s) = nsym s := rfl
@[simp] theorem total_accept (w : Word) (s : State) : total (accept w s) = total s := rfl
@[simp] theorem pbase_accept (w : Word) (s : State) : pbase (accept w s) = pbase s := rfl
@[simp] theorem nnodes_accept (w : Word) (s : State) : nnodes (accept w s) = nnodes s := rfl
@[simp] theorem root_accept (w : Word) (s : State) : root (accept w s) = root s := rfl
@[simp] theorem alen_accept (w : Word) (s : State) : alen (accept w s) = alen s := rfl
@[simp] theorem phaseSub_accept (w : Word) (s : State) : phaseSub (accept w s) = phaseSub s := rfl
@[simp] theorem ptrValue_accept (w : Word) (s : State) : ptrValue (accept w s) = ptrValue s := rfl
@[simp] theorem abufByte_accept (w : Word) (s : State) (a : Nat) : abufByte (accept w s) a = abufByte s a := rfl
@[simp] theorem payloadBit_accept (w : Word) (s : State) (p : Nat) :
    payloadBit (accept w s) p = payloadBit s p := rfl

@[simp] theorem nsym_setOverrun (s : State) : nsym (setOverrun s) = nsym s := rfl
@[simp] theorem total_setOverrun (s : State) : total (setOverrun s) = total s := rfl
@[simp] theorem pbase_setOverrun (s : State) : pbase (setOverrun s) = pbase s := rfl
@[simp] theorem nnodes_setOverrun (s : State) : nnodes (setOverrun s) = nnodes s := rfl
@[simp] theorem root_setOverrun (s : State) : root (setOverrun s) = root s := rfl
@[simp] theorem alen_setOverrun (s : State) : alen (setOverrun s) = alen s := rfl
@[simp] theorem countOperand_setOverrun (s : State) : countOperand (setOverrun s) = countOperand s := rfl
@[simp] theorem lengthOperand_setOverrun (s : State) : lengthOperand (setOverrun s) = lengthOperand s := rfl
@[simp] theorem phaseSub_setOverrun (s : State) : phaseSub (setOverrun s) = phaseSub s := rfl
@[simp] theorem ptrValue_setOverrun (s : State) : ptrValue (setOverrun s) = ptrValue s := rfl
@[simp] theorem abufByte_setOverrun (s : State) (a : Nat) : abufByte (setOverrun s) a = abufByte s a := rfl
@[simp] theorem payloadBit_setOverrun (s : State) (p : Nat) :
    payloadBit (setOverrun s) p = payloadBit s p := rfl

@[simp] theorem nsym_setPtr (s : State) (v : Nat) : nsym (setPtr s v) = nsym s := rfl
@[simp] theorem total_setPtr (s : State) (v : Nat) : total (setPtr s v) = total s := rfl
@[simp] theorem pbase_setPtr (s : State) (v : Nat) : pbase (setPtr s v) = pbase s := rfl
@[simp] theorem nnodes_setPtr (s : State) (v : Nat) : nnodes (setPtr s v) = nnodes s := rfl
@[simp] theorem root_setPtr (s : State) (v : Nat) : root (setPtr s v) = root s := rfl
@[simp] theorem alen_setPtr (s : State) (v : Nat) : alen (setPtr s v) = alen s := rfl
@[simp] theorem countOperand_setPtr (s : State) (v : Nat) : countOperand (setPtr s v) = countOperand s := rfl
@[simp] theorem lengthOperand_setPtr (s : State) (v : Nat) : lengthOperand (setPtr s v) = lengthOperand s := rfl
@[simp] theorem phaseSub_setPtr (s : State) (v : Nat) : phaseSub (setPtr s v) = phaseSub s := rfl
@[simp] theorem abufByte_setPtr (s : State) (v : Nat) (a : Nat) : abufByte (setPtr s v) a = abufByte s a := rfl
@[simp] theorem payloadBit_setPtr (s : State) (v : Nat) (p : Nat) :
    payloadBit (setPtr s v) p = payloadBit s p := rfl

@[simp] theorem nsym_advancePtr (s : State) : nsym (advancePtr s) = nsym s := rfl
@[simp] theorem total_advancePtr (s : State) : total (advancePtr s) = total s := rfl
@[simp] theorem pbase_advancePtr (s : State) : pbase (advancePtr s) = pbase s := rfl
@[simp] theorem nnodes_advancePtr (s : State) : nnodes (advancePtr s) = nnodes s := rfl
@[simp] theorem root_advancePtr (s : State) : root (advancePtr s) = root s := rfl
@[simp] theorem alen_advancePtr (s : State) : alen (advancePtr s) = alen s := rfl
@[simp] theorem countOperand_advancePtr (s : State) : countOperand (advancePtr s) = countOperand s := rfl
@[simp] theorem lengthOperand_advancePtr (s : State) : lengthOperand (advancePtr s) = lengthOperand s := rfl
@[simp] theorem phaseSub_advancePtr (s : State) : phaseSub (advancePtr s) = phaseSub s := rfl
@[simp] theorem abufByte_advancePtr (s : State) (a : Nat) : abufByte (advancePtr s) a = abufByte s a := rfl
@[simp] theorem payloadBit_advancePtr (s : State) (p : Nat) :
    payloadBit (advancePtr s) p = payloadBit s p := rfl

@[simp] theorem countOperand_addCount (x : Symbol) (w : Word) (s : State) : countOperand (addCount x w s) = countOperand s := rfl
@[simp] theorem lengthOperand_addCount (x : Symbol) (w : Word) (s : State) : lengthOperand (addCount x w s) = lengthOperand s := rfl
@[simp] theorem phaseSub_addCount (x : Symbol) (w : Word) (s : State) : phaseSub (addCount x w s) = phaseSub s := rfl
@[simp] theorem ptrValue_addCount (x : Symbol) (w : Word) (s : State) : ptrValue (addCount x w s) = ptrValue s := rfl
@[simp] theorem abufByte_addCount (x : Symbol) (w : Word) (s : State) (a : Nat) : abufByte (addCount x w s) a = abufByte s a := rfl

@[simp] theorem nsym_withCodes (s : State) : nsym (withCodes s) = nsym s := rfl
@[simp] theorem total_withCodes (s : State) : total (withCodes s) = total s := rfl
@[simp] theorem pbase_withCodes (s : State) : pbase (withCodes s) = pbase s := rfl
@[simp] theorem alen_withCodes (s : State) : alen (withCodes s) = alen s := rfl
@[simp] theorem countOperand_withCodes (s : State) : countOperand (withCodes s) = countOperand s := rfl
@[simp] theorem lengthOperand_withCodes (s : State) : lengthOperand (withCodes s) = lengthOperand s := rfl
@[simp] theorem ptrValue_withCodes (s : State) : ptrValue (withCodes s) = ptrValue s := rfl
@[simp] theorem abufByte_withCodes (s : State) (a : Nat) : abufByte (withCodes s) a = abufByte s a := rfl
@[simp] theorem payloadBit_withCodes (s : State) (p : Nat) :
    payloadBit (withCodes s) p = payloadBit s p := rfl

@[simp] theorem nsym_putBit (base p : Nat) (c : Bool) (s : State) : nsym (putBit base p c s) = nsym s := rfl
@[simp] theorem total_putBit (base p : Nat) (c : Bool) (s : State) : total (putBit base p c s) = total s := rfl
@[simp] theorem pbase_putBit (base p : Nat) (c : Bool) (s : State) : pbase (putBit base p c s) = pbase s := rfl
@[simp] theorem nnodes_putBit (base p : Nat) (c : Bool) (s : State) : nnodes (putBit base p c s) = nnodes s := rfl
@[simp] theorem root_putBit (base p : Nat) (c : Bool) (s : State) : root (putBit base p c s) = root s := rfl
@[simp] theorem alen_putBit (base p : Nat) (c : Bool) (s : State) : alen (putBit base p c s) = alen s := rfl
@[simp] theorem countOperand_putBit (base p : Nat) (c : Bool) (s : State) : countOperand (putBit base p c s) = countOperand s := rfl
@[simp] theorem lengthOperand_putBit (base p : Nat) (c : Bool) (s : State) : lengthOperand (putBit base p c s) = lengthOperand s := rfl
@[simp] theorem phaseSub_putBit (base p : Nat) (c : Bool) (s : State) : phaseSub (putBit base p c s) = phaseSub s := rfl
@[simp] theorem ptrValue_putBit (base p : Nat) (c : Bool) (s : State) : ptrValue (putBit base p c s) = ptrValue s := rfl

@[simp] theorem nsym_readAny (s : State) : nsym (readAny s) = nsym s := rfl
@[simp] theorem total_readAny (s : State) : total (readAny s) = total s := rfl
@[simp] theorem pbase_readAny (s : State) : pbase (readAny s) = pbase s := rfl
@[simp] theorem nnodes_readAny (s : State) : nnodes (readAny s) = nnodes s := rfl
@[simp] theorem root_readAny (s : State) : root (readAny s) = root s := rfl
@[simp] theorem alen_readAny (s : State) : alen (readAny s) = alen s := rfl
@[simp] theorem countOperand_readAny (s : State) : countOperand (readAny s) = countOperand s := rfl
@[simp] theorem lengthOperand_readAny (s : State) : lengthOperand (readAny s) = lengthOperand s := rfl
@[simp] theorem phaseSub_readAny (s : State) : phaseSub (readAny s) = phaseSub s := rfl
@[simp] theorem ptrValue_readAny (s : State) : ptrValue (readAny s) = ptrValue s := rfl
@[simp] theorem abufByte_readAny (s : State) (a : Nat) : abufByte (readAny s) a = abufByte s a := rfl
@[simp] theorem payloadBit_readAny (s : State) (p : Nat) :
    payloadBit (readAny s) p = payloadBit s p := rfl

@[simp] theorem nsym_storeByte (d : Word) (s : State) : nsym (storeByte d s) = nsym s := rfl
@[simp] theorem total_storeByte (d : Word) (s : State) : total (storeByte d s) = total s := rfl
@[simp] theorem pbase_storeByte (d : Word) (s : State) : pbase (storeByte d s) = pbase s := rfl
@[simp] theorem nnodes_storeByte (d : Word) (s : State) : nnodes (storeByte d s) = nnodes s := rfl
@[simp] theorem root_storeByte (d : Word) (s : State) : root (storeByte d s) = root s := rfl
@[simp] theorem alen_storeByte (d : Word) (s : State) : alen (storeByte d s) = alen s := rfl
@[simp] theorem countOperand_storeByte (d : Word) (s : State) : countOperand (storeByte d s) = countOperand s := rfl
@[simp] theorem lengthOperand_storeByte (d : Word) (s : State) : lengthOperand (storeByte d s) = lengthOperand s := rfl
@[simp] theorem phaseSub_storeByte (d : Word) (s : State) : phaseSub (storeByte d s) = phaseSub s := rfl

end Sys2Proof.Machine
end

