-- ==== Sys2Proof/Laws/Memory.lean ====
section
/-! SUPPORT. The laws of the artifact buffer's list: reading after writing, and the canonical form that every
operation keeps (`20_memory.md` R60). -/

namespace Sys2Proof.Machine

@[simp] theorem Memory.lookup_nil (a : Nat) : Memory.lookup [] a = none := rfl

@[simp] theorem Memory.lookup_write_same (m : Memory) (a : Nat) (v : Byte) :
    Memory.lookup (Memory.write m a v) a = some v := by
  induction m with
  | nil => simp [Memory.write, Memory.lookup]
  | cons c m ih =>
    obtain ⟨k, w⟩ := c
    simp only [Memory.write]
    split
    · simp [Memory.lookup]
    · split
      · simp [Memory.lookup]
      · simp_all [Memory.lookup]

theorem Memory.lookup_write_other (m : Memory) {a b : Nat} (v : Byte) (h : b ≠ a) :
    Memory.lookup (Memory.write m a v) b = Memory.lookup m b := by
  induction m with
  | nil => simp [Memory.write, Memory.lookup]; omega
  | cons c m ih =>
    obtain ⟨k, w⟩ := c
    simp only [Memory.write]
    split
    · subst k
      simp only [Memory.lookup, if_neg (Ne.symm h)]
    · split
      · simp only [Memory.lookup]
        split_ifs <;> first | rfl | omega
      · simp only [Memory.lookup, ih]

/-- Reading any address after a write. -/
theorem Memory.lookup_write (m : Memory) (a b : Nat) (v : Byte) :
    Memory.lookup (Memory.write m a v) b = if b = a then some v else Memory.lookup m b := by
  split
  · subst b; exact lookup_write_same m a v
  · exact lookup_write_other m v ‹_›

/-- The addresses listed after a write are the old ones and the one written. -/
theorem Memory.mem_write (m : Memory) (a : Nat) (v : Byte) (c : Host.Cell) (h : c ∈ Memory.write m a v) :
    c.1 = a ∨ c ∈ m := by
  induction m with
  | nil => simp_all [Memory.write]
  | cons d m ih =>
    obtain ⟨k, w⟩ := d
    simp only [Memory.write] at h
    split at h
    · rcases List.mem_cons.1 h with h | h
      · exact .inl (by rw [h])
      · exact .inr (List.mem_cons_of_mem _ h)
    · split at h
      · rcases List.mem_cons.1 h with h | h
        · exact .inl (by rw [h])
        · exact .inr h
      · rcases List.mem_cons.1 h with h | h
        · exact .inr (by simp [h])
        · exact (ih h).imp id (List.mem_cons_of_mem _)

/-- A write keeps the canonical form. -/
theorem Memory.wf_write {m : Memory} (h : Memory.wf m) (a : Nat) (v : Byte) :
    Memory.wf (Memory.write m a v) := by
  induction m with
  | nil => simp [Memory.wf, Memory.write]
  | cons c m ih =>
    obtain ⟨k, w⟩ := c
    simp only [Memory.wf, List.map_cons, List.pairwise_cons, List.mem_map, forall_exists_index, and_imp,
      forall_apply_eq_imp_iff₂] at h
    simp only [Memory.write]
    split
    · subst k
      simpa [Memory.wf] using h
    · split
      · simp only [Memory.wf, List.map_cons, List.pairwise_cons, List.mem_cons, List.mem_map, forall_eq_or_imp,
          forall_exists_index, and_imp, forall_apply_eq_imp_iff₂]
        exact ⟨⟨‹_›, fun c hc => lt_trans ‹_› (h.1 c hc)⟩, h⟩
      · simp only [Memory.wf, List.map_cons, List.pairwise_cons, List.mem_map, forall_exists_index, and_imp,
          forall_apply_eq_imp_iff₂]
        refine ⟨fun c hc => ?_, ih h.2⟩
        rcases Memory.mem_write m a v c hc with h' | h'
        · omega
        · exact h.1 c h'

/-- A write keeps every listed address below a bound that the written one meets. -/
theorem Memory.below_write {m : Memory} {n a : Nat} (h : ∀ c ∈ m, c.1 < n) (ha : a < n) (v : Byte) :
    ∀ c ∈ Memory.write m a v, c.1 < n := fun c hc =>
  (Memory.mem_write m a v c hc).elim (fun e => e ▸ ha) (h c)

theorem Memory.wf_writeBytes {m : Memory} (h : Memory.wf m) (a : Nat) (vs : List Byte) :
    Memory.wf (Memory.writeBytes m a vs) := by
  induction vs generalizing m a with
  | nil => exact h
  | cons v vs ih => exact ih (Memory.wf_write h a v) (a + 1)

theorem Memory.below_writeBytes {m : Memory} {n a : Nat} {vs : List Byte} (h : ∀ c ∈ m, c.1 < n)
    (ha : a + vs.length ≤ n) : ∀ c ∈ Memory.writeBytes m a vs, c.1 < n := by
  induction vs generalizing m a with
  | nil => exact h
  | cons v vs ih =>
    simp only [List.length_cons] at ha
    exact ih (Memory.below_write h (by omega) v) (by omega)

/-- Reading any address after writing consecutive bytes. -/
theorem Memory.lookup_writeBytes (m : Memory) (a b : Nat) (vs : List Byte) :
    Memory.lookup (Memory.writeBytes m a vs) b =
      if h : a ≤ b ∧ b - a < vs.length then some (vs[b - a]'h.2) else Memory.lookup m b := by
  induction vs generalizing m a with
  | nil => simp [Memory.writeBytes]
  | cons v vs ih =>
    simp only [Memory.writeBytes, ih, Memory.lookup_write, List.length_cons]
    rcases Nat.lt_trichotomy b a with hb | hb | hb
    · rw [dif_neg (by omega), dif_neg (by omega), if_neg (by omega)]
    · subst hb
      rw [dif_neg (by omega), dif_pos (by omega), if_pos rfl]
      simp
    · by_cases hlt : b - a < vs.length + 1
      · rw [dif_pos (by omega), dif_pos (by omega)]
        have : b - a = (b - (a + 1)) + 1 := by omega
        simp [this]
      · rw [dif_neg (by omega), dif_neg (by omega), if_neg (by omega)]

@[simp] theorem bytesOf_length (n v : Nat) : (bytesOf n v).length = n := by simp [bytesOf]

theorem Memory.wf_memWrite {m : Memory} (h : Memory.wf m) (a n v : Nat) : Memory.wf (memWrite m a n v) :=
  Memory.wf_writeBytes h a _

theorem Memory.below_memWrite {m : Memory} {b a n : Nat} (h : ∀ c ∈ m, c.1 < b) (ha : a + n ≤ b) (v : Nat) :
    ∀ c ∈ memWrite m a n v, c.1 < b :=
  Memory.below_writeBytes h (by simpa using ha)

/-- The header's entries keep the canonical form. -/
theorem Memory.wf_writeEntries {m : Memory} (h : Memory.wf m) (i : Nat) (es : List (Symbol × Word)) :
    Memory.wf (writeEntries m i es) := by
  induction es generalizing m i with
  | nil => exact h
  | cons e es ih => exact ih (Memory.wf_memWrite (Memory.wf_memWrite h _ _ _) _ _ _) (i + 1)

theorem Memory.below_writeEntries {m : Memory} {b i : Nat} {es : List (Symbol × Word)} (h : ∀ c ∈ m, c.1 < b)
    (hb : 2 + 5 * (i + es.length) ≤ b) : ∀ c ∈ writeEntries m i es, c.1 < b := by
  induction es generalizing m i with
  | nil => exact h
  | cons e es ih =>
    simp only [List.length_cons] at hb
    exact ih (Memory.below_memWrite (Memory.below_memWrite h (by omega) _) (by omega) _) (by omega)

/-- WR_HEADER keeps the canonical form. -/
theorem Memory.wf_headerWritten {s : State} (h : Memory.wf s.abuf) : Memory.wf (headerWritten s) :=
  Memory.wf_memWrite (Memory.wf_writeEntries (Memory.wf_memWrite h _ _ _) _ _) _ _ _

/-- PutBit keeps the canonical form. -/
theorem Memory.wf_putBit {s : State} (h : Memory.wf s.abuf) (base p : Nat) (c : Bool) :
    Memory.wf (putBit base p c s).abuf := Memory.wf_write h _ _

theorem Memory.wf_putBits {s : State} (h : Memory.wf s.abuf) (base p : Nat) (cs : List Bool) :
    Memory.wf (putBits base p cs s).abuf := by
  induction cs generalizing s p with
  | nil => exact h
  | cons c cs ih => exact ih (Memory.wf_putBit h base p c) (p + 1)

/-- The host's byte port keeps the canonical form. -/
theorem Memory.wf_storeByte {s : State} (h : Memory.wf s.abuf) (d : Word) :
    Memory.wf (storeByte d s).abuf := Memory.wf_write h _ _

/-- The reset state's buffer has the canonical form. -/
theorem Memory.wf_reset : Memory.wf State.reset.abuf := List.Pairwise.nil

end Sys2Proof.Machine
end

