-- ==== Sys2Proof/Laws/Ops.lean ====
section
/-! SUPPORT. The laws of the shared operations: tables read after they are written, the present symbols, the
sizes of `00_scope.md` R10, the phase check, the bit loops of the packer and the unpacker. -/

namespace Sys2Proof.Machine

/-! ### Tables -/

theorem freqAt_eq_getElem (f : Vector Word 256) (x : Symbol) :
    freqAt f x = f[x.toNat]'x.isLt := by
  simp [freqAt, List.getD_eq_getElem?_getD, x.isLt]

theorem codeAt_eq_getElem (t : Vector CodeEntry 256) (x : Symbol) :
    codeAt t x = t[x.toNat]'x.isLt := by
  simp [codeAt, List.getD_eq_getElem?_getD, x.isLt]

theorem nodeAt_eq_getElem (t : Vector Node 511) (i : NodeIdx) : nodeAt t i = t[i.val] := by
  simp [nodeAt, List.getD_eq_getElem?_getD, i.isLt]

theorem sym_toNat_ne {x y : Symbol} (h : x ≠ y) : x.toNat ≠ y.toNat := fun e => h (BitVec.eq_of_toNat_eq e)

theorem freqAt_setFreq (f : Vector Word 256) (x y : Symbol) (v : Word) :
    freqAt (setFreq f x v) y = if y = x then v else freqAt f y := by
  rw [freqAt_eq_getElem, freqAt_eq_getElem]
  by_cases h : y = x
  · subst h; simp [setFreq]
  · simp [setFreq, h, Ne.symm (sym_toNat_ne h)]

theorem codeAt_setCode (t : Vector CodeEntry 256) (x y : Symbol) (e : CodeEntry) :
    codeAt (setCode t x e) y = if y = x then e else codeAt t y := by
  rw [codeAt_eq_getElem, codeAt_eq_getElem]
  by_cases h : y = x
  · subst h; simp [setCode]
  · simp [setCode, h, Ne.symm (sym_toNat_ne h)]

@[simp] theorem freqAt_zeroFreq (x : Symbol) : freqAt zeroFreq x = 0 := by
  simp [freqAt_eq_getElem, zeroFreq]

@[simp] theorem codeAt_emptyCodes (x : Symbol) : codeAt emptyCodes x = CodeEntry.absent := by
  simp [codeAt_eq_getElem, emptyCodes]

@[simp] theorem nodeIdx_val {k : Nat} (h : k < 511) : (nodeIdx k).val = k := Nat.mod_eq_of_lt h

/-- Two frequency tables with the same counts are equal. -/
theorem freq_ext {f g : Vector Word 256} (h : ∀ x, freqAt f x = freqAt g x) : f = g := by
  apply Vector.ext
  intro i hi
  have := h (BitVec.ofNat 8 i)
  rw [freqAt_eq_getElem, freqAt_eq_getElem] at this
  simpa [Nat.mod_eq_of_lt hi] using this

/-! ### writeArena -/

theorem writeArena_aux (arena : List Node) (k : Nat) (t : Vector Node 511) (i : Nat) (hi : i < 511) :
    ((arena.zipIdx k).foldl (fun t p => t.setIfInBounds p.2 p.1) t)[i] =
      if h : k ≤ i ∧ i - k < arena.length then arena[i - k]'h.2 else t[i] := by
  induction arena generalizing k t with
  | nil => simp
  | cons nd arena ih =>
    simp only [List.zipIdx_cons, List.foldl_cons, ih, List.length_cons]
    rcases Nat.lt_trichotomy i k with h | h | h
    · rw [dif_neg (by omega), dif_neg (by omega), Vector.getElem_setIfInBounds]
      simp [show k ≠ i by omega]
    · subst h
      rw [dif_neg (by omega), dif_pos (by omega), Vector.getElem_setIfInBounds]
      simp
    · by_cases hlt : i - k < arena.length + 1
      · rw [dif_pos (by omega), dif_pos (by omega)]
        have : i - k = (i - (k + 1)) + 1 := by omega
        simp [this]
      · rw [dif_neg (by omega), dif_neg (by omega), Vector.getElem_setIfInBounds]
        simp [show k ≠ i by omega]

/-- NODE after BUILD's writes: the arena's entries, then the old contents (`10_state.md` R35). -/
theorem nodeAt_writeArena (t : Vector Node 511) (arena : List Node) (i : NodeIdx) :
    nodeAt (writeArena t arena) i = if h : i.val < arena.length then arena[i.val]'h else nodeAt t i := by
  rw [nodeAt_eq_getElem, nodeAt_eq_getElem, writeArena, writeArena_aux _ _ _ _ i.isLt]
  simp

theorem writeArena_take (t : Vector Node 511) (arena : List Node) (h : arena.length ≤ 511) :
    (writeArena t arena).toList.take arena.length = arena := by
  apply List.ext_getElem
  · simp; omega
  · intro i h1 h2
    have hi : i < 511 := by omega
    have := nodeAt_writeArena t arena ⟨i, hi⟩
    rw [nodeAt_eq_getElem] at this
    simp [h2] at this
    simpa using this

/-! ### The present symbols -/

/-- The entries of a list of counts that starts at symbol k. -/
theorem mem_entries_aux (l : List Word) (k : Nat) (hk : k + l.length ≤ 256) (x : Symbol) (w : Word) :
    (x, w) ∈ ((l.zipIdx k).filterMap fun p => if p.1 = 0 then none else some (BitVec.ofNat 8 p.2, p.1)) ↔
      w ≠ 0 ∧ ∃ i, ∃ h : i < l.length, x.toNat = k + i ∧ l[i] = w := by
  simp only [List.mem_filterMap, Prod.exists, List.mk_mem_zipIdx_iff_le_and_getElem?_sub]
  constructor
  · rintro ⟨v, j, ⟨hj, hv⟩, h⟩
    split at h
    · cases h
    · obtain ⟨hlt, hv⟩ := List.getElem?_eq_some_iff.1 hv
      simp only [Option.some.injEq, Prod.mk.injEq] at h
      obtain ⟨rfl, rfl⟩ := h
      refine ⟨‹_›, j - k, hlt, ?_, hv⟩
      rw [BitVec.toNat_ofNat, Nat.mod_eq_of_lt (by omega)]; omega
  · rintro ⟨hw, i, hi, hx, hv⟩
    refine ⟨w, k + i, ⟨by omega, ?_⟩, ?_⟩
    · rw [Nat.add_sub_cancel_left, List.getElem?_eq_getElem hi, hv]
    · rw [if_neg hw]
      simp only [Option.some.injEq, Prod.mk.injEq, and_true]
      apply BitVec.eq_of_toNat_eq
      rw [BitVec.toNat_ofNat, Nat.mod_eq_of_lt (by omega), hx]

/-- The entries are the present symbols with their counts (`10_state.md` R33). -/
theorem mem_presentEntries (f : Vector Word 256) (x : Symbol) (w : Word) :
    (x, w) ∈ presentEntries f ↔ w ≠ 0 ∧ freqAt f x = w := by
  rw [presentEntries, mem_entries_aux _ 0 (by simp), freqAt_eq_getElem]
  constructor
  · rintro ⟨hw, i, hi, hx, hv⟩
    refine ⟨hw, ?_⟩
    have : x.toNat = i := by omega
    subst this
    simpa using hv
  · rintro ⟨hw, hv⟩
    exact ⟨hw, x.toNat, by simpa using x.isLt, by omega, by simpa using hv⟩

theorem entries_sorted_aux (l : List Word) (k : Nat) (hk : k + l.length ≤ 256) :
    ((l.zipIdx k).filterMap fun p => if p.1 = 0 then none else some (BitVec.ofNat 8 p.2, p.1)).Pairwise
      fun (p q : Symbol × Word) => p.1.toNat < q.1.toNat := by
  induction l generalizing k with
  | nil => simp
  | cons v l ih =>
    simp only [List.length_cons] at hk
    rw [List.zipIdx_cons, List.filterMap_cons]
    split
    · exact ih (k + 1) (by omega)
    · rename_i e he
      split at he
      · cases he
      · simp only [Option.some.injEq] at he
        subst he
        refine List.pairwise_cons.2 ⟨?_, ih (k + 1) (by omega)⟩
        rintro ⟨x, w⟩ hx
        obtain ⟨_, i, hi, hx', _⟩ := (mem_entries_aux l (k + 1) (by omega) x w).1 hx
        simp only [hx', BitVec.toNat_ofNat]
        rw [Nat.mod_eq_of_lt (by omega)]; omega

/-- The entries stand in strictly ascending symbol order (`45_tree_serializer.md` R211). -/
theorem presentEntries_sorted (f : Vector Word 256) :
    (presentEntries f).Pairwise fun p q => p.1.toNat < q.1.toNat :=
  entries_sorted_aux _ 0 (by simp)

theorem presentEntries_length_le (f : Vector Word 256) : (presentEntries f).length ≤ 256 := by
  have h := List.length_filterMap_le
    (fun p : Word × Nat => if p.1 = 0 then none else some (BitVec.ofNat 8 p.2, p.1)) f.toList.zipIdx
  simpa [presentEntries] using h

/-! ### Sizes (`00_scope.md` R10, R11) -/

theorem nsym_le (s : State) : nsym s ≤ 256 := presentEntries_length_le s.freq

theorem pbase_le (s : State) : pbase s ≤ 1286 := by have := nsym_le s; unfold pbase; omega

theorem abufBytes_ge (c : Config) : 2048 ≤ c.abufBytes :=
  (Nat.pow_le_pow_right (by decide) (by unfold Config.aw; omega) : 2 ^ 11 ≤ 2 ^ c.aw)

theorem abufBytes_le (c : Config) : c.abufBytes ≤ 2 ^ 24 :=
  Nat.pow_le_pow_right (by decide) (by unfold Config.aw; omega)

theorem abufBytes_pos (c : Config) : 0 < c.abufBytes := lt_of_lt_of_le (by decide) (abufBytes_ge c)

theorem ptrValue_lt (s : State) : ptrValue s < s.cfg.abufBytes := Nat.mod_lt _ (abufBytes_pos _)

/-- ABUF_PTR after it is set (`10_state.md` R43): the value modulo ABUF_BYTES. -/
theorem setPtr_abufPtr_toNat (s : State) (v : Nat) : (setPtr s v).abufPtr.toNat = v % s.cfg.abufBytes := by
  have h := Nat.mod_lt v (abufBytes_pos s.cfg)
  have := abufBytes_le s.cfg
  rw [setPtr_abufPtr, BitVec.toNat_ofNat, Nat.mod_eq_of_lt (by omega)]

@[simp] theorem ptrValue_setPtr (s : State) (v : Nat) : ptrValue (setPtr s v) = v % s.cfg.abufBytes := by
  rw [ptrValue, setPtr_abufPtr_toNat, setPtr_cfg, Nat.mod_mod]

@[simp] theorem ptrValue_advancePtr (s : State) :
    ptrValue (advancePtr s) = (ptrValue s + 1) % s.cfg.abufBytes := ptrValue_setPtr _ _

/-! ### The artifact buffer's bytes -/

theorem abufByte_of_lookup {s t : State} (hr : t.resets = s.resets) {a : Nat}
    (h : Memory.lookup t.abuf a = Memory.lookup s.abuf a) : abufByte t a = abufByte s a := by
  rw [abufByte, abufByte, h, hr]

/-- Reading a byte after a write of the buffer. -/
theorem abufByte_write (s : State) (a b : Nat) (v : Byte) :
    abufByte { s with abuf := Memory.write s.abuf a v } b = if b = a then v else abufByte s b := by
  simp only [abufByte, Memory.lookup_write]
  split <;> rfl

/-- Reading a byte after consecutive bytes were written. -/
theorem abufByte_writeBytes (s : State) (a b : Nat) (vs : List Byte) :
    abufByte { s with abuf := Memory.writeBytes s.abuf a vs } b =
      if h : a ≤ b ∧ b - a < vs.length then vs[b - a]'h.2 else abufByte s b := by
  simp only [abufByte, Memory.lookup_writeBytes]
  split <;> rfl

/-! ### The phase check -/

/-- What the phase check answers (`60_exceptions.md` R251). -/
theorem checkPhase_legal {op : Opcode} {s : State} {body : Out} (h : phaseLegal op s.phase = true) :
    checkPhase op s body = body := if_pos h

theorem checkPhase_illegal {op : Opcode} {s : State} {body : Out} (h : phaseLegal op s.phase = false) :
    checkPhase op s body = .next (raise op.code .sequence (phaseSub s) s) := by
  simp [checkPhase, h]

/-- If a checked command answers a next state, it is the body's or the SEQUENCE error's. -/
theorem checkPhase_next {op : Opcode} {s t : State} {body : Out} (h : checkPhase op s body = .next t) :
    phaseLegal op s.phase = true ∧ body = .next t
      ∨ phaseLegal op s.phase = false ∧ t = raise op.code .sequence (phaseSub s) s := by
  unfold checkPhase at h
  split at h
  · exact .inl ⟨‹_›, h⟩
  · rename_i hl; cases h; exact .inr ⟨by simpa using hl, rfl⟩

/-! ### The packer's loop -/

/-- PutBit changes ABUF and nothing else. -/
theorem putBits_eq (base p : Nat) (cs : List Bool) (s : State) :
    putBits base p cs s = { s with abuf := (putBits base p cs s).abuf } := by
  induction cs generalizing p s with
  | nil => rfl
  | cons c cs ih => rw [putBits, ih]; rfl

@[simp] theorem putBits_freq (base p : Nat) (cs : List Bool) (s : State) :
    (putBits base p cs s).freq = s.freq := by rw [putBits_eq]

@[simp] theorem putBits_resets (base p : Nat) (cs : List Bool) (s : State) :
    (putBits base p cs s).resets = s.resets := by rw [putBits_eq]

@[simp] theorem pbase_putBits (base p : Nat) (cs : List Bool) (s : State) :
    pbase (putBits base p cs s) = pbase s := by simp [pbase, nsym]

@[simp] theorem codeBits_length (e : CodeEntry) : (codeBits e).length = e.len.toNat := by simp [codeBits]

/-- Appending a code changes ABUF and BITLEN and nothing else. -/
theorem appendCode_eq (e : CodeEntry) (s : State) :
    appendCode e s = { s with
      abuf := (putBits (pbase s) s.bitLen.toNat (codeBits e) s).abuf
      bitLen := BitVec.ofNat 32 (s.bitLen.toNat + e.len.toNat) } := by
  rw [appendCode, putBits_eq]

theorem abufByte_putBit (base p : Nat) (c : Bool) (s : State) (a : Nat) :
    abufByte (putBit base p c s) a =
      if a = base + p / 8 then putBitByte (abufByte s a) (p % 8) c else abufByte s a := by
  rw [putBit, abufByte_write]
  split
  · subst a; rfl
  · rfl

/-- The bits of the byte PutBit writes (`43_bit_packer.md` R171): bits at positions before r kept, bit r set
to c, bits after r zero; position j is bit 7 − j. -/
theorem bitOfByte_putBitByte (old : Byte) (r : Nat) (hr : r < 8) (c : Bool) (j : Nat) (hj : j < 8) :
    (putBitByte old r c).getLsbD (7 - j) =
      if j < r then old.getLsbD (7 - j) else if j = r then c else false := by
  interval_cases r <;> interval_cases j <;> revert old c <;> decide +kernel

/-- A payload bit after one PutBit, in the same byte or another (`43_bit_packer.md` R171). -/
theorem payloadBit_putBit (p : Nat) (c : Bool) (s : State) (q : Nat) :
    payloadBit (putBit (pbase s) p c s) q =
      if q / 8 = p / 8 then (if q < p then payloadBit s q else if q = p then c else false)
      else payloadBit s q := by
  simp only [payloadBit, pbase_putBit, abufByte_putBit, bitOfByte]
  by_cases h : q / 8 = p / 8
  · rw [if_pos (by omega), if_pos h, bitOfByte_putBitByte _ _ (by omega) _ _ (by omega)]
    have h8 := Nat.div_add_mod q 8
    have h8' := Nat.div_add_mod p 8
    split_ifs <;> first | rfl | omega
  · rw [if_neg (by omega), if_neg h]

/-! ### The unpacker's loop -/

/-- What the traversal's end says (`44_bit_unpacker.md` R190): a symbol is reached after at least one and at
most `left` bits; the absent byte is that of a bit of the stream. -/
theorem decodeWalk_end (s : State) (left : Nat) (i : NodeIdx) (p : Nat) :
    (∀ x q, decodeWalk s left i p = .symbol x q → p < q ∧ q ≤ p + left) ∧
      (∀ a, decodeWalk s left i p = .absent a →
        ∃ q, p ≤ q ∧ q < p + left ∧ a = pbase s + q / 8 ∧ s.cfg.abufBytes ≤ a) := by
  induction left generalizing i p with
  | zero => simp [decodeWalk]
  | succ left ih =>
    rw [decodeWalk]
    split
    · rename_i h
      refine ⟨by simp, fun a ha => ⟨p, le_rfl, by omega, ?_⟩⟩
      unfold payloadBit? at h
      split at h
      · cases h
      · simp only [WalkEnd.absent.injEq] at ha; omega
    · split
      · refine ⟨fun x q h => ?_, by simp⟩
        simp only [WalkEnd.symbol.injEq] at h
        omega
      · obtain ⟨h1, h2⟩ := ih ((nodeAt s.node i).child ‹_›) (p + 1)
        refine ⟨fun x q h => ?_, fun a h => ?_⟩
        · have := h1 x q h; omega
        · obtain ⟨q, _, _, hq⟩ := h2 a h
          exact ⟨q, by omega, by omega, hq⟩

/-! ### Events -/

theorem step_nil {s : State} (h : s.pending = []) : step s = engineTurn s := by simp [step, h]

theorem step_cons {s : State} {e : Event} {rest : List Event} (h : s.pending = e :: rest) :
    step s = applyEvent e { s with pending := rest } := by simp [step, h]

end Sys2Proof.Machine
end

