-- ==== Sys2Proof/Laws/Exec.lean ====
section
/-! SUPPORT. One inversion lemma per command: if its meaning answers a next state, that state is one of those
listed, each with the checks that lead to it (`60_exceptions.md` R255). Callers cite these and do not unfold
the meanings. -/

namespace Sys2Proof.Machine

variable {s t : State}

theorem phaseLegal_load {ph : Phase} : (ph == .load) = true ↔ ph = .load := by simp

theorem execNop_next (h : execNop s = .next t) : t = complete s := by cases h; rfl

theorem execClear_next (h : execClear s = .next t) :
    t = complete (setResults 0 0 (acknowledge (emptyStream { s with freq := zeroFreq, phase := .load }))) := by
  cases h; rfl

theorem execErrAck_next (h : execErrAck s = .next t) : t = complete (acknowledge s) := by cases h; rfl

theorem execStrmRst_next (h : execStrmRst s = .next t) : t = complete (emptyStream s) := by cases h; rfl

theorem execRewind_next (h : execRewind s = .next t) : t = complete { s with bitPos := 0 } := by cases h; rfl

theorem execRdFreq_next {x : Symbol} (h : execRdFreq x s = .next t) :
    t = complete (setResults (freqAt s.freq x) (BitVec.ofNat 32 (nsym s)) s) := by cases h; rfl

/-- FREQ_ADD (`40_frequency_table.md` R110). -/
theorem execFreqAdd_next {x : Symbol} (h : execFreqAdd x s = .next t) :
    (s.phase ≠ .load ∧ t = raise Opcode.freqAdd.code .sequence (phaseSub s) s)
      ∨ (s.phase = .load ∧ countOperand s = 0 ∧ t = raise Opcode.freqAdd.code .operand 0x01 s)
      ∨ (s.phase = .load ∧ countOperand s ≠ 0 ∧ 2 ^ 32 - 1 < total s + countOperand s
          ∧ t = raise Opcode.freqAdd.code .overflow 0x01 s)
      ∨ (s.phase = .load ∧ countOperand s ≠ 0 ∧ total s + countOperand s ≤ 2 ^ 32 - 1
          ∧ t = complete (countResults x (addCount x s.argLat s))) := by
  rcases checkPhase_next h with ⟨hp, h⟩ | ⟨hp, h⟩
  · have hl : s.phase = .load := by simpa [phaseLegal] using hp
    split at h
    · cases h; exact .inr (.inl ⟨hl, ‹_›, rfl⟩)
    · split at h
      · cases h; exact .inr (.inr (.inl ⟨hl, ‹_›, ‹_›, rfl⟩))
      · cases h; exact .inr (.inr (.inr ⟨hl, ‹_›, by omega, rfl⟩))
  · exact .inl ⟨by simpa [phaseLegal] using hp, h⟩

/-- BUILD (`41_tree_builder.md` R130, R131). -/
theorem execBuild_next (h : execBuild s = .next t) :
    (s.phase ≠ .load ∧ t = raise Opcode.build.code .sequence (phaseSub s) s)
      ∨ (s.phase = .load ∧ nsym s = 0 ∧ t = raise Opcode.build.code .emptyInput 0x00 s)
      ∨ (s.phase = .load ∧ nsym s ≠ 0
          ∧ t = complete (setResults (BitVec.ofNat 32 (2 * nsym s - 2)) (BitVec.ofNat 32 (2 * nsym s - 1))
              { s with node := writeArena s.node (buildArena s.freq), phase := .built })) := by
  rcases checkPhase_next h with ⟨hp, h⟩ | ⟨hp, h⟩
  · have hl : s.phase = .load := by simpa [phaseLegal] using hp
    split at h
    · cases h; exact .inr (.inl ⟨hl, ‹_›, rfl⟩)
    · cases h; exact .inr (.inr ⟨hl, ‹_›, rfl⟩)
  · exact .inl ⟨by simpa [phaseLegal] using hp, h⟩

/-- RD_NODE (`41_tree_builder.md` R135). -/
theorem execRdNode_next {idx : BitVec 9} (h : execRdNode idx s = .next t) :
    (s.phase = .load ∧ t = raise Opcode.rdNode.code .sequence (phaseSub s) s)
      ∨ (s.phase ≠ .load ∧ nnodes s ≤ idx.toNat ∧ t = raise Opcode.rdNode.code .operand 0x02 s)
      ∨ (s.phase ≠ .load ∧ idx.toNat < nnodes s
          ∧ t = complete (setResults (nodeWord (nodeAt s.node (nodeIdx idx.toNat)))
              (nodeAt s.node (nodeIdx idx.toNat)).weight s)) := by
  rcases checkPhase_next h with ⟨hp, h⟩ | ⟨hp, h⟩
  · have hl : s.phase ≠ .load := by simpa [phaseLegal] using hp
    split at h
    · cases h; exact .inr (.inl ⟨hl, ‹_›, rfl⟩)
    · cases h; exact .inr (.inr ⟨hl, by omega, rfl⟩)
  · exact .inl ⟨by simpa [phaseLegal] using hp, h⟩

/-- GEN_CODES (`42_code_table.md` R150). -/
theorem execGenCodes_next (h : execGenCodes s = .next t) :
    (s.phase = .load ∧ t = raise Opcode.genCodes.code .sequence (phaseSub s) s)
      ∨ (s.phase ≠ .load
          ∧ t = complete (setResults
              (BitVec.ofNat 32 (weightedPathLength s.freq (withCodes s).code))
              (BitVec.ofNat 32 (weightedPathLength s.freq (withCodes s).code / 2 ^ 32)) (withCodes s))) := by
  rcases checkPhase_next h with ⟨hp, h⟩ | ⟨hp, h⟩
  · cases h; exact .inr ⟨by simpa [phaseLegal] using hp, rfl⟩
  · exact .inl ⟨by simpa [phaseLegal] using hp, h⟩

/-- RD_CODE (`42_code_table.md` R155). -/
theorem execRdCode_next {x : Symbol} {w : BitVec 3} (h : execRdCode x w s = .next t) :
    (s.phase ≠ .coded ∧ t = raise Opcode.rdCode.code .sequence (phaseSub s) s)
      ∨ (s.phase = .coded
          ∧ t = complete (setResults ((codeAt s.code x).len.setWidth 32) (codeWord (codeAt s.code x).val w)
              s)) := by
  rcases checkPhase_next h with ⟨hp, h⟩ | ⟨hp, h⟩
  · cases h; exact .inr ⟨by simpa [phaseLegal] using hp, rfl⟩
  · exact .inl ⟨by simpa [phaseLegal] using hp, h⟩

/-- ENC_SYM (`43_bit_packer.md` R170, R172). -/
theorem execEncSym_next {x : Symbol} (h : execEncSym x s = .next t) :
    (s.phase ≠ .coded ∧ t = raise Opcode.encSym.code .sequence (phaseSub s) s)
      ∨ (s.phase = .coded ∧ (codeAt s.code x).len = 0
          ∧ t = raise Opcode.encSym.code .unknownSymbol x s)
      ∨ (s.phase = .coded ∧ (codeAt s.code x).len ≠ 0
          ∧ s.cfg.abufBytes < pbase s + ceil8 (s.bitLen.toNat + (codeAt s.code x).len.toNat)
          ∧ t = raise Opcode.encSym.code .capacity 0x01 s)
      ∨ (s.phase = .coded ∧ (codeAt s.code x).len ≠ 0
          ∧ pbase s + ceil8 (s.bitLen.toNat + (codeAt s.code x).len.toNat) ≤ s.cfg.abufBytes
          ∧ t = complete (appendResults (codeAt s.code x) (appendCode (codeAt s.code x) s))) := by
  rcases checkPhase_next h with ⟨hp, h⟩ | ⟨hp, h⟩
  · have hl : s.phase = .coded := by simpa [phaseLegal] using hp
    split at h
    · cases h; exact .inr (.inl ⟨hl, ‹_›, rfl⟩)
    · split at h
      · cases h; exact .inr (.inr (.inl ⟨hl, ‹_›, ‹_›, rfl⟩))
      · cases h; exact .inr (.inr (.inr ⟨hl, ‹_›, by omega, rfl⟩))
  · exact .inl ⟨by simpa [phaseLegal] using hp, h⟩

/-- DEC_SYM (`44_bit_unpacker.md` R190): SEQUENCE, end of stream, a symbol, or CORRUPT_STREAM. -/
theorem execDecSym_next (h : execDecSym s = .next t) :
    (s.phase = .load ∧ t = raise Opcode.decSym.code .sequence (phaseSub s) s)
      ∨ (s.phase ≠ .load ∧ s.bitPos = s.bitLen ∧ t = complete (setResults 0x100 0 s))
      ∨ (s.phase ≠ .load ∧ s.bitPos ≠ s.bitLen
          ∧ (t = raise Opcode.decSym.code .corruptStream 0x11 s
            ∨ t = raise Opcode.decSym.code .corruptStream 0x10 s
            ∨ ∃ x p, s.bitPos.toNat < p
                ∧ (p = s.bitPos.toNat + 1 ∨ p ≤ s.bitPos.toNat + (s.bitLen.toNat - s.bitPos.toNat))
                ∧ t = complete (decoded x p s))) := by
  rcases checkPhase_next h with ⟨hp, h⟩ | ⟨hp, h⟩
  · have hl : s.phase ≠ .load := by simpa [phaseLegal] using hp
    split at h
    · cases h; exact .inr (.inl ⟨hl, ‹_›, rfl⟩)
    · rename_i hne
      refine .inr (.inr ⟨hl, hne, ?_⟩)
      split at h
      · unfold decodeSingle at h
        split at h
        · cases h
        · cases h; exact .inl rfl
        · cases h; exact .inr (.inr ⟨_, _, by omega, .inl rfl, rfl⟩)
      · unfold decodeTree at h
        split at h
        · rename_i x p hw
          cases h
          have := (decodeWalk_end s _ _ _).1 x p hw
          exact .inr (.inr ⟨x, p, this.1, .inr this.2, rfl⟩)
        · cases h; exact .inr (.inl rfl)
        · cases h
  · exact .inl ⟨by simpa [phaseLegal] using hp, h⟩

/-- WR_HEADER (`45_tree_serializer.md` R213). -/
theorem execWrHeader_next (h : execWrHeader s = .next t) :
    (s.phase = .load ∧ t = raise Opcode.wrHeader.code .sequence (phaseSub s) s)
      ∨ (s.phase ≠ .load
          ∧ t = complete (setResults (BitVec.ofNat 32 (pbase s)) (BitVec.ofNat 32 (alen s))
              { s with abuf := headerWritten s })) := by
  rcases checkPhase_next h with ⟨hp, h⟩ | ⟨hp, h⟩
  · cases h; exact .inr ⟨by simpa [phaseLegal] using hp, rfl⟩
  · exact .inl ⟨by simpa [phaseLegal] using hp, h⟩

/-- RD_HEADER (`45_tree_serializer.md` R214). -/
theorem execRdHeader_next (h : execRdHeader s = .next t) :
    (s.cfg.abufBytes < lengthOperand s ∧ t = raise Opcode.rdHeader.code .operand 0x03 s)
      ∨ (lengthOperand s ≤ s.cfg.abufBytes ∧ ∃ sub, readArtifact s (lengthOperand s) = .error sub
          ∧ t = raise Opcode.rdHeader.code .corruptStream sub s)
      ∨ (lengthOperand s ≤ s.cfg.abufBytes ∧ ∃ es l, readArtifact s (lengthOperand s) = .ok (es, l)
          ∧ t = complete (loadArtifact es l s)) := by
  unfold execRdHeader at h
  split at h
  · cases h; exact .inl ⟨by omega, rfl⟩
  · split at h
    · cases h; exact .inr (.inl ⟨by omega, _, ‹_›, rfl⟩)
    · cases h; exact .inr (.inr ⟨by omega, _, _, ‹_›, rfl⟩)

/-- What the engine's completion of a word answers (`60_exceptions.md` R254, R255). -/
theorem execute_next (h : execute s = .next t) :
    (discarded s = true ∧ t = complete s)
      ∨ (discarded s = false ∧ ∃ e, decode s.cmdLat = .error e
          ∧ t = raise (opcField s.cmdLat) .illegalCommand e.sub s)
      ∨ (discarded s = false ∧ ∃ i, decode s.cmdLat = .ok i ∧ exec i s = .next t) := by
  unfold execute at h
  split at h
  · cases h; exact .inl ⟨‹_›, rfl⟩
  · rename_i hd
    have hd' : discarded s = false := by simpa using hd
    split at h
    · cases h; exact .inr (.inl ⟨hd', _, ‹_›, rfl⟩)
    · exact .inr (.inr ⟨hd', _, ‹_›, h⟩)

end Sys2Proof.Machine
end

