-- ==== Sys2Proof/Laws/HostProgram.lean ====
section
/-! SUPPORT. The laws of host programs: what each action's turn does, and turns in sequence. -/

namespace Sys2Proof.Machine

@[simp] theorem runOut_next (f : State → List HostAct) (t : State) :
    runOut f (.next t) = .next { acts := f t, state := t } := rfl

@[simp] theorem takeTurns_nil (r : HostRun) : takeTurns [] r = .next r := rfl

/-- A turn that goes on is followed by the rest. -/
theorem takeTurns_cons_next {x : Turn} {r r' : HostRun} (h : takeTurn x r = .next r') (xs : List Turn) :
    takeTurns (x :: xs) r = takeTurns xs r' := by simp [takeTurns, h]

theorem takeTurns_append_next {xs : List Turn} {r r' : HostRun} (h : takeTurns xs r = .next r') (ys : List Turn) :
    takeTurns (xs ++ ys) r = takeTurns ys r' := by
  induction xs generalizing r with
  | nil => cases h; rfl
  | cons x xs ih =>
    simp only [List.cons_append, takeTurns] at h ⊢
    split at h
    · exact ih h
    · cases h
    · cases h

@[simp] theorem hostTurn_done (s : State) : hostTurn { acts := [], state := s } = .next { acts := [], state := s } := rfl

@[simp] theorem hostTurn_write (r : Reg) (v : Word) (rest : List HostAct) (s : State) :
    hostTurn { acts := .write r v :: rest, state := s } =
      .next { acts := rest, state := busWrite (regOffset r) v s } := rfl

@[simp] theorem hostTurn_read (r : Reg) (rest : List HostAct) (s : State) :
    hostTurn { acts := .read r :: rest, state := s } = .next { acts := rest, state := busRead (regOffset r) s } := rfl

@[simp] theorem hostTurn_decSym (rest : List HostAct) (s : State) :
    hostTurn { acts := .decSym :: rest, state := s } =
      .next { acts := .waitIdle :: .endTest :: rest, state := busWrite (regOffset .cmd) (encode .decSym) s } := rfl

@[simp] theorem takeTurn_outside_complete (acts : List HostAct) (s : State) :
    takeTurn (.outside .complete) { acts := acts, state := s } = runOut (fun _ => acts) (engineTurn s) := rfl

/-- The host's turn never stops: only the engine's can. -/
theorem hostTurn_goes (r : HostRun) : ∃ r', hostTurn r = .next r' := by
  obtain ⟨acts, s⟩ := r
  cases acts with
  | nil => exact ⟨_, rfl⟩
  | cons a rest => cases a <;> exact ⟨_, rfl⟩

end Sys2Proof.Machine
end

