-- ==== Sys2Proof/Laws/PerInstr.lean ====
section
/-! SUPPORT. The per-instruction law EncodeMatches: the word of a command agrees with its opcode's row of the
opcode map on every bit of the mask, and its top byte is the opcode (`30_encoding.md` R90, R96). -/

namespace Sys2Proof.Laws.EncodeMatches

/-- The word of a command meets its row's match under its row's mask, and holds its opcode. -/
def Statement (i : Instr) : Prop :=
  encode i &&& i.opcode.maskValue = i.opcode.matchValue ∧ opcField (encode i) = i.opcode.code

theorem nop : Statement .nop := by unfold Statement; decide
theorem clear : Statement .clear := by unfold Statement; decide
theorem errAck : Statement .errAck := by unfold Statement; decide
theorem freqAdd (sym : Symbol) : Statement (.freqAdd sym) := by unfold Statement; revert sym; decide +kernel
theorem rdFreq (sym : Symbol) : Statement (.rdFreq sym) := by unfold Statement; revert sym; decide +kernel
theorem build : Statement .build := by unfold Statement; decide
theorem rdNode (idx : BitVec 9) : Statement (.rdNode idx) := by unfold Statement; revert idx; decide +kernel
theorem genCodes : Statement .genCodes := by unfold Statement; decide
theorem rdCode (sym : Symbol) (w : BitVec 3) : Statement (.rdCode sym w) := by unfold Statement; revert sym w; decide +kernel
theorem encSym (sym : Symbol) : Statement (.encSym sym) := by unfold Statement; revert sym; decide +kernel
theorem strmRst : Statement .strmRst := by unfold Statement; decide
theorem decSym : Statement .decSym := by unfold Statement; decide
theorem rewind : Statement .rewind := by unfold Statement; decide
theorem wrHeader : Statement .wrHeader := by unfold Statement; decide
theorem rdHeader : Statement .rdHeader := by unfold Statement; decide

end Sys2Proof.Laws.EncodeMatches
end

