-- ==== Sys2Proof/Laws/Tree.lean ====
section
/-! SUPPORT. The laws of BUILD's priority collection and merge loop (`41_tree_builder.md` R132, R133) and of
GEN_CODES's walk (`42_code_table.md` R152). -/

namespace Sys2Proof.Machine

/-! ### Keys -/

theorem keyLess_iff (a b : Key) :
    keyLess a b = true ↔ a.weight.toNat < b.weight.toNat ∨ a.weight.toNat = b.weight.toNat ∧ a.idx < b.idx := by
  simp [keyLess, BitVec.toNat_inj]

theorem keyLess_trans {a b c : Key} (h₁ : keyLess a b = true) (h₂ : keyLess b c = true) : keyLess a c = true := by
  rw [keyLess_iff] at *; omega

/-- Two keys neither of which is less are the same key. -/
theorem key_eq_of_not_less {a b : Key} (h₁ : keyLess a b = false) (h₂ : keyLess b a = false) : a = b := by
  rw [← Bool.not_eq_true, keyLess_iff] at h₁ h₂
  have hw : a.weight.toNat = b.weight.toNat := by omega
  have hi : a.idx = b.idx := by omega
  cases a; cases b
  simp only [Key.mk.injEq]
  exact ⟨BitVec.eq_of_toNat_eq hw, hi⟩

theorem leastKey_mem (k : Key) (ks : List Key) : leastKey k ks ∈ k :: ks := by
  induction ks generalizing k with
  | nil => simp [leastKey]
  | cons x xs ih =>
    unfold leastKey
    split
    · exact List.mem_cons_of_mem _ (ih x)
    · rcases List.mem_cons.1 (ih k) with h | h
      · rw [h]; exact List.mem_cons_self
      · exact List.mem_cons_of_mem _ (List.mem_cons_of_mem _ h)

/-- No key of the collection is less than the one `leastKey` gives (`41_tree_builder.md` R133). -/
theorem leastKey_least (k : Key) (ks : List Key) : ∀ x ∈ k :: ks, keyLess x (leastKey k ks) = false := by
  induction ks generalizing k with
  | nil => intro x hx; simp at hx; subst hx; simp [leastKey, keyLess]
  | cons y ys ih =>
    intro x hx
    unfold leastKey
    split
    · rename_i hyk
      rcases List.mem_cons.1 hx with rfl | hx
      · cases h : keyLess x (leastKey y ys) with
        | false => rfl
        | true => exact absurd (keyLess_trans hyk h) (by simp [ih y y List.mem_cons_self])
      · exact ih y x hx
    · rename_i hyk
      rcases List.mem_cons.1 hx with rfl | hx
      · exact ih x x List.mem_cons_self
      · rcases List.mem_cons.1 hx with rfl | hx
        · cases h : keyLess x (leastKey k ys) with
          | false => rfl
          | true =>
            have hk := ih k k List.mem_cons_self
            have hxk : keyLess x k = false := by simpa using hyk
            rw [← Bool.not_eq_true, keyLess_iff] at hk hxk
            rw [keyLess_iff] at h
            omega
        · exact ih k x (List.mem_cons_of_mem _ hx)

/-- Everything `extractLeast` can do: it is none exactly for the empty collection, else it gives a least key and
the collection without it. -/
theorem extractLeast_cases (q : List Key) :
    (q = [] ∧ extractLeast q = none)
      ∨ ∃ a, a ∈ q ∧ (∀ x ∈ q, keyLess x a = false) ∧ extractLeast q = some (a, q.erase a) := by
  cases q with
  | nil => exact .inl ⟨rfl, rfl⟩
  | cons k ks => exact .inr ⟨leastKey k ks, leastKey_mem k ks, leastKey_least k ks, rfl⟩

/-! ### The merge loop -/

/-- One turn of the merge loop on a collection of two or more keys. -/
theorem mergeLoop_step (fuel : Nat) (q : List Key) (arena : List Node) (h : 2 ≤ q.length) :
    ∃ a b, a ∈ q ∧ (∀ x ∈ q, keyLess x a = false) ∧ b ∈ q.erase a ∧ (∀ x ∈ q.erase a, keyLess x b = false)
      ∧ mergeLoop (fuel + 1) q arena =
        mergeLoop fuel ((q.erase a).erase b ++ [{ weight := a.weight + b.weight, idx := arena.length }])
          (arena ++ [mergeNode a b]) := by
  rcases extractLeast_cases q with ⟨rfl, -⟩ | ⟨a, ha, hla, hea⟩
  · simp at h
  · have hl : (q.erase a).length = q.length - 1 := List.length_erase_of_mem ha
    rcases extractLeast_cases (q.erase a) with ⟨h0, -⟩ | ⟨b, hb, hlb, heb⟩
    · rw [h0] at hl; simp at hl; omega
    · exact ⟨a, b, ha, hla, hb, hlb, by simp [mergeLoop, hea, heb]⟩

/-- The arena so far is kept, and each turn adds one entry. -/
theorem mergeLoop_extends (fuel : Nat) (q : List Key) (arena : List Node) (h : fuel + 1 ≤ q.length) :
    ∃ more, mergeLoop fuel q arena = arena ++ more ∧ more.length = fuel := by
  induction fuel generalizing q arena with
  | zero => exact ⟨[], by simp [mergeLoop]⟩
  | succ fuel ih =>
    obtain ⟨a, b, ha, -, hb, -, he⟩ := mergeLoop_step fuel q arena (by omega)
    have h₁ : (q.erase a).length = q.length - 1 := List.length_erase_of_mem ha
    have h₂ : ((q.erase a).erase b).length = (q.erase a).length - 1 := List.length_erase_of_mem hb
    obtain ⟨more, hm, hl⟩ := ih ((q.erase a).erase b ++ [{ weight := a.weight + b.weight, idx := arena.length }])
      (arena ++ [mergeNode a b]) (by simp [h₁, h₂]; omega)
    exact ⟨mergeNode a b :: more, by rw [he, hm]; simp, by simp [hl]⟩

theorem leaves_length (f : Vector Word 256) : (leaves f).length = (presentEntries f).length := by simp [leaves]

theorem keysOf_length (arena : List Node) : (keysOf arena).length = arena.length := by simp [keysOf]

/-! ### The walk -/

theorem walk_leaf {t : Vector Node 511} {w : WalkItem} {sym : Symbol} {wt : Word} (h : nodeAt t w.node = .leaf sym wt)
    (fuel : Nat) (stack : List WalkItem) (c : Vector CodeEntry 256) :
    walk t (fuel + 1) (w :: stack) c = walk t fuel stack (setCode c sym (codeEntry w.depth w.value)) := by
  simp [walk, h]

theorem walk_internal {t : Vector Node 511} {w : WalkItem} {l r : NodeIdx} {wt : Word}
    (h : nodeAt t w.node = .internal l r wt) (fuel : Nat) (stack : List WalkItem) (c : Vector CodeEntry 256) :
    walk t (fuel + 1) (w :: stack) c =
      walk t fuel ({ node := l, depth := w.depth + 1, value := 2 * w.value }
        :: { node := r, depth := w.depth + 1, value := 2 * w.value + 1 } :: stack) c := by
  simp [walk, h]

/-! ### INV3 -/

/-- GEN_CODES leaves the code table that INV3 asks for (`10_state.md` R51). -/
theorem withCodes_meets_codes {s : State} (hp : s.phase ≠ .load) :
    (withCodes s).code = assignCodes (withCodes s).node (nodeIdx (root (withCodes s))) := by
  cases h : s.phase <;> first | exact absurd h hp | simp [withCodes, root, nsym, h]

end Sys2Proof.Machine
end

