-- ==== Sys2Proof/Tests/Slice0.lean ====
section
/-! SUPPORT. The author's own checks: the assembler's range checks on ill-formed lines, command words written out
from `30_encoding.md`, one-step vectors from `95_test_vectors.md`, and for every obligation with hypotheses a
state and operands that meet them. -/

namespace Sys2Proof.Tests

open Sys2Proof.Machine

set_option Elab.async false

/-! ### Helpers -/

/-- The outcome is a next state that passes a test. -/
def goesTo (o : Out) (p : State → Bool) : Bool :=
  match o with
  | .next t => p t
  | .fault _ => false
  | .refused _ => false

/-- The next state of an outcome, the reset state for a stop. -/
def nextOf (o : Out) : State :=
  match o with
  | .next t => t
  | .fault _ => State.reset
  | .refused _ => State.reset

theorem eq_nextOf {o : Out} (h : goesTo o (fun _ => true) = true) : o = .next (nextOf o) := by
  cases o <;> first | rfl | simp [goesTo] at h

/-- One command from a state, with ARG as given. -/
def run (s : State) (arg : Word) (w : Nat) : Out := step ({ s with arg := arg }.withFetchWord 32 w)

/-- The reset state with a table of counts. -/
def table (l : List (Nat × Word)) : State :=
  { State.reset with freq := l.foldl (fun f p => setFreq f (BitVec.ofNat 8 p.1) p.2) zeroFreq }

/-- RESULT0 and RESULT1. -/
def results (t : State) : Nat × Nat := (t.result0.toNat, t.result1.toNat)

/-- ERRINFO as read (`10_state.md` R28). -/
def errWord (t : State) : Nat := (errInfoWord t.errInfo).toNat

/-- Bytes of ABUF written since reset, at consecutive addresses from a. -/
def bytesAt (t : State) (a n : Nat) : List (Option Byte) := (List.range n).map fun i => Memory.lookup t.abuf (a + i)

/-- ABUF holding bytes from address 0. -/
def withBytes (s : State) (l : List Byte) : State := { s with abuf := Memory.writeBytes s.abuf 0 l }

/-- The table of V1, "aaabbc" (`95_test_vectors.md` section 1). -/
def v1Load : State := table [(0x61, 3), (0x62, 2), (0x63, 1)]

/-- V1 after BUILD. -/
def v1Built : State := nextOf (exec .build v1Load)

/-- V1 after GEN_CODES. -/
def v1Coded : State := nextOf (exec .genCodes v1Built)

/-- V1's payload of 9 bits in ABUF, BITLEN = 9. -/
def v1Packed : State := { v1Coded with cfg := Config.standard, bitLen := 9, abuf := [(21, 0x1F), (22, 0x00)] }

/-- V1's artifact G (`95_test_vectors.md` section 1). -/
def gBytes : List Byte :=
  [0x00, 0x03, 0x61, 0x00, 0x00, 0x00, 0x03, 0x62, 0x00, 0x00, 0x00, 0x02] ++
  [0x63, 0x00, 0x00, 0x00, 0x01, 0x00, 0x00, 0x00, 0x09, 0x1F, 0x00]

/-- G in ABUF from reset, LENGTH in ARG_LAT. -/
def gLoaded (len : Word) : State := { withBytes State.reset gBytes with argLat := len }

/-- The single-symbol tree {a:4} after BUILD, a stream of 4 bits in a byte b (`95_test_vectors.md` T2, U6). -/
def single (b : Byte) : State :=
  { nextOf (exec .build (table [(0x61, 4)])) with bitLen := 4, abuf := [(11, b)] }

/-- A word accepted, with nothing pending: the engine's turn is next. -/
def accepted (s : State) (w : Word) : State := { s with cmdLat := w, cmdLast := w, busy := true, doneFlag := false }

/-! ### The assembler's checks refuse ill-formed lines (`30_encoding.md` R102) -/

theorem test_wf_sym : (AsmLine.freqAdd 256 1).wellFormed = false ∧ (AsmLine.rdFreq 256).wellFormed = false
    ∧ (AsmLine.rdCode 256 0).wellFormed = false ∧ (AsmLine.encSym 256).wellFormed = false
    ∧ (AsmLine.freqAdd 255 1).wellFormed = true := by decide

theorem test_wf_count : (AsmLine.freqAdd 0x61 4294967296).wellFormed = false
    ∧ (AsmLine.freqAdd 0x61 4294967295).wellFormed = true := by decide

theorem test_wf_length : (AsmLine.rdHeader 4294967296).wellFormed = false
    ∧ (AsmLine.rdHeader 4294967295).wellFormed = true := by decide

theorem test_wf_idx : (AsmLine.rdNode 512).wellFormed = false ∧ (AsmLine.rdNode 511).wellFormed = true := by decide

theorem test_wf_w : (AsmLine.rdCode 0x61 8).wellFormed = false ∧ (AsmLine.rdCode 0x61 7).wellFormed = true := by
  decide

/-- An ill-formed line assembles to nothing, and a WR of a value that is no word either. -/
theorem test_asm_refuses : assemble [.op (.cmd (.rdNode 512))] = none
    ∧ assemble [.op (.wr .arg 4294967296)] = none ∧ assemble [.count 256] = none := by decide

/-! ### Words written out bit by bit from `30_encoding.md` sections 1 to 5 -/

theorem test_decode_control : decode 0b00000000000000000000000000000000 = .ok .nop
    ∧ decode 0b00000001000000000000000000000000 = .ok .clear
    ∧ decode 0b00000010000000000000000000000000 = .ok .errAck := by decide

theorem test_decode_freq : decode 0b00010000000000000000000001100001 = .ok (.freqAdd 0x61)
    ∧ decode 0b00010001000000000000000001100010 = .ok (.rdFreq 0x62) := by decide

theorem test_decode_tree : decode 0b00100000000000000000000000000000 = .ok .build
    ∧ decode 0b00100001000000000000000100000001 = .ok (.rdNode 257) := by decide

theorem test_decode_codes : decode 0b00110000000000000000000000000000 = .ok .genCodes
    ∧ decode 0b00110001000000000000010110000001 = .ok (.rdCode 0x81 5) := by decide

theorem test_decode_packer : decode 0b01000000000000000000000010000001 = .ok (.encSym 0x81)
    ∧ decode 0b01000001000000000000000000000000 = .ok .strmRst := by decide

theorem test_decode_unpacker : decode 0b01010000000000000000000000000000 = .ok .decSym
    ∧ decode 0b01010001000000000000000000000000 = .ok .rewind := by decide

theorem test_decode_serializer : decode 0b01100000000000000000000000000000 = .ok .wrHeader
    ∧ decode 0b01100001000000000000000000000000 = .ok .rdHeader := by decide

/-- Reserved opcodes (C1, C6) and reserved bits (C4, C5, F10, T10, K10) are rejected by name. -/
theorem test_decode_reserved : decode 0x70000000 = .error .reservedOpcode
    ∧ decode 0xFFFFFFFF = .error .reservedOpcode ∧ decode 0x12000000 = .error .reservedOpcode
    ∧ decode 0x62000000 = .error .reservedOpcode ∧ decode 0x00000001 = .error .reservedBits
    ∧ decode 0x20800000 = .error .reservedBits ∧ decode 0x10000161 = .error .reservedBits
    ∧ decode 0x21000200 = .error .reservedBits ∧ decode 0x31000861 = .error .reservedBits := by decide

theorem test_encode : encode (.freqAdd 0x61) = 0x10000061 ∧ encode (.rdNode 510) = 0x210001FE
    ∧ encode (.rdCode 0x62 7) = 0x31000762 ∧ encode .rdHeader = 0x61000000 := by decide

/-- The match and mask values of the opcode map's rows (`30_encoding.md` R96), one of each format. -/
theorem test_rows : Opcode.build.matchValue = 0x20000000 ∧ Opcode.build.maskValue = 0xFFFFFFFF
    ∧ Opcode.encSym.matchValue = 0x40000000 ∧ Opcode.encSym.maskValue = 0xFFFFFF00
    ∧ Opcode.rdCode.matchValue = 0x31000000 ∧ Opcode.rdCode.maskValue = 0xFFFFF800
    ∧ Opcode.rdNode.matchValue = 0x21000000 ∧ Opcode.rdNode.maskValue = 0xFFFFFE00 := by decide

theorem test_table_word : decodeTableWord 32 0x21000005 = some (.rdNode 5) ∧ decodeTableWord 32 0x70000000 = none := by
  decide

/-! ### One step per instruction, values of `95_test_vectors.md` and of the rules' examples -/

/-- C9, R230: NOP completes, DONE = 1. -/
theorem test_nop : goesTo (run State.reset 0 0x00000000) (fun t => t.doneFlag && !t.busy && results t == (0, 0)) := by
  decide +kernel

/-- C7. -/
theorem test_clear : goesTo (run v1Packed 0 0x01000000) (fun t => nsym t == 0 && t.phase == .load && t.bitLen == 0
    && alen t == 6 && results t == (0, 0) && t.abuf == v1Packed.abuf) := by decide +kernel

/-- C3. -/
theorem test_err_ack : goesTo (step (accepted (raise 0x70 .illegalCommand 0x01 v1Coded) 0x02000000))
    (fun t => !t.err && errWord t == 0 && t.phase == .coded && results t == results v1Coded) := by decide +kernel

/-- F2. -/
theorem test_freq_add : goesTo (run (table [(0x61, 3)]) 2 0x10000061)
    (fun t => results t == (5, 5) && nsym t == 1) := by decide +kernel

/-- F4. -/
theorem test_freq_add_overflow : goesTo (run (table [(0x61, 5)]) 0xFFFFFFFB 0x100000FF)
    (fun t => errWord t == 0x011007 && total t == 5) := by decide +kernel

/-- F6. -/
theorem test_rd_freq : goesTo (run (table [(0x61, 5), (0xFF, 4)]) 0 0x11000062)
    (fun t => results t == (0, 2) && !t.err) := by decide +kernel

/-- T4: a leaf is extracted before a new internal node of the same weight. -/
theorem test_build : goesTo (run (table [(0x61, 2), (0x62, 2), (0x63, 1), (0x64, 1), (0x65, 2)]) 0 0x20000000)
    (fun t => (t.node.toList.drop 5).take 4 == [.internal 2 3 2, .internal 0 1 4, .internal 4 5 4, .internal 6 7 8]
      && results t == (8, 9)) := by decide +kernel

/-- T6. -/
theorem test_build_empty : goesTo (run State.reset 0 0x20000000)
    (fun t => errWord t == 0x002001 && t.phase == .load) := by decide +kernel

/-- V1, the accessor row. -/
theorem test_rd_node : goesTo (run v1Built 0 0x21000003) (fun t => results t == (0x80010002, 3)) := by decide +kernel

/-- T8. -/
theorem test_rd_node_range : goesTo (run v1Built 0 0x21000005) (fun t => errWord t == 0x022106) := by decide +kernel

/-- V1, the codes row: a "0", b "11", c "10", WPL = 9. -/
theorem test_gen_codes : goesTo (run v1Built 0 0x30000000) (fun t => results t == (9, 0)
    && codeAt t.code 0x61 == { len := 1, val := 0 } && codeAt t.code 0x62 == { len := 2, val := 3 }
    && codeAt t.code 0x63 == { len := 2, val := 2 }) := by decide +kernel

/-- K6's code of symbol 0: 38 ones and a zero, word 1. -/
theorem test_rd_code : goesTo (run { v1Coded with code := setCode v1Coded.code 0 { len := 39, val := 0x7FFFFFFFFE } } 0
    0x31000100) (fun t => results t == (39, 0x7F)) := by decide +kernel

/-- K8. -/
theorem test_rd_code_built : goesTo (run v1Built 0 0x31000061) (fun t => errWord t == 0x013105) := by decide +kernel

/-- B4, the fifth command: a byte is finished and the next one rewritten. -/
theorem test_enc_sym : goesTo (run { v1Coded with bitLen := 8, abuf := [(21, 0xEE), (22, 0xFF)] } 0 0x40000062)
    (fun t => results t == (2, 10) && bytesAt t 21 2 == [some 0xEE, some 0xC0]) := by decide +kernel

/-- B1. -/
theorem test_enc_sym_unknown : goesTo (run v1Coded 0 0x4000007A)
    (fun t => errWord t == 0x7A4002 && t.bitLen == 0) := by decide +kernel

/-- B5. -/
theorem test_strm_rst : goesTo (run v1Packed 0 0x41000000) (fun t => t.bitLen == 0 && alen t == 21
    && bytesAt t 21 2 == [some 0x1F, some 0x00]) := by decide +kernel

/-- V1, the decode row: the fourth symbol. -/
theorem test_dec_sym : goesTo (run { v1Packed with bitPos := 3 } 0 0x50000000)
    (fun t => results t == (0x62, 2) && t.bitPos == 5) := by decide +kernel

/-- U7. -/
theorem test_dec_sym_single : goesTo (run { single 0x40 with bitPos := 1 } 0 0x50000000)
    (fun t => errWord t == 0x115003 && t.bitPos == 1) := by decide +kernel

/-- U2. -/
theorem test_rewind : goesTo (run { v1Packed with bitPos := 3 } 0 0x51000000)
    (fun t => t.bitPos == 0 && t.bitLen == 9) := by decide +kernel

/-- V1, the header row. -/
theorem test_wr_header : goesTo (run v1Packed 0 0x60000000)
    (fun t => results t == (21, 23) && bytesAt t 0 23 == gBytes.map some) := by decide +kernel

/-- S1. -/
theorem test_rd_header : goesTo (run (gLoaded 0) 23 0x61000000)
    (fun t => results t == (3, 9) && presentEntries t.freq == [(0x61, 3), (0x62, 2), (0x63, 1)]) := by decide +kernel

/-- S11. -/
theorem test_rd_header_truncated : goesTo (run (gLoaded 0) 22 0x61000000) (fun t => errWord t == 0x066103) := by
  decide +kernel

/-! ### The bus -/

/-- C10: a CMD write while busy is dropped with OVR, and irq follows with IE_ERR = 1. -/
theorem test_cmd_busy :
    let t := busWrite 0x014 0x01000000 { accepted State.reset 0 with ctrl := 2 }
    t.ovr = true ∧ t.cmdLast = 0 ∧ irq t = true := by decide +kernel

/-- C11 and C12. -/
theorem test_port_busy :
    let s := accepted State.reset 0
    (busWrite 0x044 7 s).ovr = true ∧ (busWrite 0x044 7 s).abuf = [] ∧ (busRead 0x044 s).abufPtr = 0 := by
  decide +kernel

/-- R103: COUNT is FREQ_ADD with count 1. -/
theorem test_asm_count : assemble [.count 0x61] =
    some [.write .arg 1, .write .cmd 0x10000061, .waitIdle] := by decide

/-! ### States that meet the hypotheses of the obligations

Each theorem is named after the obligation and gives, clause by clause, operands at a boundary of the clause. -/

/-- V1 after GEN_CODES with the word of ENC_SYM 'a' accepted. -/
def v1Encoding : State := accepted v1Coded 0x40000061

/-- V1 after GEN_CODES with a host write of ABUF_DATA pending. -/
def v1Writing : State := { v1Coded with pending := [.write 0x044 7] }

/-- {a:1, b:1} coded on 2048 bytes with a stream of l bits of zeros (B6). -/
def nearlyFull (l : Word) : State :=
  { nextOf (exec .genCodes (nextOf (exec .build (table [(0x61, 1), (0x62, 1)])))) with
    cfg := { awExtra := 0 }, bitLen := l }

/-- The state of U3: an internal node, and the stream ends after one bit. -/
def cutStream : State := { v1Built with bitLen := 1, abuf := [(21, 0x80)] }

/-- The single-leaf tree after GEN_CODES. -/
def singleCoded : State := nextOf (exec .genCodes (single 0x00))

/-- A header that claims 256 entries. -/
def claims256 (len : Word) : State := { State.reset with argLat := len, abuf := [(0, 0x01), (1, 0x00)] }

/-- GEN_CODES leaves the code table that INV3 asks for. -/
theorem codes_after_genCodes {s : State} (hp : s.phase ≠ .load) :
    (nextOf (exec .genCodes s)).code =
      assignCodes (nextOf (exec .genCodes s)).node (nodeIdx (root (nextOf (exec .genCodes s)))) := by
  cases h : s.phase <;> first
    | exact absurd h hp
    | simp [exec, execGenCodes, checkPhase, phaseLegal, nextOf, withCodes, complete, setResults, root, nsym, h]

/-- INV3 looks at the tables and PHASE alone. -/
theorem codes_kept {s t : State} (h : s.code = assignCodes s.node (nodeIdx (root s))) (hc : t.code = s.code)
    (hn : t.node = s.node) (hp : t.phase = s.phase) (hf : t.freq = s.freq) :
    t.code = assignCodes t.node (nodeIdx (root t)) := by
  have hr : root t = root s := by simp [root, nsym, hp, hf]
  rw [hc, h, hn, hr]

theorem codes_withStream {s : State} {c : Config} {l : Word} {m : Memory}
    (h : s.code = assignCodes s.node (nodeIdx (root s))) :
    { s with cfg := c, bitLen := l, abuf := m }.code = assignCodes { s with cfg := c, bitLen := l, abuf := m }.node
      (nodeIdx (root { s with cfg := c, bitLen := l, abuf := m })) := codes_kept h rfl rfl rfl rfl

theorem codes_accepted {s : State} {w : Word} (h : s.code = assignCodes s.node (nodeIdx (root s))) :
    (accepted s w).code = assignCodes (accepted s w).node (nodeIdx (root (accepted s w))) :=
  codes_kept h rfl rfl rfl rfl

theorem codes_pending {s : State} {l : List Event} (h : s.code = assignCodes s.node (nodeIdx (root s))) :
    { s with pending := l }.code = assignCodes { s with pending := l }.node (nodeIdx (root { s with pending := l })) :=
  codes_kept h rfl rfl rfl rfl

theorem codes_v1Coded : v1Coded.code = assignCodes v1Coded.node (nodeIdx (root v1Coded)) :=
  codes_after_genCodes (s := v1Built) (by decide +kernel)

theorem inv_v1Load : Sound v1Load := by constructor <;> decide +kernel
theorem inv_v1Built : Sound v1Built := by constructor <;> decide +kernel
theorem inv_v1Coded : Sound v1Coded := by
  refine Sound.mk ?_ (fun _ => codes_v1Coded) ?_ ?_ ?_ ?_ ?_ ?_ ?_ ?_ ?_ <;> decide +kernel
theorem inv_v1Packed : Sound v1Packed := by
  unfold v1Packed
  refine Sound.mk ?_ (fun _ => codes_withStream codes_v1Coded) ?_ ?_ ?_ ?_ ?_ ?_ ?_ ?_ ?_ <;> decide +kernel
theorem inv_v1Encoding : Sound v1Encoding := by
  unfold v1Encoding
  refine Sound.mk ?_ (fun _ => codes_accepted codes_v1Coded) ?_ ?_ ?_ ?_ ?_ ?_ ?_ ?_ ?_ <;> decide +kernel
theorem inv_v1Writing : Sound v1Writing := by
  unfold v1Writing
  refine Sound.mk ?_ (fun _ => codes_pending codes_v1Coded) ?_ ?_ ?_ ?_ ?_ ?_ ?_ ?_ ?_ <;> decide +kernel
theorem inv_single : Sound (single 0x00) := by constructor <;> decide +kernel
theorem inv_singleCoded : Sound singleCoded := by
  refine Sound.mk ?_ (fun _ => codes_after_genCodes (by decide +kernel)) ?_ ?_ ?_ ?_ ?_ ?_ ?_ ?_ ?_ <;> decide +kernel
theorem inv_cutStream : Sound cutStream := by constructor <;> decide +kernel
theorem inv_nearlyFull : Sound (nearlyFull 16256) := by
  unfold nearlyFull
  refine Sound.mk ?_ (fun _ => codes_withStream (codes_after_genCodes
    (s := nextOf (exec .build (table [(0x61, 1), (0x62, 1)]))) (by decide +kernel)))
    ?_ ?_ ?_ ?_ ?_ ?_ ?_ ?_ ?_ <;> decide +kernel

theorem wit_DecodeThenEncode : decode 0x310007FF = .ok (.rdCode 0xFF 7) := by decide

theorem wit_RowMatches : (0x210001FF : Word) &&& 0xFFFFFE00 = 0x21000000
    ∧ (0x310007FF : Word) &&& 0xFFFFF800 = 0x31000000 := by decide

/-- The lowest and the highest reserved opcode, and of each format the lowest and the highest reserved bit. -/
theorem wit_DecodeRejects : decode 0x03000000 = .error .reservedOpcode ∧ decode 0xFF000000 = .error .reservedOpcode
    ∧ decode 0x61000001 = .error .reservedBits ∧ decode 0x00800000 = .error .reservedBits
    ∧ decode 0x10000100 = .error .reservedBits ∧ decode 0x40800000 = .error .reservedBits
    ∧ decode 0x31000800 = .error .reservedBits ∧ decode 0x31800000 = .error .reservedBits
    ∧ decode 0x21000200 = .error .reservedBits ∧ decode 0x21800000 = .error .reservedBits := by decide

/-- The last operand in range and the first out of range. -/
theorem wit_AssembledLines :
    let ok : AsmLine → Bool := fun l => (opActs (.cmd l)).isSome
    ok (.freqAdd 255 4294967295) = true ∧ ok (.freqAdd 256 1) = false ∧ ok (.freqAdd 1 4294967296) = false
      ∧ ok (.rdHeader 4294967295) = true ∧ ok (.rdHeader 4294967296) = false ∧ ok (.rdFreq 255) = true
      ∧ ok (.rdFreq 256) = false ∧ ok (.encSym 255) = true ∧ ok (.encSym 256) = false ∧ ok (.rdNode 511) = true
      ∧ ok (.rdNode 512) = false ∧ ok (.rdCode 255 7) = true ∧ ok (.rdCode 255 8) = false
      ∧ ok (.rdCode 256 7) = false := by decide

theorem wit_StepRuns :
    let e := raise 0x70 .illegalCommand 0x01 v1Coded
    (v1Encoding.busy = true ∧ decode v1Encoding.cmdLat = .ok (.encSym 0x61) ∧ v1Encoding.err = false
        ∧ v1Encoding.pending = [])
      ∧ { v1Encoding with pending := [.complete, .reset] }.pending = .complete :: [.reset]
      ∧ ((accepted e 0x01000000).busy = true ∧ (accepted e 0x01000000).err = true
        ∧ decode (accepted e 0x01000000).cmdLat = .ok .clear)
      ∧ ((accepted e 0x02000000).busy = true ∧ decode (accepted e 0x02000000).cmdLat = .ok .errAck) := by
  decide +kernel

theorem wit_PlacedWord : State.reset.pending = [] := by decide

theorem wit_ErrorDiscards : ∀ w ∈ [0x40000061, 0x01000001, 0x01000000, 0x02000000, 0x02000001],
    let s := accepted (raise 0x70 .illegalCommand 0x01 v1Coded) (BitVec.ofNat 32 w)
    s.busy = true ∧ s.err = true ∧ s.pending = [] ∧ s.cmdLat.toNat = w := by decide +kernel

/-- The words of `wit_DecodeRejects`, accepted in an idle state. -/
theorem wit_IllegalWords : ∀ w ∈ [0x03000000, 0xFF000000, 0x61000001, 0x00800000, 0x10000100, 0x40800000,
    0x31000800, 0x31800000, 0x21000200, 0x21800000],
    let s := accepted State.reset (BitVec.ofNat 32 w)
    s.cmdLat.toNat = w ∧ s.busy = true ∧ s.err = false ∧ s.pending = [] := by decide +kernel

theorem wit_FailingCommand : ∃ t, State.reset.err = false ∧ exec .build State.reset = .next t ∧ t.err = true :=
  ⟨_, rfl, eq_nextOf (by decide +kernel), by decide +kernel⟩

/-- A command in each phase where it is not legal, and one where it is. -/
theorem wit_Sequence : v1Load.phase = .load ∧ v1Built.phase = .built ∧ v1Coded.phase = .coded
    ∧ v1Load.errInfo.code ≠ .sequence
    ∧ goesTo (exec (.freqAdd 0x61) v1Built) (fun t => errWord t == 0x011005)
    ∧ goesTo (exec .build v1Coded) (fun t => errWord t == 0x022005)
    ∧ goesTo (exec .decSym v1Load) (fun t => errWord t == 0x005005)
    ∧ goesTo (exec (.encSym 0x61) v1Built) (fun t => errWord t == 0x014005)
    ∧ goesTo (exec .build v1Load) (fun t => !t.err) := by decide +kernel

/-- ALEN = ABUF_BYTES and BITPOS = BITLEN. -/
theorem wit_EveryCommandCompletes :
    let s := { nearlyFull 16256 with bitPos := 16256 }
    s.bitPos.toNat ≤ s.bitLen.toNat ∧ alen s = s.cfg.abufBytes := by decide +kernel

theorem wit_Writers :
    goesTo (exec (.freqAdd 0x61) { v1Load with argLat := 1 }) (fun t => freqAt t.freq 0x61 != freqAt v1Load.freq 0x61)
    ∧ goesTo (exec .build v1Load) (fun t => nodeAt t.node 4 != nodeAt v1Load.node 4)
    ∧ goesTo (exec .genCodes v1Built) (fun t => codeAt t.code 0x61 != codeAt v1Built.code 0x61)
    ∧ goesTo (exec (.encSym 0x61) v1Coded) (fun t => t.abuf != v1Coded.abuf && t.bitLen != v1Coded.bitLen)
    ∧ goesTo (exec .wrHeader v1Packed) (fun t => t.abuf != v1Packed.abuf)
    ∧ goesTo (exec .decSym v1Packed) (fun t => t.bitPos != v1Packed.bitPos)
    ∧ goesTo (exec .errAck { v1Load with ovr := true }) (fun t => !t.ovr)
    ∧ goesTo (exec .genCodes v1Built) (fun t => t.phase != v1Built.phase) := by decide +kernel

theorem wit_PhaseTransitions :
    goesTo (exec .build v1Load) (fun t => t.phase == .built && !t.err)
    ∧ goesTo (exec .genCodes v1Built) (fun t => t.phase == .coded && !t.err)
    ∧ goesTo (exec .clear v1Coded) (fun t => t.phase == .load && !t.err)
    ∧ goesTo (exec .rdHeader { withBytes v1Coded gBytes with argLat := 23 }) (fun t => t.phase == .load && !t.err)
    ∧ goesTo (applyEvent .reset v1Coded) (fun t => t.phase == .load)
    ∧ goesTo (applyEvent .complete (accepted v1Load 0x20000000)) (fun t => t.phase == .built) := by decide +kernel

theorem wit_ArgLat : ∃ t, exec (.encSym 0x61) v1Coded = .next t := ⟨_, eq_nextOf (by decide +kernel)⟩

theorem wit_HostWindow : v1Encoding.busy = true ∧ ∃ t, engineTurn v1Encoding = .next t :=
  ⟨rfl, _, eq_nextOf (by decide +kernel)⟩

theorem wit_Nop : (0x00000001 : Word).toNat / 2 ^ 24 = 0 ∧ (0x00FFFFFF : Word).toNat / 2 ^ 24 = 0
    ∧ (let s := accepted (raise 0x70 .illegalCommand 0x01 v1Coded) 0
      s.busy = true ∧ s.cmdLat = 0 ∧ s.pending = [] ∧ s.err = true) := by decide +kernel

/-- The phases, COUNT = 0, and the sums 2^32 and 2^32 − 1. -/
theorem wit_FreqAdd :
    v1Built.phase ≠ .load ∧ v1Coded.phase ≠ .load ∧ v1Load.phase = .load ∧ v1Load.argLat = 0
    ∧ total { v1Load with argLat := 0xFFFFFFFA } + (0xFFFFFFFA : Word).toNat = 2 ^ 32
    ∧ total { v1Load with argLat := 0xFFFFFFF9 } + (0xFFFFFFF9 : Word).toNat = 2 ^ 32 - 1 := by decide +kernel

theorem wit_FreqAddOrder :
    let l : List (Symbol × Word) := [(0x61, 0xFFFFFFFD), (0xFF, 1), (0x61, 1)]
    State.reset.phase = .load ∧ (∀ x, freqAt State.reset.freq x = 0) ∧ (l.all fun p => p.2 != 0) = true
      ∧ (l.map fun p => p.2.toNat).sum = 2 ^ 32 - 1
      ∧ [((0xFF, 1) : Symbol × Word), (0x61, 0xFFFFFFFD), (0x61, 1)].Perm l :=
  ⟨rfl, by decide +kernel, by decide, by decide +kernel, .swap _ _ _⟩

/-- No symbol, one symbol, three symbols; the first and the last index on each side of 2·NSYM − 1. -/
theorem wit_Build :
    v1Built.phase ≠ .load ∧ v1Coded.phase ≠ .load ∧ (State.reset.phase = .load ∧ nsym State.reset = 0)
    ∧ (v1Load.phase = .load ∧ nsym v1Load ≠ 0) ∧ nsym (table [(0xFF, 1)]) = 1
    ∧ (0 < 2 * nsym v1Load - 1 ∧ 4 < 2 * nsym v1Load - 1 ∧ 2 * nsym v1Load - 1 ≤ 5 ∧ 2 * nsym v1Load - 1 ≤ 510) := by
  decide +kernel

/-- V1: n = 3, merges k = 3 and k = 4; and n = 1, the sum 2^32 − 1. -/
theorem wit_Leaves :
    (presentEntries v1Load.freq).length = 3 ∧ (v1Load.freq.toList.map BitVec.toNat).sum ≤ 2 ^ 32 - 1
    ∧ buildArena v1Load.freq =
        [.leaf 0x61 3, .leaf 0x62 2, .leaf 0x63 1, .internal 2 1 3, .internal 0 3 6]
    ∧ (presentEntries (table [(0xFF, 0xFFFFFFFF)]).freq).length = 1
    ∧ ((table [(0xFF, 0xFFFFFFFF)]).freq.toList.map BitVec.toNat).sum = 2 ^ 32 - 1 := by decide +kernel

/-- At merge 3 of V1 the node 0, neither LEFT nor RIGHT, is unmerged. -/
theorem wit_Leaves_unmerged : Unmerged [.leaf 0x61 3, .leaf 0x62 2, .leaf 0x63 1, .internal 2 1 3] 3 0 := by
  refine ⟨by decide, ?_⟩
  intro j hj l r w h
  match j, hj with
  | 0, _ => cases h
  | 1, _ => cases h
  | 2, _ => cases h

theorem wit_NodesFormATree : Sound v1Built ∧ v1Built.phase ≠ .load ∧ nnodes v1Built = 5
    ∧ (rootIdx v1Built = 4 ∧ (0 : NodeIdx) ≠ rootIdx v1Built ∧ (3 : NodeIdx) ≠ rootIdx v1Built)
    ∧ (nodeAt v1Built.node 3 = .internal 2 1 3 ∧ nodeAt v1Built.node 4 = .internal 0 3 6)
    ∧ nodeAt v1Built.node 2 = .leaf 0x63 1 ∧ freqAt v1Built.freq 0x63 ≠ 0 ∧ IsChild v1Built.node 4 3 :=
  ⟨inv_v1Built, by decide +kernel, by decide +kernel, by decide +kernel, by decide +kernel, by decide +kernel,
    by decide +kernel, 0, 3, 6, by decide +kernel, by decide⟩

theorem wit_SingleSymbol :
    let s := table [(0xFF, 4)]
    s.phase = .load ∧ freqAt s.freq 0xFF ≠ 0 ∧ ∀ y, y ≠ 0xFF → freqAt s.freq y = 0 := by decide +kernel

/-- LOAD; IDX = NNODES and 511; IDX = 0 (a leaf) and NNODES − 1 (internal). -/
theorem wit_RdNode : v1Load.phase = .load ∧ v1Built.phase ≠ .load ∧ v1Coded.phase ≠ .load
    ∧ (nnodes v1Built ≤ (5 : BitVec 9).toNat ∧ nnodes v1Built ≤ (511 : BitVec 9).toNat)
    ∧ ((0 : BitVec 9).toNat < nnodes v1Built ∧ (0 : NodeIdx).val = (0 : BitVec 9).toNat
      ∧ nodeAt v1Built.node 0 = .leaf 0x61 3)
    ∧ ((4 : BitVec 9).toNat < nnodes v1Built ∧ (4 : NodeIdx).val = (4 : BitVec 9).toNat
      ∧ nodeAt v1Built.node 4 = .internal 0 3 6) := by decide +kernel

/-- LOAD; BUILT and CODED; TOTAL = 2^32 − 1. -/
theorem wit_GenCodes : v1Load.phase = .load ∧ v1Coded.phase ≠ .load ∧ total v1Coded ≤ 2 ^ 32 - 1
    ∧ (let s := nextOf (exec .build (table [(0x61, 0xFFFFFFFE), (0x62, 1)]))
      s.phase = .built ∧ total s = 2 ^ 32 - 1) := by decide +kernel

theorem wit_CodesArePaths : Sound v1Built ∧ v1Built.phase ≠ .load ∧ freqAt v1Built.freq 0x7A = 0
    ∧ IsInternal v1Built.node (rootIdx v1Built) ∧ freqAt v1Built.freq 0x61 ≠ 0
    ∧ (Sound (single 0x00) ∧ (single 0x00).phase ≠ .load
      ∧ nodeAt (single 0x00).node (rootIdx (single 0x00)) = .leaf 0x61 4) :=
  ⟨inv_v1Built, by decide +kernel, by decide +kernel, ⟨0, 3, 6, by decide +kernel⟩, by decide +kernel, inv_single,
    by decide +kernel, by decide +kernel⟩

theorem wit_PrefixFree : Sound v1Coded ∧ v1Coded.phase = .coded ∧ freqAt v1Coded.freq 0x61 ≠ 0
    ∧ freqAt v1Coded.freq 0x63 ≠ 0 ∧ (0x61 : Symbol) ≠ 0x63 :=
  ⟨inv_v1Coded, by decide +kernel, by decide +kernel, by decide +kernel, by decide⟩

/-- NSYM = 1, 2 and 3. -/
theorem wit_CodeLengths : (Sound singleCoded ∧ singleCoded.phase = .coded ∧ nsym singleCoded = 1
      ∧ freqAt singleCoded.freq 0x61 ≠ 0)
    ∧ (Sound (nearlyFull 16256) ∧ (nearlyFull 16256).phase = .coded ∧ nsym (nearlyFull 16256) = 2
      ∧ freqAt (nearlyFull 16256).freq 0x62 ≠ 0)
    ∧ (Sound v1Coded ∧ v1Coded.phase = .coded ∧ nsym v1Coded = 3 ∧ freqAt v1Coded.freq 0x63 ≠ 0) :=
  ⟨⟨inv_singleCoded, by decide +kernel⟩, ⟨inv_nearlyFull, by decide +kernel⟩, inv_v1Coded, by decide +kernel⟩

theorem wit_RdCode : v1Load.phase ≠ .coded ∧ v1Built.phase ≠ .coded ∧ v1Coded.phase = .coded := by decide +kernel

/-- The phases, an absent symbol, one bit too many for ABUF, the last bit that fits, a bit position before, in
and after the new code. -/
theorem wit_EncSym : v1Load.phase ≠ .coded ∧ v1Built.phase ≠ .coded
    ∧ (v1Coded.phase = .coded ∧ (codeAt v1Coded.code 0x7A).len = 0)
    ∧ (let s := nearlyFull 16256
      s.phase = .coded ∧ (codeAt s.code 0x62).len ≠ 0
        ∧ pbase s + ceil8 (s.bitLen.toNat + (codeAt s.code 0x62).len.toNat) = s.cfg.abufBytes + 1)
    ∧ (let s := nearlyFull 16255
      s.phase = .coded ∧ (codeAt s.code 0x62).len ≠ 0
        ∧ pbase s + ceil8 (s.bitLen.toNat + (codeAt s.code 0x62).len.toNat) = s.cfg.abufBytes
        ∧ 16254 < s.bitLen.toNat)
    ∧ (let s := { v1Coded with bitLen := 8, abuf := [(21, 0xEE), (22, 0xFF)] }
      (codeAt s.code 0x62).len = 2 ∧ 8 + 2 ≤ 15 ∧ 15 / 8 = (8 + 2 - 1) / 8
        ∧ ∀ p, 8 ≤ p → p < 8 + 2 → 23 ≠ pbase s + p / 8) := by
  refine ⟨by decide +kernel, by decide +kernel, by decide +kernel, by decide +kernel, by decide +kernel, ?_⟩
  refine ⟨by decide +kernel, by decide, by decide, ?_⟩
  intro p _ h
  have hp : pbase { v1Coded with bitLen := 8, abuf := [(21, 0xEE), (22, 0xFF)] } = 21 := by decide +kernel
  rw [hp]; omega

/-- LOAD; the end of the stream; a single leaf with bit 1 and bit 0; a code of two bits; a stream that ends at an
internal node. -/
theorem wit_DecSym :
    (v1Load.phase = .load ∧ v1Load.bitPos.toNat ≤ v1Load.bitLen.toNat ∧ alen v1Load ≤ v1Load.cfg.abufBytes)
    ∧ (let s := { v1Packed with bitPos := 9 }
      s.phase ≠ .load ∧ s.bitPos = s.bitLen ∧ s.bitPos.toNat ≤ s.bitLen.toNat ∧ alen s ≤ s.cfg.abufBytes)
    ∧ (let s := { single 0x40 with bitPos := 1 }
      s.phase ≠ .load ∧ s.bitPos ≠ s.bitLen ∧ nodeAt s.node (rootIdx s) = .leaf 0x61 4
        ∧ payloadBit s s.bitPos.toNat = true ∧ s.bitPos.toNat ≤ s.bitLen.toNat ∧ alen s ≤ s.cfg.abufBytes)
    ∧ (let s := { single 0x40 with bitPos := 3 }
      s.phase ≠ .load ∧ s.bitPos ≠ s.bitLen ∧ nodeAt s.node (rootIdx s) = .leaf 0x61 4
        ∧ payloadBit s s.bitPos.toNat = false ∧ s.bitPos.toNat ≤ s.bitLen.toNat ∧ alen s ≤ s.cfg.abufBytes) := by
  decide +kernel

/-- 'c' of V1, the last two bits of the stream: k = 2 with BITPOS + k = BITLEN. -/
theorem wit_DecSym_tree :
    let s := { v1Packed with bitPos := 7 }
    s.phase ≠ .load ∧ s.bitPos ≠ s.bitLen ∧ s.bitPos.toNat + 2 = s.bitLen.toNat ∧ alen s ≤ s.cfg.abufBytes
      ∧ nodeAt s.node (follow s.node (rootIdx s) (streamBits s s.bitPos.toNat 2)) = .leaf 0x63 1
      ∧ ∀ j < 2, IsInternal s.node (follow s.node (rootIdx s) (streamBits s s.bitPos.toNat j)) := by
  refine ⟨by decide +kernel, by decide +kernel, by decide +kernel, by decide +kernel, by decide +kernel, ?_⟩
  intro j hj
  match j, hj with
  | 0, _ => exact ⟨0, 3, 6, by decide +kernel⟩
  | 1, _ => exact ⟨2, 1, 3, by decide +kernel⟩

/-- U3. -/
theorem wit_DecSym_cut :
    cutStream.phase ≠ .load ∧ cutStream.bitPos ≠ cutStream.bitLen
      ∧ cutStream.bitPos.toNat ≤ cutStream.bitLen.toNat ∧ alen cutStream ≤ cutStream.cfg.abufBytes
      ∧ ∀ k, cutStream.bitPos.toNat + k ≤ cutStream.bitLen.toNat →
        IsInternal cutStream.node
          (follow cutStream.node (rootIdx cutStream) (streamBits cutStream cutStream.bitPos.toNat k)) := by
  refine ⟨by decide +kernel, by decide +kernel, by decide +kernel, by decide +kernel, ?_⟩
  intro k hk
  replace hk : k < 2 := by
    have hp : cutStream.bitPos.toNat = 0 := by decide +kernel
    have hl : cutStream.bitLen.toNat = 1 := by decide +kernel
    rw [hp, hl] at hk
    omega
  obtain rfl | rfl : k = 0 ∨ k = 1 := by omega
  · exact ⟨0, 3, 6, by decide +kernel⟩
  · exact ⟨2, 1, 3, by decide +kernel⟩

/-- U5: another padding in byte 22. -/
theorem wit_Padding : v1Packed.bitPos.toNat ≤ v1Packed.bitLen.toNat
    ∧ (∀ p < v1Packed.bitLen.toNat,
        payloadBit { v1Packed with abuf := [(21, 0x1F), (22, 0x7F)] } p = payloadBit v1Packed p)
    ∧ ∃ t, exec .decSym v1Packed = .next t :=
  ⟨by decide +kernel, by decide +kernel, _, eq_nextOf (by decide +kernel)⟩

theorem wit_EncodedSymbol : Sound v1Packed ∧ v1Packed.phase = .coded ∧ v1Packed.err = false
    ∧ ∃ t, exec (.encSym 0x62) v1Packed = .next t ∧ t.err = false :=
  ⟨inv_v1Packed, by decide +kernel, by decide +kernel, _, eq_nextOf (by decide +kernel), by decide +kernel⟩

theorem wit_StreamRoundTrip :
    let xs : List Symbol := [0x61, 0x61, 0x61, 0x62, 0x62, 0x63]
    Sound v1Coded ∧ v1Coded.phase = .coded ∧ v1Coded.bitLen = 0 ∧ (∀ x ∈ xs, freqAt v1Coded.freq x ≠ 0)
      ∧ pbase v1Coded + ceil8 (xs.map fun x => (codeAt v1Coded.code x).len.toNat).sum ≤ v1Coded.cfg.abufBytes :=
  ⟨inv_v1Coded, by decide +kernel, by decide +kernel, by decide +kernel, by decide +kernel⟩

theorem wit_WrHeader : v1Load.phase = .load ∧ v1Packed.phase ≠ .load ∧ pbase v1Packed ≤ 21
    ∧ (presentEntries v1Packed.freq)[0]? = some (0x61, 3) ∧ (presentEntries v1Packed.freq)[2]? = some (0x63, 1) := by
  decide +kernel

/-- The boundaries of checks 1 to 4 and 8. -/
theorem wit_RdHeaderChecks :
    (gLoaded 65537).argLat.toNat = (gLoaded 65537).cfg.abufBytes + 1
    ∧ (gLoaded 1).argLat.toNat < 2
    ∧ (memRead (withBytes State.reset [0x00, 0x00]) 0 2 = 0 ∧ memRead (withBytes State.reset [0x01, 0x01]) 0 2 = 257)
    ∧ ((claims256 1285).argLat.toNat < 6 + 5 * 256 ∧ memRead (claims256 1285) 0 2 = 256)
    ∧ ((gLoaded 20).argLat.toNat < 6 + 5 * 3 ∧ memRead (gLoaded 20) 0 2 = 3)
    ∧ ((∀ j < 3, entryFault (gLoaded 22) j = none)
      ∧ (gLoaded 22).argLat.toNat ≠ 6 + 5 * 3 + ceil8 (memRead (gLoaded 22) 17 4)) := by decide +kernel

/-- Checks 5, 6 and 7: S7 at the entry 1, S9 at the entry 1, S10 at the entry 1, and f_0 = 0 at the entry 0. -/
theorem wit_RdHeaderEntries :
    let s : Nat → Byte → State := fun a v => { gLoaded 23 with abuf := Memory.write (gLoaded 23).abuf a v }
    (entryFault (s 7 0x61) 0 = none ∧ entryFault (s 7 0x61) 1 = some 0x03)
      ∧ (entryFault (s 11 0) 0 = none ∧ entryFault (s 11 0) 1 = some 0x04) ∧ entryFault (s 6 0) 0 = some 0x04
      ∧ (let u := { gLoaded 23 with
          abuf := Memory.writeBytes (gLoaded 23).abuf 3 [0xFF, 0xFF, 0xFF, 0xFE] }
        entryFault u 0 = none ∧ entryFault u 1 = some 0x05) := by decide +kernel

/-- S1 with n = 3, and T2's artifact with n = 1. -/
theorem wit_RdHeaderLoads :
    (let s := gLoaded 23; memRead s 0 2 = 3 ∧ s.argLat.toNat ≤ s.cfg.abufBytes ∧ (∀ j < 3, entryFault s j = none)
        ∧ s.argLat.toNat = 6 + 5 * 3 + ceil8 (memRead s (2 + 5 * 3) 4)
        ∧ (0x63 : Symbol).toNat = memRead s (2 + 5 * 2) 1 ∧ ∀ i < 3, (0x64 : Symbol).toNat ≠ memRead s (2 + 5 * i) 1)
    ∧ (let s := { withBytes State.reset [0, 1, 0x61, 0, 0, 0, 4, 0, 0, 0, 4, 0] with argLat := 12 }
      memRead s 0 2 = 1 ∧ s.argLat.toNat ≤ s.cfg.abufBytes ∧ (∀ j < 1, entryFault s j = none)
        ∧ s.argLat.toNat = 6 + 5 * 1 + ceil8 (memRead s (2 + 5 * 1) 4)) := by decide +kernel

theorem wit_HeaderRoundTrip : Sound v1Packed ∧ v1Packed.phase ≠ .load ∧ v1Packed.err = false :=
  ⟨inv_v1Packed, by decide +kernel, by decide +kernel⟩

theorem wit_Truncated : (gLoaded 23).err = false
    ∧ ∃ t, exec .rdHeader (gLoaded 23) = .next t ∧ t.err = false ∧ 1 ≤ ceil8 t.bitLen.toNat :=
  ⟨by decide +kernel, _, eq_nextOf (by decide +kernel), by decide +kernel, by decide +kernel⟩

theorem wit_BigEndian : ∀ p ∈ [(1, 255), (2, 65535), (4, 4294967295)], p.1 ∈ [1, 2, 4] ∧ p.2 < 256 ^ p.1 := by decide

theorem wit_CmdWrite : State.reset.busy = false ∧ 3 < 4 := by decide +kernel

theorem wit_WritesWhileBusy : v1Encoding.busy = true ∧ v1Encoding.doneFlag = false
    ∧ ∃ t, engineTurn v1Encoding = .next t :=
  ⟨rfl, rfl, _, eq_nextOf (by decide +kernel)⟩

/-- The last register and the reserved offsets on each side of the space. -/
theorem wit_WritesWhileIdle : v1Packed.busy = false ∧ regOfAddr 0x04B = some .abufSize ∧ regOfAddr 0x04C = none
    ∧ regOfAddr 0xFFF = none := by decide +kernel

theorem wit_IdleReads : Sound v1Packed ∧ v1Packed.busy = false ∧ Sound v1Load ∧ v1Load.busy = false
    ∧ ((List.finRange 256).filter fun i => v1Packed.freq[i] ≠ 0).length = 3
    ∧ ((List.finRange 256).map fun i => (v1Packed.freq[i]).toNat).sum = 6 :=
  ⟨inv_v1Packed, by decide +kernel, inv_v1Load, by decide +kernel, by decide +kernel, by decide +kernel⟩

theorem wit_ReadsWhileBusy : v1Encoding.busy = true ∧ v1Encoding.doneFlag = false
    ∧ v1Encoding.abufPtr.toNat < v1Encoding.cfg.abufBytes := by decide +kernel

/-- The last address of ABUF, idle and busy. -/
theorem wit_AbufPort :
    let s := { v1Packed with abufPtr := 65535 }
    s.abufPtr.toNat + 1 = s.cfg.abufBytes ∧ s.busy = false ∧ { s with busy := true }.busy = true := by decide +kernel

theorem wit_Interrupt : ReadsAs { v1Packed with ctrl := 3 } 0x004 3 ∧ ReadsAs v1Packed 0x008 0x22 := by
  unfold ReadsAs; decide +kernel

theorem wit_Idle : State.reset.busy = false ∧ State.reset.pending = [] := by decide

theorem wit_WriteWithRead : ∃ t, applyEvent (.write 0x004 3) State.reset = .next t := ⟨_, rfl⟩

/-- A sound state whose step is a command, and one whose step is a host write. -/
theorem wit_StepKeeps : (Sound v1Encoding ∧ ∃ t, step v1Encoding = .next t)
    ∧ (Sound v1Writing
      ∧ ∃ t, step v1Writing = .next t) :=
  ⟨⟨inv_v1Encoding, _, eq_nextOf (by decide +kernel)⟩,
    inv_v1Writing, _, eq_nextOf (by decide +kernel)⟩

/-! ### Host programs -/

/-- Turns of a host program that go on, to a run that passes a test. -/
def runsTo (o : RunOut) (p : HostRun → Bool) : Bool :=
  match o with
  | .next r => p r
  | .fault _ => false
  | .refused _ => false

/-- R103: WAIT polls twice while BUSY = 1, and the poll after the completion ends it. -/
theorem test_wait :
    runsTo (takeTurns [.host, .host] { acts := [.waitIdle], state := accepted State.reset 0 })
        (fun r => r.acts == [.waitIdle] && r.state.rdata == 1)
      ∧ runsTo (takeTurns [.host, .host, .outside .complete, .host]
          { acts := [.waitIdle], state := accepted State.reset 0 })
        (fun r => r.acts == [] && r.state.rdata == 2) := by decide +kernel

/-- U6 and R103: the last symbol leaves the loop to go on, 0x100 ends it. -/
theorem test_decompress_loop :
    let round : List Turn := [.host, .host, .outside .complete, .host, .host]
    let start : HostRun := { acts := [.decSym], state := { single 0x00 with bitPos := 3 } }
    runsTo (takeTurns round start) (fun r => r.acts == [.decSym] && r.state.rdata == 0x61)
      ∧ runsTo (takeTurns (round ++ round) start) (fun r => r.acts == [] && r.state.rdata == 0x100) := by
  decide +kernel

theorem wit_AssembledLines_wr : (4294967295 : Nat) < 2 ^ 32 := by decide

theorem wit_Wait : v1Encoding.busy = true ∧ ∃ t, engineTurn v1Encoding = .next t :=
  ⟨rfl, _, eq_nextOf (by decide +kernel)⟩

/-- The first and the last symbol of a stream of two. -/
theorem wit_DecompressLoop :
    let xs : List Symbol := [0x61, 0x62]
    (Sound v1Coded ∧ v1Coded.phase = .coded ∧ v1Coded.err = false ∧ v1Coded.bitLen = 0
      ∧ (∀ x ∈ xs, freqAt v1Coded.freq x ≠ 0)
      ∧ pbase v1Coded + ceil8 (xs.map fun x => (codeAt v1Coded.code x).len.toNat).sum ≤ v1Coded.cfg.abufBytes)
      ∧ (∃ t u, encodeAll xs v1Coded = .next t ∧ exec .rewind t = .next u)
      ∧ xs[0]? = some 0x61 ∧ xs[1]? = some 0x62 :=
  ⟨⟨inv_v1Coded, by decide +kernel, by decide +kernel, by decide +kernel, by decide +kernel, by decide +kernel⟩,
    ⟨_, _, eq_nextOf (by decide +kernel), eq_nextOf (by decide +kernel)⟩, by decide, by decide⟩

end Sys2Proof.Tests
end

section
/-! SUPPORT. What BUILD's arena is (`41_tree_builder.md` R132, R133): the leaves, then merges of the two least
nodes not yet merged. The loop's invariant `MergeInv` ties the priority collection to the arena. -/

namespace Sys2Proof.Machine

/-! ### Arenas that grow -/

theorem getElem?_append_of_some {arena : List Node} {i : Nat} {nd : Node} (h : arena[i]? = some nd)
    (more : List Node) : (arena ++ more)[i]? = some nd := by
  rw [List.getElem?_append_left (List.getElem?_eq_some_iff.1 h).1, h]

theorem unmerged_append {arena : List Node} {k : Nat} (hk : k ≤ arena.length) (more : List Node) (i : Nat) :
    Unmerged (arena ++ more) k i ↔ Unmerged arena k i := by
  refine and_congr_right fun _ => forall₂_congr fun j hj => ?_
  rw [List.getElem?_append_left (by omega)]

theorem Before.append {arena : List Node} {i j : Nat} (h : Before arena i j) (more : List Node) :
    Before (arena ++ more) i j := by
  obtain ⟨a, b, ha, hb, hlt⟩ := h
  exact ⟨a, b, getElem?_append_of_some ha more, getElem?_append_of_some hb more, hlt⟩

theorem Before.ne {arena : List Node} {i j : Nat} (h : Before arena i j) : i ≠ j := by
  rintro rfl
  obtain ⟨a, b, ha, hb, hlt⟩ := h
  cases ha.symm.trans hb
  omega

/-- An internal entry's children have smaller indices. -/
def ChildrenBelow (arena : List Node) : Prop :=
  ∀ (j : Nat) (l r : NodeIdx) (w : Word), arena[j]? = some (.internal l r w) → l.val < j ∧ r.val < j

/-- A new internal entry is itself unmerged, and merges its two children. -/
theorem unmerged_push {arena : List Node} (hb : ChildrenBelow arena) {l r : NodeIdx} {w : Word}
    (hl : l.val < arena.length) (hr : r.val < arena.length) (i : Nat) :
    Unmerged (arena ++ [.internal l r w]) (arena.length + 1) i ↔
      i = arena.length ∨ Unmerged arena arena.length i ∧ i ≠ l.val ∧ i ≠ r.val := by
  constructor
  · rintro ⟨hi, h⟩
    by_cases hlast : i = arena.length
    · exact .inl hlast
    · obtain ⟨hil, hir⟩ := h arena.length (by omega) l r w (by simp)
      exact .inr ⟨⟨by omega, fun j hj l' r' w' e =>
        h j (by omega) l' r' w' (getElem?_append_of_some e _)⟩, hil.symm, hir.symm⟩
  · intro h
    refine ⟨by rcases h with rfl | ⟨⟨hi, -⟩, -⟩ <;> omega, fun j hj l' r' w' e => ?_⟩
    rcases Nat.lt_succ_iff_lt_or_eq.1 hj with hj | rfl
    · rw [List.getElem?_append_left hj] at e
      rcases h with rfl | ⟨⟨-, h⟩, -⟩
      · have := hb j l' r' w' e; omega
      · exact h j hj l' r' w' e
    · simp only [List.getElem?_concat_length, Option.some.injEq, Node.internal.injEq] at e
      obtain ⟨rfl, rfl, rfl⟩ := e
      rcases h with rfl | ⟨-, hil, hir⟩
      · omega
      · exact ⟨hil.symm, hir.symm⟩

/-! ### The merges -/

/-- Entry k merges the two least nodes not yet merged, the least as LEFT (`41_tree_builder.md` R132, R133). -/
def MergesTwoLeast (arena : List Node) (k : Nat) : Prop :=
  ∃ (l r : NodeIdx) (w : Word) (a b : Node), arena[k]? = some (.internal l r w)
    ∧ Unmerged arena k l.val ∧ Unmerged arena k r.val ∧ Before arena l.val r.val
    ∧ (∀ i, Unmerged arena k i → i ≠ l.val → i ≠ r.val → Before arena r.val i)
    ∧ arena[l.val]? = some a ∧ arena[r.val]? = some b ∧ w.toNat = a.weight.toNat + b.weight.toNat

theorem MergesTwoLeast.append {arena : List Node} {k : Nat} (h : MergesTwoLeast arena k) (more : List Node) :
    MergesTwoLeast (arena ++ more) k := by
  obtain ⟨l, r, w, a, b, hk, hl, hr, hlr, hleast, ha, hb, hw⟩ := h
  have hlen : k ≤ arena.length := (List.getElem?_eq_some_iff.1 hk).1.le
  exact ⟨l, r, w, a, b, getElem?_append_of_some hk more, (unmerged_append hlen more _).2 hl,
    (unmerged_append hlen more _).2 hr, hlr.append more,
    fun i hi hil hir => (hleast i ((unmerged_append hlen more i).1 hi) hil hir).append more,
    getElem?_append_of_some ha more, getElem?_append_of_some hb more, hw⟩

/-- The invariant of the merge loop: Q holds the key of each node not yet merged, once. -/
structure MergeInv (q : List Key) (arena : List Node) : Prop where
  nodup : q.Nodup
  mem_iff : ∀ k, k ∈ q ↔ Unmerged arena arena.length k.idx ∧ ∃ nd, arena[k.idx]? = some nd ∧ nd.weight = k.weight
  below : ChildrenBelow arena

/-- The sum of the weights in Q, which every merge keeps (`41_tree_builder.md` R132). -/
def queueWeight (q : List Key) : Nat := (q.map fun k => k.weight.toNat).sum

theorem queueWeight_erase {q : List Key} {a b : Key} (ha : a ∈ q) (hb : b ∈ q.erase a) :
    a.weight.toNat + (b.weight.toNat + queueWeight ((q.erase a).erase b)) = queueWeight q := by
  rw [queueWeight, List.sum_map_erase (fun k => k.weight.toNat) hb,
    List.sum_map_erase (fun k => k.weight.toNat) ha, queueWeight]

/-- Two weights of Q do not wrap when added (`00_scope.md` R13). -/
theorem weight_add_toNat {q : List Key} {a b : Key} (ha : a ∈ q) (hb : b ∈ q.erase a)
    (hq : queueWeight q ≤ 2 ^ 32 - 1) : (a.weight + b.weight).toNat = a.weight.toNat + b.weight.toNat := by
  have := queueWeight_erase ha hb
  rw [BitVec.toNat_add, Nat.mod_eq_of_lt (by omega)]

namespace MergeInv

variable {q : List Key} {arena : List Node}

theorem idx_lt (h : MergeInv q arena) {k : Key} (hk : k ∈ q) : k.idx < arena.length := ((h.mem_iff k).1 hk).1.1

theorem eq_of_idx_eq (h : MergeInv q arena) {a b : Key} (ha : a ∈ q) (hb : b ∈ q) (hi : a.idx = b.idx) : a = b := by
  obtain ⟨-, na, hna, hwa⟩ := (h.mem_iff a).1 ha
  obtain ⟨-, nb, hnb, hwb⟩ := (h.mem_iff b).1 hb
  rw [hi, hnb] at hna
  cases hna
  cases a; cases b
  simp_all

/-- The order of keys is the order of their entries (`41_tree_builder.md` R133). -/
theorem before (h : MergeInv q arena) {a b : Key} (ha : a ∈ q) (hb : b ∈ q) (hab : a ≠ b)
    (hleast : keyLess b a = false) : Before arena a.idx b.idx := by
  have hlt : keyLess a b = true := by
    by_contra hn
    exact hab (key_eq_of_not_less (by simpa using hn) hleast)
  obtain ⟨-, na, hna, hwa⟩ := (h.mem_iff a).1 ha
  obtain ⟨-, nb, hnb, hwb⟩ := (h.mem_iff b).1 hb
  refine ⟨na, nb, hna, hnb, ?_⟩
  rw [keyLess_iff] at hlt
  rw [hwa, hwb, ← BitVec.toNat_inj]
  exact hlt

theorem mem_of_unmerged (h : MergeInv q arena) {i : Nat} (hi : Unmerged arena arena.length i) :
    ∃ k ∈ q, k.idx = i :=
  ⟨⟨arena[i]'hi.1 |>.weight, i⟩, (h.mem_iff _).2 ⟨hi, _, List.getElem?_eq_getElem hi.1, rfl⟩, rfl⟩

/-- A collection of one key: one node is left unmerged. -/
theorem unmerged_iff_of_singleton {k : Key} (h : MergeInv [k] arena) (i : Nat) :
    Unmerged arena arena.length i ↔ i = k.idx := by
  constructor
  · intro hi
    obtain ⟨x, hx, rfl⟩ := h.mem_of_unmerged hi
    rw [List.mem_singleton.1 hx]
  · rintro rfl
    exact ((h.mem_iff k).1 List.mem_cons_self).1

section Step

variable {a b : Key} (h : MergeInv q arena) (hlen : arena.length < 511) (ha : a ∈ q)
  (hla : ∀ x ∈ q, keyLess x a = false) (hb : b ∈ q.erase a) (hlb : ∀ x ∈ q.erase a, keyLess x b = false)
include h hlen ha hb

/-- A merge keeps the invariant: two keys leave Q, the new node's key enters (`41_tree_builder.md` R132). -/
theorem step : MergeInv ((q.erase a).erase b ++ [{ weight := a.weight + b.weight, idx := arena.length }])
    (arena ++ [mergeNode a b]) := by
  have hbq : b ∈ q := List.mem_of_mem_erase hb
  have hva : (nodeIdx a.idx).val = a.idx := nodeIdx_val ((h.idx_lt ha).trans hlen)
  have hvb : (nodeIdx b.idx).val = b.idx := nodeIdx_val ((h.idx_lt hbq).trans hlen)
  have hmem : ∀ k, k ∈ (q.erase a).erase b ↔ k.idx ≠ b.idx ∧ k.idx ≠ a.idx ∧ k ∈ q := by
    intro k
    rw [(h.nodup.erase a).mem_erase_iff, h.nodup.mem_erase_iff]
    constructor
    · rintro ⟨hkb, hka, hk⟩
      exact ⟨fun e => hkb (h.eq_of_idx_eq hk hbq e), fun e => hka (h.eq_of_idx_eq hk ha e), hk⟩
    · rintro ⟨hkb, hka, hk⟩
      exact ⟨fun e => hkb (e ▸ rfl), fun e => hka (e ▸ rfl), hk⟩
  refine ⟨?_, fun k => ?_, ?_⟩
  · rw [← List.concat_eq_append]
    refine List.Nodup.concat (fun hnew => ?_) ((h.nodup.erase a).erase b)
    exact absurd (h.idx_lt ((hmem _).1 hnew).2.2) (lt_irrefl _)
  · rw [List.length_append, List.length_singleton, mergeNode,
      unmerged_push h.below (by rw [hva]; exact h.idx_lt ha) (by rw [hvb]; exact h.idx_lt hbq), hva, hvb,
      List.mem_append, List.mem_singleton, hmem, h.mem_iff]
    constructor
    · rintro (⟨hkb, hka, hk, nd, hnd, hw⟩ | rfl)
      · exact ⟨.inr ⟨hk, hka, hkb⟩, nd, getElem?_append_of_some hnd _, hw⟩
      · exact ⟨.inl rfl, _, List.getElem?_concat_length, rfl⟩
    · rintro ⟨hk | ⟨hk, hka, hkb⟩, nd, hnd, hw⟩
      · right
        rw [hk, List.getElem?_concat_length, Option.some.injEq] at hnd
        subst hnd
        cases k
        simp_all [Node.weight]
      · rw [List.getElem?_append_left hk.1] at hnd
        exact .inl ⟨hkb, hka, hk, nd, hnd, hw⟩
  · intro j l r w e
    rcases Nat.lt_or_ge j arena.length with hj | hj
    · rw [List.getElem?_append_left hj] at e
      exact h.below j l r w e
    · have hj' := (List.getElem?_eq_some_iff.1 e).1
      obtain rfl : j = arena.length := by simp at hj'; omega
      simp only [mergeNode, List.getElem?_concat_length, Option.some.injEq, Node.internal.injEq] at e
      obtain ⟨rfl, rfl, -⟩ := e
      rw [hva, hvb]
      exact ⟨h.idx_lt ha, h.idx_lt hbq⟩

include hla hlb

/-- The two keys extracted are those of the two least nodes not yet merged (`41_tree_builder.md` R132, R133). -/
theorem mergesTwoLeast (hq : queueWeight q ≤ 2 ^ 32 - 1) :
    MergesTwoLeast (arena ++ [mergeNode a b]) arena.length := by
  obtain ⟨hba, hbq⟩ := h.nodup.mem_erase_iff.1 hb
  have hva : (nodeIdx a.idx).val = a.idx := nodeIdx_val ((h.idx_lt ha).trans hlen)
  have hvb : (nodeIdx b.idx).val = b.idx := nodeIdx_val ((h.idx_lt hbq).trans hlen)
  obtain ⟨hua, na, hna, hwa⟩ := (h.mem_iff a).1 ha
  obtain ⟨hub, nb, hnb, hwb⟩ := (h.mem_iff b).1 hbq
  refine ⟨nodeIdx a.idx, nodeIdx b.idx, a.weight + b.weight, na, nb, List.getElem?_concat_length, ?_⟩
  simp only [hva, hvb, unmerged_append le_rfl]
  refine ⟨hua, hub, (h.before ha hbq hba.symm (hla b hbq)).append _, fun i hi hia hib => ?_,
    getElem?_append_of_some hna _, getElem?_append_of_some hnb _, ?_⟩
  · obtain ⟨k, hk, rfl⟩ := h.mem_of_unmerged hi
    have hka : k ∈ q.erase a := h.nodup.mem_erase_iff.2 ⟨fun e => hia (e ▸ rfl), hk⟩
    exact (h.before hbq hk (fun e => hib (e ▸ rfl)) (hlb k hka)).append _
  · rw [hwa, hwb, weight_add_toNat ha hb hq]

end Step

end MergeInv

/-- The merge loop from a collection of `fuel + 1` keys: every new entry merges the two least nodes not yet merged,
and one key is left. -/
theorem mergeLoop_merges {fuel : Nat} {q : List Key} {arena : List Node} (h : MergeInv q arena)
    (hfuel : q.length = fuel + 1) (hsize : arena.length + fuel ≤ 511) (hq : queueWeight q ≤ 2 ^ 32 - 1) :
    (∀ k, arena.length ≤ k → k < arena.length + fuel → MergesTwoLeast (mergeLoop fuel q arena) k)
      ∧ ∃ k, MergeInv [k] (mergeLoop fuel q arena) := by
  induction fuel generalizing q arena with
  | zero =>
    obtain ⟨k, rfl⟩ := List.length_eq_one_iff.1 hfuel
    exact ⟨fun k hk hk' => by omega, k, h⟩
  | succ fuel ih =>
    obtain ⟨a, b, ha, hla, hb, hlb, he⟩ := mergeLoop_step fuel q arena (by omega)
    rw [he]
    have hl : ((q.erase a).erase b).length = fuel := by
      rw [List.length_erase_of_mem hb, List.length_erase_of_mem ha, hfuel]; rfl
    have hsum : queueWeight ((q.erase a).erase b ++ [Key.mk (a.weight + b.weight) arena.length]) = queueWeight q := by
      rw [← queueWeight_erase ha hb]
      simp only [queueWeight, List.map_append, List.map_cons, List.map_nil, List.sum_append, List.sum_singleton,
        weight_add_toNat ha hb hq]
      omega
    have hlen : ((q.erase a).erase b ++ [Key.mk (a.weight + b.weight) arena.length]).length = fuel + 1 := by simp [hl]
    obtain ⟨hmerges, hlast⟩ := ih (h.step (by omega) ha hb) hlen (by simp; omega) (by omega)
    obtain ⟨more, hmore, -⟩ := mergeLoop_extends fuel _ (arena ++ [mergeNode a b]) hlen.ge
    refine ⟨fun k hk hk' => ?_, hlast⟩
    rcases Nat.eq_or_lt_of_le hk with rfl | hk
    · rw [hmore]
      exact (h.mergesTwoLeast (by omega) ha hla hb hlb hq).append more
    · exact hmerges k (by simp; omega) (by simp; omega)

/-! ### The leaves -/

theorem leaves_getElem? {f : Vector Word 256} {i : Nat} {nd : Node} :
    (leaves f)[i]? = some nd ↔ ∃ x w, nd = .leaf x w ∧ (presentEntries f)[i]? = some (x, w) := by
  simp only [leaves, List.getElem?_map, Option.map_eq_some_iff, Prod.exists, and_comm, eq_comm (a := nd)]

theorem leaves_not_internal {f : Vector Word 256} {i : Nat} {l r : NodeIdx} {w : Word} :
    (leaves f)[i]? ≠ some (.internal l r w) := by
  rw [Ne, leaves_getElem?]
  rintro ⟨x, v, h, -⟩
  cases h

theorem mem_keysOf {arena : List Node} {k : Key} :
    k ∈ keysOf arena ↔ ∃ nd, arena[k.idx]? = some nd ∧ nd.weight = k.weight := by
  obtain ⟨w, i⟩ := k
  simp only [keysOf, List.mem_map, Prod.exists, List.mk_mem_zipIdx_iff_getElem?, Key.mk.injEq]
  constructor
  · rintro ⟨nd, j, hj, hw, rfl⟩
    exact ⟨nd, hj, hw⟩
  · rintro ⟨nd, hj, hw⟩
    exact ⟨nd, i, hj, hw, rfl⟩

theorem keysOf_nodup (arena : List Node) : (keysOf arena).Nodup := by
  apply List.Nodup.of_map Key.idx
  have : (keysOf arena).map Key.idx = List.range' 0 arena.length := by
    rw [keysOf, List.map_map]
    exact List.zipIdx_map_snd 0 arena
  rw [this]
  exact List.nodup_range'

/-- Before the first merge no leaf is merged (`41_tree_builder.md` R132). -/
theorem mergeInv_leaves (f : Vector Word 256) : MergeInv (keysOf (leaves f)) (leaves f) where
  nodup := keysOf_nodup _
  mem_iff k := by
    rw [mem_keysOf]
    refine ⟨fun ⟨nd, hnd, hw⟩ => ⟨⟨(List.getElem?_eq_some_iff.1 hnd).1, ?_⟩, nd, hnd, hw⟩, And.right⟩
    exact fun _ _ _ _ _ e => absurd e leaves_not_internal
  below _ _ _ _ e := absurd e leaves_not_internal

/-- The counts of the present symbols add up to TOTAL (`10_state.md` R34). -/
theorem sum_entries (l : List Word) (k : Nat) :
    (((l.zipIdx k).filterMap fun p => if p.1 = 0 then none else some (BitVec.ofNat 8 p.2, p.1)).map
      fun p : Symbol × Word => p.2.toNat).sum = (l.map BitVec.toNat).sum := by
  induction l generalizing k with
  | nil => rfl
  | cons w l ih =>
    rw [List.zipIdx_cons, List.filterMap_cons, List.map_cons, List.sum_cons, ← ih (k + 1)]
    split
    · rename_i hw
      obtain rfl : w = 0 := by simpa using hw
      simp
    · rename_i e hw
      obtain ⟨-, rfl⟩ := by simpa using hw
      simp

theorem queueWeight_keysOf (arena : List Node) :
    queueWeight (keysOf arena) = (arena.map fun nd => nd.weight.toNat).sum := by
  conv_rhs => rw [← List.zipIdx_map_fst 0 arena, List.map_map]
  rw [queueWeight, keysOf, List.map_map]
  rfl

theorem queueWeight_leaves (f : Vector Word 256) :
    queueWeight (keysOf (leaves f)) = (f.toList.map BitVec.toNat).sum := by
  rw [queueWeight_keysOf, leaves, List.map_map, ← sum_entries f.toList 0]
  rfl

/-! ### BUILD's arena -/

section BuildArena

variable {f : Vector Word 256} {n : Nat} (hn : (presentEntries f).length = n) (h1 : 1 ≤ n)
include hn h1

theorem buildArena_extends_leaves : ∃ more, buildArena f = leaves f ++ more ∧ more.length = n - 1 := by
  have hl : (leaves f).length = n := (leaves_length f).trans hn
  rw [← hl]
  exact mergeLoop_extends _ _ _ (by rw [keysOf_length]; omega)

theorem buildArena_length : (buildArena f).length = 2 * n - 1 := by
  obtain ⟨more, he, hm⟩ := buildArena_extends_leaves hn h1
  rw [he, List.length_append, leaves_length, hn, hm]
  omega

variable (hT : (f.toList.map BitVec.toNat).sum ≤ 2 ^ 32 - 1)
include hT

/-- Every entry after the leaves is a merge, and the collection ends with one key (`41_tree_builder.md` R132). -/
theorem buildArena_merges :
    (∀ k, n ≤ k → k < 2 * n - 1 → MergesTwoLeast (buildArena f) k) ∧ ∃ k, MergeInv [k] (buildArena f) := by
  have hl : (leaves f).length = n := (leaves_length f).trans hn
  have h256 : n ≤ 256 := hn ▸ presentEntries_length_le f
  obtain ⟨hmerges, hlast⟩ := mergeLoop_merges (mergeInv_leaves f) (fuel := (leaves f).length - 1)
    (by rw [keysOf_length]; omega) (by omega) (by rwa [queueWeight_leaves])
  exact ⟨fun k hk hk' => hmerges k (by omega) (by omega), hlast⟩

/-- The leaf entries are the present symbols in order (`41_tree_builder.md` R132). -/
theorem buildArena_leaf_iff (i : Nat) (x : Symbol) (w : Word) :
    (buildArena f)[i]? = some (.leaf x w) ↔ (presentEntries f)[i]? = some (x, w) := by
  obtain ⟨more, he, hm⟩ := buildArena_extends_leaves hn h1
  have hl : (leaves f).length = n := (leaves_length f).trans hn
  have hleaf : (leaves f)[i]? = some (.leaf x w) ↔ (presentEntries f)[i]? = some (x, w) := by
    rw [leaves_getElem?]
    constructor
    · rintro ⟨y, v, e, h⟩
      cases e
      exact h
    · exact fun h => ⟨x, w, rfl, h⟩
  rw [← hleaf]
  rcases Nat.lt_or_ge i n with hi | hi
  · rw [he, List.getElem?_append_left (by omega)]
  · rw [List.getElem?_eq_none (by omega : (leaves f).length ≤ i)]
    refine ⟨fun h => ?_, nofun⟩
    have hi' : i < 2 * n - 1 := buildArena_length hn h1 ▸ (List.getElem?_eq_some_iff.1 h).1
    obtain ⟨l, r, v, a, b, hk, -⟩ := (buildArena_merges hn h1 hT).1 i hi hi'
    cases h.symm.trans hk

/-- An internal entry merges two different nodes not merged before it, and its weight is their sum
(`41_tree_builder.md` R132). -/
theorem buildArena_internal {k : Nat} {l r : NodeIdx} {w : Word}
    (h : (buildArena f)[k]? = some (.internal l r w)) :
    Unmerged (buildArena f) k l.val ∧ Unmerged (buildArena f) k r.val ∧ l ≠ r
      ∧ ∃ a b, (buildArena f)[l.val]? = some a ∧ (buildArena f)[r.val]? = some b
        ∧ w.toNat = a.weight.toNat + b.weight.toNat := by
  have hk' : k < 2 * n - 1 := buildArena_length hn h1 ▸ (List.getElem?_eq_some_iff.1 h).1
  obtain ⟨more, he, -⟩ := buildArena_extends_leaves hn h1
  have hk : n ≤ k := by
    by_contra hlt
    rw [he, List.getElem?_append_left (by rw [leaves_length]; omega)] at h
    exact leaves_not_internal h
  obtain ⟨l', r', w', a, b, e, hl, hr, hlr, -, ha, hb, hw⟩ := (buildArena_merges hn h1 hT).1 k hk hk'
  cases h.symm.trans e
  exact ⟨hl, hr, fun e => hlr.ne (congrArg _ e), a, b, ha, hb, hw⟩

/-- Only the last entry is left unmerged: the root (`10_state.md` R36, `41_tree_builder.md` R132). -/
theorem buildArena_unmerged_iff (i : Nat) : Unmerged (buildArena f) (2 * n - 1) i ↔ i = 2 * n - 2 := by
  obtain ⟨-, k, hk⟩ := buildArena_merges hn h1 hT
  have hlen := buildArena_length hn h1
  have hlast : Unmerged (buildArena f) (2 * n - 1) (2 * n - 2) :=
    ⟨by omega, fun j hj l r w e => by have := hk.below j l r w e; omega⟩
  have hone := hk.unmerged_iff_of_singleton
  rw [hlen] at hone
  rw [hone, (hone _).1 hlast]

/-- Every entry but the root is a child (`10_state.md` R37). -/
theorem buildArena_parent_exists {j : Nat} (hj : j < 2 * n - 1) (hroot : j ≠ 2 * n - 2) :
    ∃ i < 2 * n - 1, ∃ (l r : NodeIdx) (w : Word), (buildArena f)[i]? = some (.internal l r w)
      ∧ (l.val = j ∨ r.val = j) := by
  by_contra hnone
  refine hroot ((buildArena_unmerged_iff hn h1 hT j).1 ⟨hj, fun i hi l r w e => ?_⟩)
  by_contra hchild
  exact hnone ⟨i, hi, l, r, w, e, by omega⟩

/-- No two entries have a child in common (`10_state.md` R37). -/
theorem buildArena_parent_unique {i k : Nat} {l r l' r' : NodeIdx} {w w' : Word} {j : Nat}
    (hi : (buildArena f)[i]? = some (.internal l r w)) (hk : (buildArena f)[k]? = some (.internal l' r' w'))
    (hij : l.val = j ∨ r.val = j) (hkj : l'.val = j ∨ r'.val = j) : k = i := by
  have no_earlier : ∀ {i k : Nat} {l r l' r' : NodeIdx} {w w' : Word},
      (buildArena f)[i]? = some (.internal l r w) → (buildArena f)[k]? = some (.internal l' r' w') →
      (l.val = j ∨ r.val = j) → (l'.val = j ∨ r'.val = j) → ¬ i < k := by
    intro i k l r l' r' w w' hi hk hij hkj hlt
    obtain ⟨⟨-, hl⟩, ⟨-, hr⟩, -⟩ := buildArena_internal hn h1 hT hk
    have := hl i hlt l r w hi
    have := hr i hlt l r w hi
    omega
  exact le_antisymm (not_lt.1 (no_earlier hi hk hij hkj)) (not_lt.1 (no_earlier hk hi hkj hij))

/-- A symbol has one leaf (`10_state.md` R37). -/
theorem buildArena_leaf_unique {i k : Nat} {x : Symbol} {v w : Word} (hi : (buildArena f)[i]? = some (.leaf x v))
    (hk : (buildArena f)[k]? = some (.leaf x w)) : k = i := by
  rw [buildArena_leaf_iff hn h1 hT, List.getElem?_eq_some_iff] at hi hk
  obtain ⟨hi, ei⟩ := hi
  obtain ⟨hk, ek⟩ := hk
  have hsorted := List.pairwise_iff_getElem.1 (presentEntries_sorted f)
  rcases Nat.lt_trichotomy i k with h | h | h
  · simpa [ei, ek] using hsorted i k hi hk h
  · exact h.symm
  · simpa [ei, ek] using hsorted k i hk hi h

end BuildArena

/-! ### The tree of a sound state -/

theorem nnodes_of_tree {s : State} (hp : s.phase ≠ .load) : nnodes s = 2 * nsym s - 1 := by
  cases h : s.phase <;> simp_all [nnodes]

theorem root_of_tree {s : State} (hp : s.phase ≠ .load) : root s = 2 * nsym s - 2 := by
  cases h : s.phase <;> simp_all [root]

theorem rootIdx_val {s : State} (hp : s.phase ≠ .load) : (rootIdx s).val = 2 * nsym s - 2 := by
  have := nsym_le s
  rw [rootIdx, root_of_tree hp, nodeIdx_val (by omega)]

section SoundTree

variable {s : State} (hs : Sound s) (hp : s.phase ≠ .load)
include hs hp

/-- NODE below NNODES is BUILD's arena (INV2 of `10_state.md` R51). -/
theorem nodeAt_eq_iff_arena {i : NodeIdx} (hi : i.val < nnodes s) (nd : Node) :
    nodeAt s.node i = nd ↔ (buildArena s.freq)[i.val]? = some nd := by
  rw [nnodes_of_tree hp] at hi
  rw [← (hs.tree hp).2, List.getElem?_take_of_lt hi, nodeAt_eq_getElem]
  simp

theorem isChild_iff_arena {i : NodeIdx} (hi : i.val < nnodes s) (j : NodeIdx) :
    IsChild s.node i j ↔ ∃ (l r : NodeIdx) (w : Word), (buildArena s.freq)[i.val]? = some (.internal l r w)
      ∧ (l.val = j.val ∨ r.val = j.val) := by
  simp only [IsChild, nodeAt_eq_iff_arena hs hp hi, Fin.ext_iff]

theorem existsUnique_parent {j : NodeIdx} (hj : j.val < nnodes s) (hroot : j ≠ rootIdx s) :
    ∃ i : NodeIdx, (i.val < nnodes s ∧ IsChild s.node i j)
      ∧ ∀ k : NodeIdx, k.val < nnodes s → IsChild s.node k j → k = i := by
  have h256 := nsym_le s
  have hnn := nnodes_of_tree hp
  have hne : j.val ≠ 2 * nsym s - 2 := fun e => hroot (Fin.ext (e.trans (rootIdx_val hp).symm))
  obtain ⟨i, hi, l, r, w, e, hc⟩ := buildArena_parent_exists (n := nsym s) rfl (hs.tree hp).1 hs.total_le (hnn ▸ hj) hne
  refine ⟨⟨i, by omega⟩, ⟨by rwa [hnn], (isChild_iff_arena hs hp (by rwa [hnn]) j).2 ⟨l, r, w, e, hc⟩⟩, ?_⟩
  intro k hk hkc
  obtain ⟨l', r', w', e', hc'⟩ := (isChild_iff_arena hs hp hk j).1 hkc
  exact Fin.ext (buildArena_parent_unique rfl (hs.tree hp).1 hs.total_le e e' hc hc')

theorem root_not_child {i : NodeIdx} (hi : i.val < nnodes s) : ¬ IsChild s.node i (rootIdx s) := by
  intro hc
  obtain ⟨l, r, w, e, hc⟩ := (isChild_iff_arena hs hp hi _).1 hc
  obtain ⟨-, hfree⟩ := (buildArena_unmerged_iff rfl (hs.tree hp).1 hs.total_le _).2 (rootIdx_val hp)
  obtain ⟨hl, hr⟩ := hfree i.val (nnodes_of_tree hp ▸ hi) l r w e
  exact hc.elim hl hr

theorem internal_children {i l r : NodeIdx} {w : Word} (hi : i.val < nnodes s)
    (h : nodeAt s.node i = .internal l r w) :
    l ≠ r ∧ l.val < i.val ∧ r.val < i.val
      ∧ w.toNat = (nodeAt s.node l).weight.toNat + (nodeAt s.node r).weight.toNat := by
  obtain ⟨⟨hl, -⟩, ⟨hr, -⟩, hlr, a, b, ha, hb, hw⟩ :=
    buildArena_internal rfl (hs.tree hp).1 hs.total_le ((nodeAt_eq_iff_arena hs hp hi _).1 h)
  rw [← (nodeAt_eq_iff_arena hs hp (hl.trans hi) a).2 ha, ← (nodeAt_eq_iff_arena hs hp (hr.trans hi) b).2 hb] at hw
  exact ⟨hlr, hl, hr, hw⟩

theorem leaf_count {i : NodeIdx} {x : Symbol} {w : Word} (hi : i.val < nnodes s)
    (h : nodeAt s.node i = .leaf x w) : w = freqAt s.freq x ∧ w ≠ 0 := by
  rw [nodeAt_eq_iff_arena hs hp hi, buildArena_leaf_iff rfl (hs.tree hp).1 hs.total_le] at h
  obtain ⟨hw, hf⟩ := (mem_presentEntries s.freq x w).1 (List.mem_of_getElem? h)
  exact ⟨hf.symm, hw⟩

theorem existsUnique_leaf {x : Symbol} (hx : freqAt s.freq x ≠ 0) :
    ∃ i : NodeIdx, (i.val < nnodes s ∧ ∃ w, nodeAt s.node i = .leaf x w)
      ∧ ∀ k : NodeIdx, k.val < nnodes s → (∃ w, nodeAt s.node k = .leaf x w) → k = i := by
  have h256 := nsym_le s
  have hnn := nnodes_of_tree hp
  have h1 := (hs.tree hp).1
  obtain ⟨i, hi⟩ := List.mem_iff_getElem?.1 ((mem_presentEntries s.freq x _).2 ⟨hx, rfl⟩)
  rw [← buildArena_leaf_iff rfl h1 hs.total_le] at hi
  have hin : i < 2 * nsym s - 1 := (buildArena_length rfl h1).symm ▸ (List.getElem?_eq_some_iff.1 hi).1
  refine ⟨⟨i, by omega⟩, ⟨by rwa [hnn], _, (nodeAt_eq_iff_arena hs hp (by rwa [hnn]) _).2 hi⟩, ?_⟩
  rintro k hk ⟨w, hw⟩
  exact Fin.ext (buildArena_leaf_unique rfl h1 hs.total_le hi ((nodeAt_eq_iff_arena hs hp hk _).1 hw))

end SoundTree

/-- Settles O26: each clause of `10_state.md` R37 is a fact about BUILD's arena. -/
theorem nodesFormATree : Obligations.NodesFormATree := fun _ hs hp =>
  ⟨fun _ hj hroot => existsUnique_parent hs hp hj hroot, fun _ hi => root_not_child hs hp hi,
    fun _ _ _ _ hi h => internal_children hs hp hi h, fun _ _ _ hi h => leaf_count hs hp hi h,
    fun _ hx => existsUnique_leaf hs hp hx⟩

end Sys2Proof.Machine
end

section
/-! SUPPORT. What each command does to PHASE and to the host's side, and what the bus does to the tables. -/

namespace Sys2Proof.Machine

/-! ### Commands -/

section Commands

variable {s t : State} {i : Instr}

/-- PHASE after a command (`10_state.md` R27). -/
theorem exec_phase (h : exec i s = .next t) :
    t.phase = s.phase
      ∨ (i = .build ∧ s.phase = .load ∧ t.phase = .built)
      ∨ (i = .genCodes ∧ s.phase ≠ .load ∧ t.phase = .coded)
      ∨ ((i = .clear ∨ i = .rdHeader) ∧ t.phase = .load) := by
  cases i with
  | nop => exact .inl (by rw [execNop_next h]; rfl)
  | clear => exact .inr (.inr (.inr ⟨.inl rfl, by rw [execClear_next h]; rfl⟩))
  | errAck => exact .inl (by rw [execErrAck_next h]; rfl)
  | freqAdd x =>
    rcases execFreqAdd_next h with ⟨-, rfl⟩ | ⟨-, -, rfl⟩ | ⟨-, -, -, rfl⟩ | ⟨-, -, -, rfl⟩ <;> exact .inl rfl
  | rdFreq x => exact .inl (by rw [execRdFreq_next h]; rfl)
  | build =>
    rcases execBuild_next h with ⟨-, rfl⟩ | ⟨-, -, rfl⟩ | ⟨hl, -, rfl⟩
    · exact .inl rfl
    · exact .inl rfl
    · exact .inr (.inl ⟨rfl, hl, rfl⟩)
  | rdNode idx => rcases execRdNode_next h with ⟨-, rfl⟩ | ⟨-, -, rfl⟩ | ⟨-, -, rfl⟩ <;> exact .inl rfl
  | genCodes =>
    rcases execGenCodes_next h with ⟨-, rfl⟩ | ⟨hl, rfl⟩
    · exact .inl rfl
    · exact .inr (.inr (.inl ⟨rfl, hl, rfl⟩))
  | rdCode x w => rcases execRdCode_next h with ⟨-, rfl⟩ | ⟨-, rfl⟩ <;> exact .inl rfl
  | encSym x =>
    rcases execEncSym_next h with ⟨-, rfl⟩ | ⟨-, -, rfl⟩ | ⟨-, -, -, rfl⟩ | ⟨-, -, -, rfl⟩
    · exact .inl rfl
    · exact .inl rfl
    · exact .inl rfl
    · exact .inl (by rw [appendCode_eq]; rfl)
  | strmRst => exact .inl (by rw [execStrmRst_next h]; rfl)
  | decSym =>
    rcases execDecSym_next h with ⟨-, rfl⟩ | ⟨-, -, rfl⟩ | ⟨-, -, rfl | rfl | ⟨x, p, -, -, rfl⟩⟩ <;> exact .inl rfl
  | rewind => exact .inl (by rw [execRewind_next h]; rfl)
  | wrHeader => rcases execWrHeader_next h with ⟨-, rfl⟩ | ⟨-, rfl⟩ <;> exact .inl rfl
  | rdHeader =>
    rcases execRdHeader_next h with ⟨-, rfl⟩ | ⟨-, _, -, rfl⟩ | ⟨-, _, _, -, rfl⟩
    · exact .inl rfl
    · exact .inl rfl
    · exact .inr (.inr (.inr ⟨.inr rfl, rfl⟩))

/-- The phase that a successful BUILD, GEN_CODES, CLEAR or RD_HEADER leaves (`10_state.md` R27). -/
theorem exec_phase_of_success (h : exec i s = .next t) (herr : t.err = false) :
    (i = .build → t.phase = .built) ∧ (i = .genCodes → t.phase = .coded)
      ∧ (i = .clear ∨ i = .rdHeader → t.phase = .load) := by
  refine ⟨?_, ?_, ?_⟩
  · rintro rfl
    rcases execBuild_next h with ⟨-, rfl⟩ | ⟨-, -, rfl⟩ | ⟨-, -, rfl⟩
    · cases herr
    · cases herr
    · rfl
  · rintro rfl
    rcases execGenCodes_next h with ⟨-, rfl⟩ | ⟨-, rfl⟩
    · cases herr
    · rfl
  · rintro (rfl | rfl)
    · rw [execClear_next h]; rfl
    · rcases execRdHeader_next h with ⟨-, rfl⟩ | ⟨-, _, -, rfl⟩ | ⟨-, _, _, -, rfl⟩
      · cases herr
      · cases herr
      · rfl

theorem SameHostSide.raise (opc : Byte) (e : ErrorCode) (sub : Byte) (s : State) :
    SameHostSide s (raise opc e sub s) := by simp [SameHostSide]

/-- No command writes the host's side of the state (`10_state.md` R22, R29, R30, R43, R50). -/
theorem exec_sameHostSide (h : exec i s = .next t) : SameHostSide s t := by
  cases i with
  | nop => rw [execNop_next h]; simp [SameHostSide]
  | clear => rw [execClear_next h]; simp [SameHostSide]
  | errAck => rw [execErrAck_next h]; simp [SameHostSide]
  | freqAdd x =>
    rcases execFreqAdd_next h with ⟨-, rfl⟩ | ⟨-, -, rfl⟩ | ⟨-, -, -, rfl⟩ | ⟨-, -, -, rfl⟩
    · exact .raise ..
    · exact .raise ..
    · exact .raise ..
    · simp [SameHostSide, countResults]
  | rdFreq x => rw [execRdFreq_next h]; simp [SameHostSide]
  | build =>
    rcases execBuild_next h with ⟨-, rfl⟩ | ⟨-, -, rfl⟩ | ⟨-, -, rfl⟩
    · exact .raise ..
    · exact .raise ..
    · simp [SameHostSide]
  | rdNode idx =>
    rcases execRdNode_next h with ⟨-, rfl⟩ | ⟨-, -, rfl⟩ | ⟨-, -, rfl⟩
    · exact .raise ..
    · exact .raise ..
    · simp [SameHostSide]
  | genCodes =>
    rcases execGenCodes_next h with ⟨-, rfl⟩ | ⟨-, rfl⟩
    · exact .raise ..
    · simp [SameHostSide]
  | rdCode x w =>
    rcases execRdCode_next h with ⟨-, rfl⟩ | ⟨-, rfl⟩
    · exact .raise ..
    · simp [SameHostSide]
  | encSym x =>
    rcases execEncSym_next h with ⟨-, rfl⟩ | ⟨-, -, rfl⟩ | ⟨-, -, -, rfl⟩ | ⟨-, -, -, rfl⟩
    · exact .raise ..
    · exact .raise ..
    · exact .raise ..
    · simp [SameHostSide, appendResults, appendCode_eq]
  | strmRst => rw [execStrmRst_next h]; simp [SameHostSide]
  | decSym =>
    rcases execDecSym_next h with ⟨-, rfl⟩ | ⟨-, -, rfl⟩ | ⟨-, -, rfl | rfl | ⟨x, p, -, -, rfl⟩⟩
    · exact .raise ..
    · simp [SameHostSide]
    · exact .raise ..
    · exact .raise ..
    · simp [SameHostSide, decoded]
  | rewind => rw [execRewind_next h]; simp [SameHostSide]
  | wrHeader =>
    rcases execWrHeader_next h with ⟨-, rfl⟩ | ⟨-, rfl⟩
    · exact .raise ..
    · simp [SameHostSide]
  | rdHeader =>
    rcases execRdHeader_next h with ⟨-, rfl⟩ | ⟨-, _, -, rfl⟩ | ⟨-, _, _, -, rfl⟩
    · exact .raise ..
    · exact .raise ..
    · simp [SameHostSide, loadArtifact]

end Commands

/-! ### The bus -/

/-- A register answers at its offset, whatever address bits 1:0 are (`20_memory.md` R66). -/
theorem regOfAddr_regOffset (r : Reg) {k : Nat} (hk : k < 4) :
    regOfAddr (BitVec.ofNat 12 ((regOffset r).toNat + k)) = some r := by
  cases r <;> interval_cases k <;> rfl

theorem unlessBusy_idle {s : State} (h : s.busy = false) (idle : State) : unlessBusy s idle = idle := by
  simp [unlessBusy, h]

theorem unlessBusy_busy {s : State} (h : s.busy = true) (idle : State) : unlessBusy s idle = setOverrun s := by
  simp [unlessBusy, h]

theorem busWrite_abufPtr {addr : BitVec 12} (h : regOfAddr addr = some .abufPtr) (d : Word) (s : State) :
    busWrite addr d s = unlessBusy s (setPtr s d.toNat) := by simp [busWrite, h]

theorem busWrite_abufData {addr : BitVec 12} (h : regOfAddr addr = some .abufData) (d : Word) (s : State) :
    busWrite addr d s = unlessBusy s (storeByte d s) := by simp [busWrite, h]

/-- A read whose value is defined (`70_reset_and_hazards.md` R296, R302). -/
theorem busRead_defined {addr : BitVec 12} {r : Reg} {s : State} (h : regOfAddr addr = some r)
    (hb : s.busy = false ∨ anyWhileBusy r = false) :
    busRead addr s = afterRead r { s with rdata := regValue s r } := by
  rcases hb with hb | hb <;> simp [busRead, h, hb]

/-- A read that returns any value (`70_reset_and_hazards.md` R302). -/
theorem busRead_any {addr : BitVec 12} {r : Reg} {s : State} (h : regOfAddr addr = some r) (hb : s.busy = true)
    (hr : anyWhileBusy r = true) : busRead addr s = readAny s := by
  simp [busRead, h, hb, hr]

theorem sameTables_unlessBusy {s idle : State} (h : SameTables s idle) : SameTables s (unlessBusy s idle) := by
  unfold unlessBusy
  split
  · simp [SameTables]
  · exact h

/-- No host write reaches the tables or PHASE (`70_reset_and_hazards.md` R300 to R304). -/
theorem busWrite_sameTables (addr : BitVec 12) (d : Word) (s : State) : SameTables s (busWrite addr d s) := by
  have refl : SameTables s s := ⟨rfl, rfl, rfl, rfl⟩
  unfold busWrite
  cases regOfAddr addr with
  | none => exact refl
  | some r =>
    cases r
    case cmd => exact sameTables_unlessBusy (by simp [SameTables])
    case abufPtr => exact sameTables_unlessBusy (by simp [SameTables])
    case abufData => exact sameTables_unlessBusy (by simp [SameTables])
    all_goals exact refl

/-- No host read reaches the tables or PHASE (`70_reset_and_hazards.md` R302). -/
theorem busRead_sameTables (addr : BitVec 12) (s : State) : SameTables s (busRead addr s) := by
  unfold busRead afterRead
  split
  · exact ⟨rfl, rfl, rfl, rfl⟩
  · split
    · simp [SameTables]
    · split <;> simp [SameTables]

/-- PHASE after an event (`10_state.md` R27). -/
theorem applyEvent_phase {e : Event} {s t : State} (h : applyEvent e s = .next t) :
    t.phase = s.phase ∨ (e = .reset ∧ t.phase = .load)
      ∨ (e = .complete ∧ s.busy = true ∧ ∃ i, decode s.cmdLat = .ok i ∧ exec i s = .next t) := by
  cases e with
  | write addr d =>
    cases h
    obtain ⟨-, -, -, hphase⟩ := busWrite_sameTables addr d s
    exact .inl hphase
  | read addr =>
    cases h
    obtain ⟨-, -, -, hphase⟩ := busRead_sameTables addr s
    exact .inl hphase
  | writeRead addr d =>
    cases h
    obtain ⟨-, -, -, hphase⟩ := busWrite_sameTables addr d s
    exact .inl hphase
  | reset =>
    cases h
    exact .inr (.inl ⟨rfl, rfl⟩)
  | complete =>
    change engineTurn s = .next t at h
    unfold engineTurn at h
    split at h
    · rcases execute_next h with ⟨-, rfl⟩ | ⟨-, _, -, rfl⟩ | ⟨-, i, hd, hi⟩
      · exact .inl rfl
      · exact .inl rfl
      · exact .inr (.inr ⟨rfl, ‹_›, i, hd, hi⟩)
    · cases h
      exact .inl rfl

/-- Settles O15, by the phase after each command and after each event. -/
theorem phaseTransitionsAreTheListed : Obligations.PhaseTransitionsAreTheListed := by
  refine ⟨fun i s t h hne => ?_, fun i s t h herr => exec_phase_of_success h herr,
    fun e s t h hne => (applyEvent_phase h).resolve_left hne, fun s t h => by cases h; rfl⟩
  rcases exec_phase h with hsame | hbuild | ⟨hi, hs, ht⟩ | hload
  · exact absurd hsame hne
  · exact .inl hbuild
  · refine .inr (.inl ⟨hi, ?_, ht⟩)
    cases hph : s.phase with
    | load => exact absurd hph hs
    | built => rfl
    | coded => exact absurd (ht.trans hph.symm) hne
  · exact .inr (.inr hload)

/-! ### The ABUF port -/

/-- ABUF_PTR has AW bits in a sound state, so it is its own value (`10_state.md` R43). -/
theorem ptrValue_of_lt {s : State} (h : s.abufPtr.toNat < s.cfg.abufBytes) : ptrValue s = s.abufPtr.toNat :=
  Nat.mod_eq_of_lt h

theorem advancePtr_abufPtr_toNat (s : State) :
    (advancePtr s).abufPtr.toNat = (ptrValue s + 1) % s.cfg.abufBytes := setPtr_abufPtr_toNat s _

/-- Reading a byte after the host stored one (`10_state.md` R44). -/
theorem abufByte_storeByte (d : Word) (s : State) (a : Nat) :
    abufByte (storeByte d s) a = if a = ptrValue s then d.setWidth 8 else abufByte s a :=
  abufByte_write s (ptrValue s) a _

/-- Settles O51: each access of the port is `setPtr`, `storeByte` or `advancePtr`, dropped while BUSY = 1. -/
theorem abufPortMovesBytes : Obligations.AbufPortMovesBytes := by
  intro s d k hk hptr
  have hval := ptrValue_of_lt hptr
  have hP : ∀ {j : Nat}, j < 4 → regOfAddr (BitVec.ofNat 12 (0x040 + j)) = some .abufPtr :=
    regOfAddr_regOffset .abufPtr
  have hD : regOfAddr (BitVec.ofNat 12 (0x044 + k)) = some .abufData := regOfAddr_regOffset .abufData hk
  refine ⟨fun j hj => ?_, fun hb => ⟨⟨_, rfl, ?_⟩, ⟨_, rfl, ?_⟩, ⟨_, rfl, ?_⟩⟩, fun hb => ⟨?_, ?_, ?_⟩,
    fun i t h => ?_, rfl⟩
  · rw [busRead_defined (hP hj) (.inr rfl), ← hval]
    rfl
  · rw [busWrite_abufPtr (hP hk), unlessBusy_idle hb]
    exact ⟨setPtr_abufPtr_toNat s _, rfl⟩
  · rw [busWrite_abufData hD, unlessBusy_idle hb, ← hval]
    refine ⟨?_, fun a ha => ?_, advancePtr_abufPtr_toNat _, rfl⟩
    · rw [abufByte_storeByte, if_pos rfl]
      exact BitVec.setWidth_eq_extractLsb' (by decide)
    · rw [abufByte_storeByte, if_neg ha]
  · rw [busRead_defined hD (.inl hb), ← hval]
    refine ⟨?_, advancePtr_abufPtr_toNat _, rfl⟩
    exact BitVec.toNat_setWidth_of_le (by decide)
  · rw [busWrite_abufPtr (hP hk), unlessBusy_busy hb]
    rfl
  · rw [busWrite_abufData hD, unlessBusy_busy hb]
    rfl
  · rw [busRead_any hD hb rfl]
    rfl
  · obtain ⟨-, -, -, -, -, -, habufPtr, -⟩ := exec_sameHostSide h
    exact habufPtr

end Sys2Proof.Machine
end

section
/-! SUPPORT. The decoder's two rejections, in numbers (`30_encoding.md` R97 to R99), and what the engine does
with a word it rejects. -/

namespace Sys2Proof

/-! ### Opcode values -/

theorem Opcode.mem_all (op : Opcode) : op ∈ Opcode.all := by cases op <;> decide

theorem Opcode.ofCode_code (op : Opcode) : Opcode.ofCode op.code = some op := by cases op <;> rfl

theorem Opcode.ofCode_eq_some_iff {c : BitVec 8} {op : Opcode} : Opcode.ofCode c = some op ↔ op.code = c := by
  constructor
  · intro h
    simpa using List.find?_some h
  · rintro rfl
    exact op.ofCode_code

theorem Opcode.ofCode_eq_none_iff {c : BitVec 8} : Opcode.ofCode c = none ↔ ∀ op : Opcode, op.code ≠ c := by
  simp [Opcode.ofCode, Opcode.mem_all]

theorem opcField_toNat (w : Word) : (opcField w).toNat = w.toNat / 2 ^ 24 := by
  have hw := w.isLt
  simp only [opcField, BitVec.extractLsb'_toNat, Nat.shiftRight_eq_div_pow]
  omega

theorem Opcode.code_eq_opcField_iff {op : Opcode} {w : Word} :
    op.code = opcField w ↔ op.code.toNat = w.toNat / 2 ^ 24 := by
  rw [← opcField_toNat, BitVec.toNat_inj]

/-- The opcode values of one format, from the model's table (`30_encoding.md` R96). -/
def Format.codes (f : Format) : List Nat :=
  (Opcode.all.filter fun op => op.format = f).map fun op => op.code.toNat

theorem Format.mem_codes {f : Format} {n : Nat} : n ∈ f.codes ↔ ∃ op : Opcode, op.format = f ∧ op.code.toNat = n := by
  simp [Format.codes, Opcode.mem_all]

/-- Each defined opcode is in one of the four formats. -/
theorem Format.mem_codes_append {n : Nat} :
    n ∈ Format.n.codes ++ Format.s.codes ++ (Format.sw.codes ++ Format.i.codes) ↔
      ∃ op : Opcode, op.code.toNat = n := by
  simp only [List.mem_append, Format.mem_codes]
  constructor
  · rintro ((⟨op, -, h⟩ | ⟨op, -, h⟩) | ⟨op, -, h⟩ | ⟨op, -, h⟩) <;> exact ⟨op, h⟩
  · rintro ⟨op, h⟩
    cases hf : op.format with
    | n => exact .inl (.inl ⟨op, hf, h⟩)
    | s => exact .inl (.inr ⟨op, hf, h⟩)
    | sw => exact .inr (.inl ⟨op, hf, h⟩)
    | i => exact .inr (.inr ⟨op, hf, h⟩)

/-! ### Reserved bits -/

/-- The must-be-zero bits of a format as a number (`30_encoding.md` R91 to R94). -/
def Format.reservedField : Format → Nat → Nat
  | .n, w => w % 2 ^ 24
  | .s, w => w / 2 ^ 8 % 2 ^ 16
  | .sw, w => w / 2 ^ 11 % 2 ^ 13
  | .i, w => w / 2 ^ 9 % 2 ^ 15

theorem reservedClear_eq_false_iff (f : Format) (w : Word) :
    reservedClear f w = false ↔ f.reservedField w.toNat ≠ 0 := by
  cases f <;> simp [reservedClear, Format.reservedField, ← BitVec.toNat_inj, Nat.shiftRight_eq_div_pow]

/-! ### The two rejections -/

theorem decode_eq_reservedOpcode_iff {w : Word} :
    decode w = .error .reservedOpcode ↔ ∀ op : Opcode, op.code.toNat ≠ w.toNat / 2 ^ 24 := by
  simp only [ne_eq, ← Opcode.code_eq_opcField_iff]
  rw [← Opcode.ofCode_eq_none_iff, decode]
  split
  · simp [*]
  · split <;> simp [*]

theorem decode_eq_reservedBits_iff {w : Word} :
    decode w = .error .reservedBits ↔
      ∃ op : Opcode, op.code.toNat = w.toNat / 2 ^ 24 ∧ op.format.reservedField w.toNat ≠ 0 := by
  simp only [← reservedClear_eq_false_iff, ← Opcode.code_eq_opcField_iff, ← Opcode.ofCode_eq_some_iff]
  rw [decode]
  split
  · simp [*]
  · split <;> simp [*]

end Sys2Proof

namespace Sys2Proof.Machine

/-! ### The engine on a rejected word -/

theorem failsWith_raise (opc : Byte) (e : ErrorCode) (sub : Byte) (s : State) :
    FailsWith (.next (raise opc e sub s)) s opc e sub :=
  ⟨_, rfl, rfl, rfl, rfl, ⟨rfl, rfl⟩, by simp [SameTables], by simp [SameCursors], by simp [SameResults], rfl,
    .raise opc e sub s⟩

theorem execute_of_decode_error {s : State} {e : DecodeError} (herr : s.err = false)
    (hd : decode s.cmdLat = .error e) :
    execute s = .next (raise (opcField s.cmdLat) .illegalCommand e.sub s) := by
  simp [execute, discarded, herr, hd]

theorem engineTurn_busy {s : State} (hb : s.busy = true) : engineTurn s = execute s := if_pos hb

/-- A word with no meaning fails with its own bits 31:24 recorded (`30_encoding.md` R98, R99). -/
theorem step_failsWith_of_decode_error {s : State} {e : DecodeError} (hb : s.busy = true) (herr : s.err = false)
    (hp : s.pending = []) (hd : decode s.cmdLat = .error e) :
    FailsWith (step s) s (opcField s.cmdLat) .illegalCommand e.sub := by
  rw [step_nil hp, engineTurn_busy hb, execute_of_decode_error herr hd]
  exact failsWith_raise ..

/-- Settles O10: the statement's lists are the codes of the formats, so the word decodes to the error named. -/
theorem illegalWordsFail : Obligations.IllegalWordsFail := by
  unfold Obligations.IllegalWordsFail
  intro formatN formatS defined s w hw hb herr hp
  subst hw
  have hN : formatN = Format.n.codes := rfl
  have hS : formatS = Format.s.codes := rfl
  have hdefined : defined = Format.n.codes ++ Format.s.codes ++ (Format.sw.codes ++ Format.i.codes) := rfl
  refine ⟨fun hreserved => ?_, fun hbits => ?_, by decide +kernel⟩
  · refine step_failsWith_of_decode_error hb herr hp (decode_eq_reservedOpcode_iff.2 fun op hop => ?_)
    exact hreserved (hdefined ▸ Format.mem_codes_append.2 ⟨op, hop⟩)
  · refine step_failsWith_of_decode_error hb herr hp (decode_eq_reservedBits_iff.2 ?_)
    rcases hbits with ⟨hop, hne⟩ | ⟨hop, hne⟩ | ⟨hop, hne⟩ | ⟨hop, hne⟩
    · obtain ⟨op, hformat, hcode⟩ := Format.mem_codes.1 (hN ▸ hop)
      exact ⟨op, hcode, hformat ▸ hne⟩
    · obtain ⟨op, hformat, hcode⟩ := Format.mem_codes.1 (hS ▸ hop)
      exact ⟨op, hcode, hformat ▸ hne⟩
    · exact ⟨.rdCode, hop.symm, hne⟩
    · exact ⟨.rdNode, hop.symm, hne⟩

end Sys2Proof.Machine
end

section
/-! SUPPORT. The frequency table after one count changes, the words of the commands that take a symbol alone, and
what FREQ_ADD and RD_FREQ answer (`40_frequency_table.md`). -/

namespace Sys2Proof

/-! ### Format S words (`30_encoding.md` R92) -/

section FormatS

variable (op : Opcode) (x : Symbol)

/-- A format S word, bit by bit: the opcode from bit 24 up, below it the symbol (`30_encoding.md` R92, R96). -/
theorem getLsbD_formatS (i : Nat) :
    (op.matchValue ||| x.setWidth 32).getLsbD i = if i < 24 then x.getLsbD i else op.code.getLsbD (i - 24) := by
  have hmatch : op.matchValue.getLsbD i = if i < 24 then false else op.code.getLsbD (i - 24) := by
    refine (BitVec.getLsbD_append ..).trans ?_
    rw [BitVec.getLsbD_zero]
  rw [BitVec.getLsbD_or, BitVec.getLsbD_setWidth, hmatch]
  split
  · simp [show i < 32 by omega]
  · simp [BitVec.getLsbD_of_ge x i (by omega)]

theorem opcField_formatS : opcField (op.matchValue ||| x.setWidth 32) = op.code := by
  refine BitVec.eq_of_getLsbD_eq fun i hi => ?_
  rw [opcField, BitVec.getLsbD_extractLsb', getLsbD_formatS, if_neg (by omega)]
  simp [hi]

theorem symField_formatS : symField (op.matchValue ||| x.setWidth 32) = x := by
  refine BitVec.eq_of_getLsbD_eq fun i hi => ?_
  rw [symField, BitVec.getLsbD_extractLsb', getLsbD_formatS, if_pos (by omega)]
  simp [hi]

theorem reservedClear_formatS : reservedClear .s (op.matchValue ||| x.setWidth 32) = true := by
  refine beq_iff_eq.2 (BitVec.eq_of_getLsbD_eq fun i hi => ?_)
  rw [BitVec.getLsbD_extractLsb', getLsbD_formatS, if_pos (by omega), BitVec.getLsbD_of_ge x _ (by omega)]
  simp

/-- A format S opcode over a symbol is the word of the command that the opcode makes of the symbol. -/
theorem decode_formatS {op : Opcode} (hf : op.format = .s) {x : Symbol} {i : Instr}
    (hi : ∀ w, symField w = x → op.toInstr w = i) :
    decode (op.matchValue ||| x.setWidth 32) = .ok i := by
  simp only [decode, opcField_formatS, Opcode.ofCode_code, hf, reservedClear_formatS, if_true,
    hi _ (symField_formatS op x)]

end FormatS

end Sys2Proof

namespace Sys2Proof.Machine

/-! ### One entry of the table and the others -/

section Table

variable (f : Vector Word 256) (x : Symbol)

/-- The counts of a table are those of one symbol and of the others. -/
theorem toList_perm_freqAt_cons : f.toList.Perm (freqAt f x :: f.toList.eraseIdx x.toNat) := by
  rw [freqAt_eq_getElem]
  exact (List.getElem_cons_eraseIdx_perm (l := f.toList) (by simpa using x.isLt)).symm

/-- Writing a symbol's count leaves the others' (`10_state.md` R33). -/
theorem toList_setFreq_perm (v : Word) :
    (setFreq f x v).toList.Perm (v :: f.toList.eraseIdx x.toNat) := by
  rw [setFreq, Vector.toList_setIfInBounds]
  exact List.set_perm_cons_eraseIdx (by simpa using x.isLt) v

/-- A sum over the table after one count is written: that count's term replaces the old one's. -/
theorem sum_setFreq (v : Word) :
    ((setFreq f x v).toList.map BitVec.toNat).sum + (freqAt f x).toNat =
      (f.toList.map BitVec.toNat).sum + v.toNat := by
  rw [((toList_setFreq_perm f x v).map _).sum_eq, ((toList_perm_freqAt_cons f x).map _).sum_eq]
  simp only [List.map_cons, List.sum_cons]
  omega

/-- NSYM counts the nonzero entries (`10_state.md` R33, R34). -/
theorem presentEntries_length : (presentEntries f).length = f.toList.countP (· ≠ 0) := by
  conv_rhs => rw [← List.zipIdx_map_fst 0 f.toList, List.countP_map]
  rw [presentEntries, List.length_filterMap_eq_countP]
  refine List.countP_congr fun p _ => ?_
  by_cases hp : p.1 = 0 <;> simp [hp]

/-- A nonzero count makes its symbol present (`10_state.md` R33). -/
theorem presentEntries_setFreq_length {v : Word} (hv : v ≠ 0#32) :
    (presentEntries (setFreq f x v)).length =
      (presentEntries f).length + (if freqAt f x = 0 then 1 else 0) := by
  rw [presentEntries_length, presentEntries_length, (toList_setFreq_perm f x v).countP_eq,
    (toList_perm_freqAt_cons f x).countP_eq, List.countP_cons, List.countP_cons]
  by_cases hx : freqAt f x = 0#32
  · simp [hx, hv]
  · simp [hx, hv]

end Table

/-! ### FREQ_ADD's effect on the table (`40_frequency_table.md` R110) -/

section AddCount

variable {s : State} (x : Symbol) {c : Word}

/-- No count is above TOTAL (`40_frequency_table.md` R111). -/
theorem freqAt_le_total (s : State) : (freqAt s.freq x).toNat ≤ total s := by
  rw [total, ((toList_perm_freqAt_cons s.freq x).map _).sum_eq, List.map_cons, List.sum_cons]
  exact Nat.le_add_right ..

/-- The new count does not wrap when the new TOTAL fits in 32 bits. -/
theorem freqAt_addCount_toNat (hfit : total s + c.toNat ≤ 2 ^ 32 - 1) :
    (freqAt (addCount x c s).freq x).toNat = (freqAt s.freq x).toNat + c.toNat := by
  have hle := freqAt_le_total x s
  rw [addCount_freq, freqAt_setFreq, if_pos rfl, BitVec.toNat_add_of_lt (by omega)]

theorem freqAt_addCount_of_ne {y : Symbol} (hy : y ≠ x) :
    freqAt (addCount x c s).freq y = freqAt s.freq y := by
  rw [addCount_freq, freqAt_setFreq, if_neg hy]

theorem total_addCount (hfit : total s + c.toNat ≤ 2 ^ 32 - 1) :
    total (addCount x c s) = total s + c.toNat := by
  have hnew := freqAt_addCount_toNat x hfit
  rw [addCount_freq, freqAt_setFreq, if_pos rfl] at hnew
  have hsum : total (addCount x c s) + (freqAt s.freq x).toNat = total s + (freqAt s.freq x + c).toNat :=
    sum_setFreq s.freq x (freqAt s.freq x + c)
  omega

theorem nsym_addCount (hc : c ≠ 0) (hfit : total s + c.toNat ≤ 2 ^ 32 - 1) :
    nsym (addCount x c s) = nsym s + (if freqAt s.freq x = 0 then 1 else 0) := by
  refine presentEntries_setFreq_length s.freq x fun hzero => hc ?_
  have hnew := freqAt_addCount_toNat x hfit
  rw [addCount_freq, freqAt_setFreq, if_pos rfl, hzero] at hnew
  exact BitVec.eq_of_toNat_eq (by simp at hnew ⊢; omega)

theorem pbase_addCount (hc : c ≠ 0) (hfit : total s + c.toNat ≤ 2 ^ 32 - 1) :
    pbase (addCount x c s) = pbase s + (if freqAt s.freq x = 0 then 5 else 0) := by
  rw [pbase, pbase, nsym_addCount x hc hfit]
  split <;> omega

end AddCount

/-! ### What FREQ_ADD answers, check by check (`40_frequency_table.md` R110) -/

section FreqAdd

variable {s : State} (x : Symbol)

/-- COUNT is ARG_LAT (`40_frequency_table.md` R110). -/
theorem countOperand_eq_zero_iff : countOperand s = 0 ↔ s.argLat = 0 := BitVec.toNat_inj (y := 0)

theorem exec_freqAdd_sequence (hp : s.phase ≠ .load) :
    exec (.freqAdd x) s = .next (raise 0x10 .sequence (phaseSub s) s) :=
  checkPhase_illegal (by simpa [phaseLegal] using hp)

/-- In LOAD the phase check passes. -/
theorem exec_freqAdd_load (hp : s.phase = .load) :
    exec (.freqAdd x) s =
      if countOperand s = 0 then .next (raise 0x10 .operand 0x01 s)
      else if total s + countOperand s > 2 ^ 32 - 1 then .next (raise 0x10 .overflow 0x01 s)
      else .next (complete (countResults x (addCount x s.argLat s))) :=
  checkPhase_legal (by simp [phaseLegal, hp])

theorem exec_freqAdd_zero (hp : s.phase = .load) (hc : s.argLat = 0) :
    exec (.freqAdd x) s = .next (raise 0x10 .operand 0x01 s) := by
  rw [exec_freqAdd_load x hp, if_pos (countOperand_eq_zero_iff.2 hc)]

theorem exec_freqAdd_overflow (hp : s.phase = .load) (hc : s.argLat ≠ 0)
    (hover : total s + s.argLat.toNat > 2 ^ 32 - 1) :
    exec (.freqAdd x) s = .next (raise 0x10 .overflow 0x01 s) := by
  rw [exec_freqAdd_load x hp, if_neg (countOperand_eq_zero_iff.not.2 hc), countOperand, if_pos hover]

theorem exec_freqAdd_success (hp : s.phase = .load) (hc : s.argLat ≠ 0)
    (hfit : total s + s.argLat.toNat ≤ 2 ^ 32 - 1) :
    exec (.freqAdd x) s = .next (complete (countResults x (addCount x s.argLat s))) := by
  rw [exec_freqAdd_load x hp, if_neg (countOperand_eq_zero_iff.not.2 hc), countOperand, if_neg (Nat.not_lt.2 hfit)]

/-- RESULT1 of FREQ_ADD holds the new TOTAL in full. -/
theorem countResults_result1_toNat (hfit : total s ≤ 2 ^ 32 - 1) :
    (countResults x s).result1.toNat = total s :=
  Nat.mod_eq_of_lt (by omega)

end FreqAdd

/-- Settles O21: each check by its answer, the success by what `addCount` does to the table. -/
theorem freqAddFollowsItsRule : Obligations.FreqAddFollowsItsRule := by
  intro s x
  refine ⟨?_, fun hp => ?_, fun hp hc => ?_, fun hp hc hover => ?_, fun hp hc hfit => ?_⟩
  · exact decode_formatS (op := .freqAdd) rfl fun _ => congrArg Instr.freqAdd
  · rw [exec_freqAdd_sequence x hp]
    exact failsWith_raise ..
  · rw [exec_freqAdd_zero x hp hc]
    exact failsWith_raise ..
  · rw [exec_freqAdd_overflow x hp hc hover]
    exact failsWith_raise ..
  · have htotal := total_addCount x hfit
    refine ⟨_, exec_freqAdd_success x hp hc hfit, freqAt_addCount_toNat x hfit,
      fun y hy => freqAt_addCount_of_ne x hy, rfl, rfl, rfl, ?_, htotal, nsym_addCount x hc hfit,
      pbase_addCount x hc hfit, ⟨rfl, rfl⟩, rfl, rfl, rfl, ⟨rfl, rfl, rfl⟩, ⟨rfl, fun _ => rfl⟩,
      exec_sameHostSide (exec_freqAdd_success x hp hc hfit)⟩
    exact (countResults_result1_toNat x (htotal ▸ hfit)).trans htotal

/-! ### RD_FREQ (`40_frequency_table.md` R113) -/

theorem toList_eq_map_finRange (f : Vector Word 256) :
    f.toList = (List.finRange 256).map fun i => f[i] :=
  List.ext_getElem (by simp) fun _ _ _ => by simp

theorem presentEntries_length_eq_filter_finRange (f : Vector Word 256) :
    (presentEntries f).length = ((List.finRange 256).filter fun i => f[i] ≠ 0).length := by
  rw [presentEntries_length, toList_eq_map_finRange, List.countP_map, List.countP_eq_length_filter]
  rfl

theorem nsym_lt (s : State) : nsym s < 2 ^ 32 := lt_of_le_of_lt (nsym_le s) (by decide)

/-- Settles O23, with NSYM as the number of nonzero entries. -/
theorem rdFreqReadsCount : Obligations.RdFreqReadsCount := by
  intro s x
  have hexec : exec (.rdFreq x) s =
      .next (complete (setResults (freqAt s.freq x) (BitVec.ofNat 32 (nsym s)) s)) := rfl
  refine ⟨?_, _, hexec, freqAt_eq_getElem s.freq x, ?_, ⟨rfl, rfl⟩, ⟨rfl, rfl, rfl, rfl⟩, ⟨rfl, rfl⟩, ⟨rfl, rfl, rfl⟩,
    ⟨rfl, fun _ => rfl⟩, exec_sameHostSide hexec⟩
  · exact decode_formatS (op := .rdFreq) rfl fun _ => congrArg Instr.rdFreq
  · rw [← presentEntries_length_eq_filter_finRange]
    exact Nat.mod_eq_of_lt (nsym_lt s)

end Sys2Proof.Machine
end

section
/-! SUPPORT. What BUILD and RD_NODE answer (`41_tree_builder.md`): BUILD's arena said of the table, the word of
RD_NODE, the number a node reads as. -/

namespace Sys2Proof

/-! ### Words with one operand field from bit 0 up (`30_encoding.md` R92, R94) -/

section FieldWord

variable {k : Nat} (hk : k ≤ 24) (op : Opcode) (x : BitVec k)
include hk

/-- Such a word, bit by bit: the opcode from bit 24 up, below it the operand (`30_encoding.md` R90, R96). -/
theorem getLsbD_fieldWord (i : Nat) :
    (op.matchValue ||| x.setWidth 32).getLsbD i = if i < 24 then x.getLsbD i else op.code.getLsbD (i - 24) := by
  have hmatch : op.matchValue.getLsbD i = if i < 24 then false else op.code.getLsbD (i - 24) := by
    rw [Opcode.matchValue, BitVec.getLsbD_append, BitVec.getLsbD_zero]
  rw [BitVec.getLsbD_or, BitVec.getLsbD_setWidth, hmatch]
  split
  · rw [decide_eq_true (by omega : i < 32), Bool.false_or, Bool.true_and]
  · rw [BitVec.getLsbD_of_ge x i (by omega), Bool.and_false, Bool.or_false]

theorem opcField_fieldWord : opcField (op.matchValue ||| x.setWidth 32) = op.code := by
  refine BitVec.eq_of_getLsbD_eq fun i hi => ?_
  rw [opcField, BitVec.getLsbD_extractLsb', getLsbD_fieldWord hk, if_neg (by omega)]
  simp [hi]

theorem operand_fieldWord : (op.matchValue ||| x.setWidth 32).extractLsb' 0 k = x := by
  refine BitVec.eq_of_getLsbD_eq fun i hi => ?_
  rw [BitVec.getLsbD_extractLsb', getLsbD_fieldWord hk, if_pos (by omega)]
  simp [hi]

/-- The bits between operand and opcode are zero. -/
theorem reserved_fieldWord : (op.matchValue ||| x.setWidth 32).extractLsb' k (24 - k) = 0 := by
  refine BitVec.eq_of_getLsbD_eq fun i hi => ?_
  rw [BitVec.getLsbD_extractLsb', getLsbD_fieldWord hk, if_pos (by omega), BitVec.getLsbD_of_ge x _ (by omega)]
  simp

end FieldWord

/-- The word of RD_NODE, the one format I command (`30_encoding.md` R94, R96). -/
theorem decode_rdNode (idx : BitVec 9) : decode (Opcode.rdNode.matchValue ||| idx.setWidth 32) = .ok (.rdNode idx) := by
  have hk : 9 ≤ 24 := by decide
  have hreserved : reservedClear .i (Opcode.rdNode.matchValue ||| idx.setWidth 32) = true :=
    beq_iff_eq.2 (reserved_fieldWord hk .rdNode idx)
  have hoperand : idxField (Opcode.rdNode.matchValue ||| idx.setWidth 32) = idx := operand_fieldWord hk .rdNode idx
  simp only [decode, opcField_fieldWord hk, Opcode.ofCode_code, Opcode.format, hreserved, if_true, Opcode.toInstr,
    hoperand]

end Sys2Proof

namespace Sys2Proof.Machine

/-! ### BUILD's arena (`41_tree_builder.md` R132) -/

section Leaves

variable {f : Vector Word 256} {n : Nat} (hn : (presentEntries f).length = n) (h1 : 1 ≤ n)
  (hT : (f.toList.map BitVec.toNat).sum ≤ 2 ^ 32 - 1)
include hn h1 hT

/-- The first NSYM entries are leaves of present symbols with their counts. -/
theorem buildArena_leaf_of_lt {i : Nat} (hi : i < n) :
    ∃ x, (buildArena f)[i]? = some (.leaf x (freqAt f x)) ∧ freqAt f x ≠ 0 := by
  have hi' := List.getElem?_eq_getElem (hn ▸ hi : i < (presentEntries f).length)
  obtain ⟨hw, hf⟩ := (mem_presentEntries f _ _).1 (List.mem_of_getElem? hi')
  exact ⟨_, (buildArena_leaf_iff hn h1 hT i _ _).2 (hf.symm ▸ hi'), hf.symm ▸ hw⟩

/-- Leaves stand in ascending symbol order. -/
theorem buildArena_leaves_sorted {i j : Nat} {x y : Symbol} {v w : Word} (hij : i < j)
    (hi : (buildArena f)[i]? = some (.leaf x v)) (hj : (buildArena f)[j]? = some (.leaf y w)) :
    x.toNat < y.toNat := by
  obtain ⟨hi, ei⟩ := List.getElem?_eq_some_iff.1 ((buildArena_leaf_iff hn h1 hT i x v).1 hi)
  obtain ⟨hj, ej⟩ := List.getElem?_eq_some_iff.1 ((buildArena_leaf_iff hn h1 hT j y w).1 hj)
  simpa only [ei, ej] using List.pairwise_iff_getElem.1 (presentEntries_sorted f) i j hi hj hij

/-- Every present symbol has its leaf among the first NSYM entries. -/
theorem buildArena_leaf_of_present {x : Symbol} (hx : freqAt f x ≠ 0) :
    ∃ i < n, (buildArena f)[i]? = some (.leaf x (freqAt f x)) := by
  obtain ⟨i, hi⟩ := List.mem_iff_getElem?.1 ((mem_presentEntries f x _).2 ⟨hx, rfl⟩)
  exact ⟨i, hn ▸ (List.getElem?_eq_some_iff.1 hi).1, (buildArena_leaf_iff hn h1 hT i x _).2 hi⟩

end Leaves

/-- Settles O25: the leaves are the table's entries, and the merge loop's invariant gives each merge and the root. -/
theorem leavesThenMergesOfTheTwoLeast : Obligations.LeavesThenMergesOfTheTwoLeast := by
  intro f n hn h1 hT
  obtain ⟨hmerges, -⟩ := buildArena_merges hn h1 hT
  exact ⟨buildArena_length hn h1, fun i hi => buildArena_leaf_of_lt hn h1 hT hi,
    fun i j x y v w hij hi hj => buildArena_leaves_sorted hn h1 hT hij hi hj,
    fun x hx => buildArena_leaf_of_present hn h1 hT hx, hmerges, buildArena_unmerged_iff hn h1 hT⟩

/-! ### BUILD (`41_tree_builder.md` R130, R131) -/

section Build

variable {s : State}

theorem exec_build_sequence (hp : s.phase ≠ .load) :
    exec .build s = .next (raise 0x20 .sequence (phaseSub s) s) :=
  checkPhase_illegal (by simpa [phaseLegal] using hp)

theorem exec_build_empty (hp : s.phase = .load) (h0 : nsym s = 0) :
    exec .build s = .next (raise 0x20 .emptyInput 0x00 s) :=
  (checkPhase_legal (by simp [phaseLegal, hp])).trans (if_pos h0)

/-- NODE <- BUILD's arena, and the tree exists. -/
def withTree (s : State) : State := { s with node := writeArena s.node (buildArena s.freq), phase := .built }

theorem exec_build_success (hp : s.phase = .load) (h0 : nsym s ≠ 0) :
    exec .build s = .next (complete (setResults (BitVec.ofNat 32 (2 * nsym s - 2)) (BitVec.ofNat 32 (2 * nsym s - 1))
      (withTree s))) :=
  (checkPhase_legal (by simp [phaseLegal, hp])).trans (if_neg h0)

theorem buildArena_length_nsym (h0 : nsym s ≠ 0) : (buildArena s.freq).length = 2 * nsym s - 1 :=
  buildArena_length rfl (Nat.pos_of_ne_zero h0)

/-- Below NNODES the tree's entries are the arena's (`10_state.md` R35, R36). -/
theorem nodeAt_withTree_of_lt (h0 : nsym s ≠ 0) {i : NodeIdx} (hi : i.val < 2 * nsym s - 1) :
    (buildArena s.freq)[i.val]? = some (nodeAt (withTree s).node i) := by
  rw [← buildArena_length_nsym h0] at hi
  rw [withTree, nodeAt_writeArena, dif_pos hi, List.getElem?_eq_getElem hi]

/-- From NNODES on NODE keeps its contents (`10_state.md` R35). -/
theorem nodeAt_withTree_of_ge (h0 : nsym s ≠ 0) {i : NodeIdx} (hi : 2 * nsym s - 1 ≤ i.val) :
    nodeAt (withTree s).node i = nodeAt s.node i := by
  rw [← buildArena_length_nsym h0] at hi
  rw [withTree, nodeAt_writeArena, dif_neg (Nat.not_lt.2 hi)]

end Build

/-- Settles O24: each check by its answer, the success by the arena that `withTree` stores. -/
theorem buildFollowsItsRule : Obligations.BuildFollowsItsRule := by
  intro s
  refine ⟨rfl, fun hp => ?_, fun hp h0 => ?_, fun hp h0 => ?_⟩
  · rw [exec_build_sequence hp]
    exact failsWith_raise ..
  · rw [exec_build_empty hp h0]
    exact failsWith_raise ..
  · have hexec := exec_build_success hp h0
    have hle := nsym_le s
    exact ⟨_, hexec, buildArena_length_nsym h0, fun _ => nodeAt_withTree_of_lt h0, fun _ => nodeAt_withTree_of_ge h0,
      rfl, Nat.mod_eq_of_lt (by omega), Nat.mod_eq_of_lt (by omega), rfl, rfl, ⟨rfl, rfl⟩, rfl, rfl, ⟨rfl, rfl⟩,
      ⟨rfl, rfl, rfl⟩, ⟨rfl, fun _ => rfl⟩, exec_sameHostSide hexec⟩

/-! ### One present symbol (`41_tree_builder.md` R134) -/

theorem presentEntries_singleton {f : Vector Word 256} {x : Symbol} (hx : freqAt f x ≠ 0)
    (hother : ∀ y, y ≠ x → freqAt f y = 0) : presentEntries f = [(x, freqAt f x)] := by
  have hnodup : (presentEntries f).Nodup := (presentEntries_sorted f).imp fun h e => absurd (e ▸ h) (lt_irrefl _)
  refine List.perm_singleton.1 ((List.perm_ext_iff_of_nodup hnodup (List.nodup_singleton _)).2 fun ⟨y, w⟩ => ?_)
  rw [mem_presentEntries, List.mem_singleton, Prod.mk.injEq]
  constructor
  · rintro ⟨hw, rfl⟩
    obtain rfl : y = x := by_contra fun hne => hw (hother y hne)
    exact ⟨rfl, rfl⟩
  · rintro ⟨rfl, rfl⟩
    exact ⟨hx, rfl⟩

/-- The merge loop makes no turn for one leaf. -/
theorem buildArena_singleton {f : Vector Word 256} {x : Symbol} {w : Word} (h : presentEntries f = [(x, w)]) :
    buildArena f = [.leaf x w] := by
  simp [buildArena, leaves, h, mergeLoop]

/-- Settles O27: what BUILD answers (O24) for the table's one entry. -/
theorem singleSymbolTreeIsOneLeaf : Obligations.SingleSymbolTreeIsOneLeaf := by
  intro s x hp hx hother
  have hone := presentEntries_singleton hx hother
  have hnsym : nsym s = 1 := congrArg List.length hone
  obtain ⟨-, -, -, hsuccess⟩ := buildFollowsItsRule s
  obtain ⟨t, hexec, -, hnode, -, -, hr0, hr1, hroot, hnnodes, -⟩ := hsuccess hp (by omega)
  rw [hnsym] at hnode hr0 hr1 hroot hnnodes
  have hleaf := hnode 0 (by decide)
  rw [buildArena_singleton hone] at hleaf
  exact ⟨t, hexec, (Option.some.inj hleaf).symm, hnnodes, hroot, BitVec.eq_of_toNat_eq hr0, BitVec.eq_of_toNat_eq hr1⟩

/-! ### RD_NODE (`41_tree_builder.md` R135) -/

theorem toNat_append_eq_add {m n : Nat} (a : BitVec m) (b : BitVec n) :
    (a ++ b).toNat = a.toNat * 2 ^ n + b.toNat := by
  rw [BitVec.toNat_append, ← Nat.shiftLeft_add_eq_or_of_lt b.isLt, Nat.shiftLeft_eq]

theorem nodeWord_leaf_toNat (x : Symbol) (w : Word) : (nodeWord (.leaf x w)).toNat = x.toNat :=
  BitVec.toNat_setWidth_of_le (by decide)

/-- KIND, RIGHT and LEFT in bits 31, 24:16 and 8:0, the other bits zero. -/
theorem nodeWord_internal_toNat (l r : NodeIdx) (w : Word) :
    (nodeWord (.internal l r w)).toNat = 2 ^ 31 + r.val * 2 ^ 16 + l.val := by
  have hl : l.val % 2 ^ 9 = l.val := Nat.mod_eq_of_lt (l.isLt.trans (by decide))
  have hr : r.val % 2 ^ 9 = r.val := Nat.mod_eq_of_lt (r.isLt.trans (by decide))
  simp only [nodeWord, toNat_append_eq_add, BitVec.toNat_ofNat, hl, hr]
  omega

section RdNode

variable {s : State} (idx : BitVec 9)

theorem exec_rdNode_sequence (hp : s.phase = .load) :
    exec (.rdNode idx) s = .next (raise 0x21 .sequence (phaseSub s) s) :=
  checkPhase_illegal (by simp [phaseLegal, hp])

/-- With a tree the phase check passes. -/
theorem exec_rdNode_tree (hp : s.phase ≠ .load) :
    exec (.rdNode idx) s =
      if idx.toNat ≥ nnodes s then .next (raise 0x21 .operand 0x02 s)
      else .next (complete (setResults (nodeWord (nodeAt s.node (nodeIdx idx.toNat)))
        (nodeAt s.node (nodeIdx idx.toNat)).weight s)) :=
  checkPhase_legal (by simpa [phaseLegal] using hp)

theorem exec_rdNode_operand (hp : s.phase ≠ .load) (hidx : nnodes s ≤ idx.toNat) :
    exec (.rdNode idx) s = .next (raise 0x21 .operand 0x02 s) := by
  rw [exec_rdNode_tree idx hp, if_pos hidx]

theorem exec_rdNode_success {i : NodeIdx} (hp : s.phase ≠ .load) (hidx : idx.toNat < nnodes s)
    (hi : i.val = idx.toNat) :
    exec (.rdNode idx) s =
      .next (complete (setResults (nodeWord (nodeAt s.node i)) (nodeAt s.node i).weight s)) := by
  have hidx' : nodeIdx idx.toNat = i := Fin.ext (hi ▸ nodeIdx_val i.isLt)
  rw [exec_rdNode_tree idx hp, if_neg (Nat.not_le.2 hidx), hidx']

end RdNode

/-- Settles O28: each check by its answer, the result word by the number a node reads as. -/
theorem rdNodeFollowsItsRule : Obligations.RdNodeFollowsItsRule := by
  intro s idx
  refine ⟨decode_rdNode idx, fun hp => ?_, fun hp hidx => ?_, fun i hp hidx hi => ?_⟩
  · rw [exec_rdNode_sequence idx hp, phaseSub, hp]
    exact failsWith_raise ..
  · rw [exec_rdNode_operand idx hp hidx]
    exact failsWith_raise ..
  · have hexec := exec_rdNode_success idx hp hidx hi
    refine ⟨_, hexec, ⟨⟨rfl, rfl⟩, ⟨rfl, rfl, rfl, rfl⟩, ⟨rfl, rfl⟩, ⟨rfl, rfl, rfl⟩, ⟨rfl, fun _ => rfl⟩,
      exec_sameHostSide hexec⟩, fun x w hnode => ?_, fun l r w hnode => ?_⟩
    · rw [hnode]
      exact ⟨nodeWord_leaf_toNat x w, rfl⟩
    · rw [hnode]
      exact ⟨nodeWord_internal_toNat l r w, rfl⟩

end Sys2Proof.Machine
end

section
/-! SUPPORT. The code table generator (`42_code_table.md` R151 to R153): the tree below a node, the strings at its
leaves, and the table that the walk stores. -/

namespace Sys2Proof.Machine

/-! ### Codes as strings of bits (`00_scope.md` R14) -/

/-- The value of a string of bits, most significant first, that continues the value `v` (`42_code_table.md` R152). -/
def bitsValue (v : Nat) (bits : List Bool) : Nat := bits.foldl (fun v b => Nat.bit b v) v

theorem bitsValue_cons (v : Nat) (b : Bool) (bits : List Bool) :
    bitsValue v (b :: bits) = bitsValue (Nat.bit b v) bits := rfl

theorem bitsValue_concat (v : Nat) (bits : List Bool) (b : Bool) :
    bitsValue v (bits ++ [b]) = Nat.bit b (bitsValue v bits) := List.foldl_concat ..

theorem bitsValue_zero_lt (bits : List Bool) : bitsValue 0 bits < 2 ^ bits.length := by
  induction bits using List.reverseRecOn with
  | nil => exact Nat.one_pos
  | append_singleton bits b ih =>
    rw [bitsValue_concat, List.length_append, List.length_singleton]
    exact Nat.bit_lt_two_pow_succ_iff.2 ih

theorem testBit_bitsValue (v : Nat) (bits : List Bool) (i : Nat) (hi : i < bits.length) :
    (bitsValue v bits).testBit (bits.length - 1 - i) = bits[i] := by
  induction bits using List.reverseRecOn with
  | nil => cases hi
  | append_singleton bits b ih =>
    rw [List.length_append, List.length_singleton] at hi ⊢
    rw [bitsValue_concat]
    rcases Nat.lt_succ_iff_lt_or_eq.1 hi with hi | rfl
    · rw [List.getElem_append_left hi, ← ih hi, show bits.length + 1 - 1 - i = bits.length - 1 - i + 1 by omega,
        Nat.testBit_bit_succ]
    · rw [List.getElem_concat_length rfl, Nat.add_sub_cancel, Nat.sub_self, Nat.testBit_bit_zero]

/-- The entry of a code given as its string (`10_state.md` R38). -/
def stringEntry (bits : List Bool) : CodeEntry := codeEntry bits.length (bitsValue 0 bits)

theorem stringEntry_len {bits : List Bool} (h : bits.length ≤ 255) : (stringEntry bits).len.toNat = bits.length :=
  Nat.mod_eq_of_lt (Nat.lt_succ_of_le h)

theorem stringEntry_val_lt (bits : List Bool) : (stringEntry bits).val.toNat < 2 ^ bits.length :=
  lt_of_le_of_lt (Nat.mod_le ..) (bitsValue_zero_lt bits)

/-- The string of an entry's bits is the string it was made of. -/
theorem codeBits_stringEntry {bits : List Bool} (h : bits.length ≤ 255) : codeBits (stringEntry bits) = bits := by
  refine List.ext_getElem (by rw [codeBits_length, stringEntry_len h]) fun i hi hi' => ?_
  simp only [codeBits, List.getElem_map, List.getElem_range, stringEntry_len h]
  rw [← testBit_bitsValue 0 bits i hi']
  exact (BitVec.getLsbD_ofNat ..).trans (by simp; omega)

/-! ### Paths (`44_bit_unpacker.md` R190) -/

section Paths

variable {t : Vector Node 511} {i : NodeIdx}

/-- A string of bits takes its steps down from internal nodes only. -/
def Descends (t : Vector Node 511) (i : NodeIdx) (bits : List Bool) : Prop :=
  ∀ k < bits.length, IsInternal t (follow t i (bits.take k))

/-- A string of bits leads down to a leaf of the symbol. -/
def LeadsTo (t : Vector Node 511) (i : NodeIdx) (bits : List Bool) (x : Symbol) : Prop :=
  Descends t i bits ∧ ∃ w, nodeAt t (follow t i bits) = .leaf x w

theorem follow_concat (bits : List Bool) (b : Bool) :
    follow t i (bits ++ [b]) = (nodeAt t (follow t i bits)).child b := List.foldl_concat ..

theorem descends_nil : Descends t i [] := fun _ hk => absurd hk (Nat.not_lt_zero _)

theorem descends_cons {b : Bool} {bits : List Bool} :
    Descends t i (b :: bits) ↔ IsInternal t i ∧ Descends t ((nodeAt t i).child b) bits := by
  refine ⟨fun h => ⟨h 0 (Nat.succ_pos _), fun k hk => h (k + 1) (Nat.succ_lt_succ hk)⟩, fun ⟨h0, h⟩ k hk => ?_⟩
  cases k with
  | zero => exact h0
  | succ k => exact h k (Nat.lt_of_succ_lt_succ hk)

theorem descends_concat {b : Bool} {bits : List Bool} :
    Descends t i (bits ++ [b]) ↔ Descends t i bits ∧ IsInternal t (follow t i bits) := by
  have htake : ∀ k ≤ bits.length, (bits ++ [b]).take k = bits.take k := fun _ => List.take_append_of_le_length
  rw [Descends, List.length_append, List.length_singleton]
  constructor
  · refine fun h => ⟨fun k hk => htake k hk.le ▸ h k (by omega), ?_⟩
    have := h bits.length (by omega)
    rwa [htake _ le_rfl, List.take_length] at this
  · rintro ⟨h, hlast⟩ k hk
    rw [htake k (by omega)]
    rcases Nat.lt_succ_iff_lt_or_eq.1 hk with hk | rfl
    · exact h k hk
    · rwa [List.take_length]

/-- The last step of a path is from a parent to a child. -/
theorem isChild_follow_concat {bits : List Bool} (h : IsInternal t (follow t i bits)) (b : Bool) :
    IsChild t (follow t i bits) (follow t i (bits ++ [b])) := by
  obtain ⟨l, r, w, h⟩ := h
  rw [follow_concat, h]
  cases b with
  | false => exact ⟨l, r, w, h, .inl rfl⟩
  | true => exact ⟨l, r, w, h, .inr rfl⟩

theorem child_injective {l r : NodeIdx} (hlr : l ≠ r) {w : Word} :
    Function.Injective (Node.internal l r w).child := by
  rintro (_ | _) (_ | _) h
  · rfl
  · exact absurd h hlr
  · exact absurd h.symm hlr
  · rfl

/-- From a leaf a string leads to that leaf's symbol only, and only when it is empty. -/
theorem leadsTo_of_leaf {x y : Symbol} {w : Word} (h : nodeAt t i = .leaf x w) {bits : List Bool} :
    LeadsTo t i bits y ↔ y = x ∧ bits = [] := by
  cases bits with
  | nil => simp [LeadsTo, descends_nil, follow, h, eq_comm]
  | cons b bits => simp [LeadsTo, descends_cons, IsInternal, h]

/-- From an internal node a string leads where its rest leads from the child. -/
theorem leadsTo_of_internal {l r : NodeIdx} {w : Word} (h : nodeAt t i = .internal l r w) {bits : List Bool}
    {x : Symbol} : LeadsTo t i bits x ↔
      ∃ b rest, bits = b :: rest ∧ LeadsTo t ((nodeAt t i).child b) rest x := by
  cases bits with
  | nil => simp [LeadsTo, follow, h]
  | cons b bits =>
    have hi : IsInternal t i := ⟨l, r, w, h⟩
    simp [LeadsTo, descends_cons, hi, follow]

/-- A string that leads to a leaf does not go on past it (`42_code_table.md` R153). -/
theorem LeadsTo.not_isPrefix {p q : List Bool} {x y : Symbol} (hx : LeadsTo t i p x) (hy : LeadsTo t i q y)
    (hxy : x ≠ y) : ¬ p <+: q := by
  obtain ⟨-, w, hw⟩ := hx
  obtain ⟨hd, v, hv⟩ := hy
  rintro ⟨rest, rfl⟩
  cases rest with
  | nil =>
    rw [List.append_nil, hw, Node.leaf.injEq] at hv
    exact hxy hv.1
  | cons b rest =>
    obtain ⟨l, r, u, hu⟩ := hd p.length (by simp)
    rw [List.take_left, hw] at hu
    cases hu

end Paths

/-! ### The tree below a node (`10_state.md` R37) -/

/-- A tree with a symbol at each leaf. -/
inductive CodeTree where
  | leaf (x : Symbol)
  | node (left right : CodeTree)

namespace CodeTree

variable {t : Vector Node 511}

/-- The arena holds the tree at an entry. -/
def At (t : Vector Node 511) : CodeTree → NodeIdx → Prop
  | leaf x, i => ∃ w, nodeAt t i = .leaf x w
  | node a b, i => ∃ l r w, nodeAt t i = .internal l r w ∧ a.At t l ∧ b.At t r

/-- The symbols, left to right, with the string of bits that leads to each (`42_code_table.md` R151). -/
def codes : CodeTree → List (Symbol × List Bool)
  | leaf x => [(x, [])]
  | node a b => a.codes.map (Prod.map id (false :: ·)) ++ b.codes.map (Prod.map id (true :: ·))

/-- The number of nodes. -/
def size : CodeTree → Nat
  | leaf _ => 1
  | node a b => a.size + b.size + 1

theorem mem_codes_node {a b : CodeTree} {x : Symbol} {bits : List Bool} :
    (x, bits) ∈ (node a b).codes ↔
      (∃ rest, bits = false :: rest ∧ (x, rest) ∈ a.codes) ∨ ∃ rest, bits = true :: rest ∧ (x, rest) ∈ b.codes := by
  simp only [codes, List.mem_append, List.mem_map, Prod.exists, Prod.map_apply, id_eq, Prod.mk.injEq]
  constructor
  · rintro (⟨y, rest, h, rfl, rfl⟩ | ⟨y, rest, h, rfl, rfl⟩)
    · exact .inl ⟨rest, rfl, h⟩
    · exact .inr ⟨rest, rfl, h⟩
  · rintro (⟨rest, rfl, h⟩ | ⟨rest, rfl, h⟩)
    · exact .inl ⟨x, rest, h, rfl, rfl⟩
    · exact .inr ⟨x, rest, h, rfl, rfl⟩

/-- The tree's strings are those that lead to its leaves. -/
theorem mem_codes_iff {T : CodeTree} {i : NodeIdx} (h : T.At t i) {x : Symbol} {bits : List Bool} :
    (x, bits) ∈ T.codes ↔ LeadsTo t i bits x := by
  induction T generalizing i bits with
  | leaf y =>
    obtain ⟨w, hi⟩ := h
    rw [leadsTo_of_leaf hi, codes, List.mem_singleton, Prod.mk.injEq]
  | node a b iha ihb =>
    obtain ⟨l, r, w, hi, ha, hb⟩ := h
    rw [leadsTo_of_internal hi, mem_codes_node, Bool.exists_bool, hi]
    simp only [iha ha, ihb hb]
    rfl

theorem codes_nodup (T : CodeTree) : T.codes.Nodup := by
  induction T with
  | leaf x => exact List.nodup_singleton _
  | node a b iha ihb =>
    have hinj (c : Bool) : Function.Injective (Prod.map (id : Symbol → Symbol) (c :: ·)) :=
      Function.injective_id.prodMap List.cons_injective
    refine List.Nodup.append (iha.map (hinj _)) (ihb.map (hinj _)) fun p ha hb => ?_
    obtain ⟨q, -, rfl⟩ := List.mem_map.1 ha
    obtain ⟨q', -, h⟩ := List.mem_map.1 hb
    cases congrArg Prod.snd h

theorem codes_length_pos (T : CodeTree) : 0 < T.codes.length := by
  induction T with
  | leaf x => exact Nat.one_pos
  | node a b iha ihb => rw [codes, List.length_append, List.length_map]; omega

/-- A full tree has one internal node less than it has leaves. -/
theorem size_add_one (T : CodeTree) : T.size + 1 = 2 * T.codes.length := by
  induction T with
  | leaf x => rfl
  | node a b iha ihb => simp only [size, codes, List.length_append, List.length_map]; omega

/-- A string is shorter than the number of leaves (`42_code_table.md` R154). -/
theorem length_lt_of_mem_codes {T : CodeTree} {x : Symbol} {bits : List Bool} (h : (x, bits) ∈ T.codes) :
    bits.length < T.codes.length := by
  induction T generalizing bits with
  | leaf y => cases List.mem_singleton.1 h; exact Nat.one_pos
  | node a b iha ihb =>
    have hposa := a.codes_length_pos
    have hposb := b.codes_length_pos
    rw [codes, List.length_append, List.length_map, List.length_map]
    rcases mem_codes_node.1 h with ⟨rest, rfl, hrest⟩ | ⟨rest, rfl, hrest⟩
    · have := iha hrest
      rw [List.length_cons]; omega
    · have := ihb hrest
      rw [List.length_cons]; omega

end CodeTree

/-! ### What the walk stores (`42_code_table.md` R152) -/

/-- CODE after strings are stored that continue a string of length d and value v. -/
def storeCodes (d v : Nat) (codes : List (Symbol × List Bool)) (c : Vector CodeEntry 256) : Vector CodeEntry 256 :=
  codes.foldl (fun c p => setCode c p.1 (codeEntry (d + p.2.length) (bitsValue v p.2))) c

/-- Strings that begin with the same bit continue the string that has that bit at its end. -/
theorem storeCodes_map_cons (d v : Nat) (b : Bool) (codes : List (Symbol × List Bool)) (c : Vector CodeEntry 256) :
    storeCodes d v (codes.map (Prod.map id (b :: ·))) c = storeCodes (d + 1) (Nat.bit b v) codes c := by
  simp only [storeCodes, List.foldl_map, Prod.map_fst, Prod.map_snd, id_eq, List.length_cons, bitsValue_cons,
    Nat.add_right_comm d 1, ← Nat.add_assoc]

theorem storeCodes_append (d v : Nat) (l l' : List (Symbol × List Bool)) (c : Vector CodeEntry 256) :
    storeCodes d v (l ++ l') c = storeCodes d v l' (storeCodes d v l c) := List.foldl_append

/-- With fuel for the tree, the walk stores the codes of the tree at its first item and goes on with the others. -/
theorem walk_tree {t : Vector Node 511} {T : CodeTree} {w : WalkItem} (h : T.At t w.node) (fuel : Nat)
    (stack : List WalkItem) (c : Vector CodeEntry 256) :
    walk t (T.size + fuel) (w :: stack) c = walk t fuel stack (storeCodes w.depth w.value T.codes c) := by
  induction T generalizing w fuel stack c with
  | leaf x =>
    obtain ⟨v, hi⟩ := h
    rw [CodeTree.size, Nat.add_comm, walk_leaf hi]
    rfl
  | node a b iha ihb =>
    obtain ⟨l, r, v, hi, ha, hb⟩ := h
    have hsize : (a.node b).size + fuel = a.size + (b.size + fuel) + 1 := by rw [CodeTree.size]; omega
    rw [hsize, walk_internal hi, iha ha, ihb hb, CodeTree.codes, storeCodes_append, storeCodes_map_cons,
      storeCodes_map_cons, Nat.bit_false, Nat.bit_true]

theorem walk_nil (t : Vector Node 511) (fuel : Nat) (c : Vector CodeEntry 256) : walk t fuel [] c = c := by
  cases fuel <;> rfl

section StoreCodes

variable {d v : Nat} {codes : List (Symbol × List Bool)} {x : Symbol}

theorem codeAt_storeCodes_of_not_mem (hx : x ∉ codes.map Prod.fst) (c : Vector CodeEntry 256) :
    codeAt (storeCodes d v codes c) x = codeAt c x := by
  induction codes generalizing c with
  | nil => rfl
  | cons p codes ih =>
    obtain ⟨hp, hx⟩ := not_or.1 (List.mem_cons.not.1 hx)
    exact (ih hx _).trans ((codeAt_setCode ..).trans (if_neg hp))

/-- Each symbol's one string is what is stored for it. -/
theorem codeAt_storeCodes_of_mem {bits : List Bool} (hnodup : (codes.map Prod.fst).Nodup) (hx : (x, bits) ∈ codes)
    (c : Vector CodeEntry 256) :
    codeAt (storeCodes d v codes c) x = codeEntry (d + bits.length) (bitsValue v bits) := by
  induction codes generalizing c with
  | nil => cases hx
  | cons p codes ih =>
    obtain ⟨hp, hnodup⟩ := List.nodup_cons.1 hnodup
    rcases List.mem_cons.1 hx with rfl | hx
    · exact (codeAt_storeCodes_of_not_mem hp _).trans ((codeAt_setCode ..).trans (if_pos rfl))
    · exact ih hnodup hx _

end StoreCodes

theorem assignCodes_leaf {t : Vector Node 511} {i : NodeIdx} {x : Symbol} {w : Word} (h : nodeAt t i = .leaf x w) :
    assignCodes t i = setCode emptyCodes x (codeEntry 1 0) := by
  simp [assignCodes, h]

/-! ### The tree of a sound state -/

section SoundTree

variable {s : State} (hs : Sound s) (hp : s.phase ≠ .load)
include hs hp

/-- Children have smaller indices, so every entry of the tree is the root of a tree. -/
theorem exists_codeTree {i : NodeIdx} (hi : i.val < nnodes s) : ∃ T : CodeTree, T.At s.node i := by
  induction hk : i.val using Nat.strong_induction_on generalizing i with
  | _ k ih =>
    subst hk
    cases h : nodeAt s.node i with
    | leaf x w => exact ⟨.leaf x, w, h⟩
    | internal l r w =>
      obtain ⟨-, hl, hr, -⟩ := internal_children hs hp hi h
      obtain ⟨a, ha⟩ := ih _ hl (hl.trans hi) rfl
      obtain ⟨b, hb⟩ := ih _ hr (hr.trans hi) rfl
      exact ⟨.node a b, l, r, w, h, ha, hb⟩

theorem rootIdx_lt : (rootIdx s).val < nnodes s := by
  have := (hs.tree hp).1
  rw [rootIdx_val hp, nnodes_of_tree hp]
  omega

/-- A path from the root stays in the tree. -/
theorem follow_lt {bits : List Bool} (h : Descends s.node (rootIdx s) bits) :
    (follow s.node (rootIdx s) bits).val < nnodes s := by
  induction bits using List.reverseRecOn with
  | nil => exact rootIdx_lt hs hp
  | append_singleton bits b ih =>
    obtain ⟨hbits, l, r, w, hlast⟩ := descends_concat.1 h
    have hlt := ih hbits
    obtain ⟨-, hl, hr, -⟩ := internal_children hs hp hlt hlast
    rw [follow_concat, hlast]
    cases b with
    | false => exact hl.trans hlt
    | true => exact hr.trans hlt

/-- Every entry of the tree is at the end of a path from the root, which goes through its parent. -/
theorem exists_path {j : NodeIdx} (hj : j.val < nnodes s) :
    ∃ bits, Descends s.node (rootIdx s) bits ∧ follow s.node (rootIdx s) bits = j := by
  induction hk : nnodes s - j.val using Nat.strong_induction_on generalizing j with
  | _ k ih =>
    by_cases hroot : j = rootIdx s
    · exact ⟨[], descends_nil, hroot.symm⟩
    · obtain ⟨i, ⟨hi, l, r, w, h, hchild⟩, -⟩ := existsUnique_parent hs hp hj hroot
      obtain ⟨-, hl, hr, -⟩ := internal_children hs hp hi h
      have hij : j.val < i.val := hchild.elim (· ▸ hl) (· ▸ hr)
      obtain ⟨bits, hbits, rfl⟩ := ih _ (by omega) hi rfl
      have hdesc (b : Bool) : Descends s.node (rootIdx s) (bits ++ [b]) := descends_concat.2 ⟨hbits, l, r, w, h⟩
      rcases hchild with rfl | rfl
      · exact ⟨bits ++ [false], hdesc _, by rw [follow_concat, h]; rfl⟩
      · exact ⟨bits ++ [true], hdesc _, by rw [follow_concat, h]; rfl⟩

/-- A path of at least one step does not lead back to the root. -/
theorem follow_concat_ne_root {bits : List Bool} {b : Bool} (h : Descends s.node (rootIdx s) (bits ++ [b])) :
    follow s.node (rootIdx s) (bits ++ [b]) ≠ rootIdx s := by
  obtain ⟨hbits, hlast⟩ := descends_concat.1 h
  intro e
  have hchild := isChild_follow_concat hlast b
  rw [e] at hchild
  exact root_not_child hs hp (follow_lt hs hp hbits) hchild

/-- Two paths from the root to the same entry are the same, since an entry has one parent (`10_state.md` R37). -/
theorem path_unique {p q : List Bool} (hdp : Descends s.node (rootIdx s) p) (hdq : Descends s.node (rootIdx s) q)
    (h : follow s.node (rootIdx s) p = follow s.node (rootIdx s) q) : p = q := by
  induction p using List.reverseRecOn generalizing q with
  | nil =>
    rcases List.eq_nil_or_concat' q with rfl | ⟨q, c, rfl⟩
    · rfl
    · exact absurd h.symm (follow_concat_ne_root hs hp hdq)
  | append_singleton p b ih =>
    rcases List.eq_nil_or_concat' q with rfl | ⟨q, c, rfl⟩
    · exact absurd h (follow_concat_ne_root hs hp hdp)
    · obtain ⟨hdp', hip⟩ := descends_concat.1 hdp
      obtain ⟨hdq', hiq⟩ := descends_concat.1 hdq
      obtain ⟨i, -, hparent⟩ := existsUnique_parent hs hp (follow_lt hs hp hdp) (follow_concat_ne_root hs hp hdp)
      have hpi := hparent _ (follow_lt hs hp hdp') (isChild_follow_concat hip b)
      have hqi := hparent _ (follow_lt hs hp hdq') (h ▸ isChild_follow_concat hiq c)
      obtain rfl := ih hdp' hdq' (hpi.trans hqi.symm)
      obtain ⟨l, r, w, hnode⟩ := hip
      obtain ⟨hlr, -⟩ := internal_children hs hp (follow_lt hs hp hdp') hnode
      rw [follow_concat, follow_concat, hnode] at h
      rw [child_injective hlr h]

/-- A string that leads to a symbol ends at a leaf with the symbol's count, and the symbol is present. -/
theorem LeadsTo.nodeAt_follow {bits : List Bool} {x : Symbol} (h : LeadsTo s.node (rootIdx s) bits x) :
    nodeAt s.node (follow s.node (rootIdx s) bits) = .leaf x (freqAt s.freq x) ∧ freqAt s.freq x ≠ 0 := by
  obtain ⟨hd, w, hw⟩ := h
  obtain ⟨rfl, hne⟩ := leaf_count hs hp (follow_lt hs hp hd) hw
  exact ⟨hw, hne⟩

/-- The symbols that the root leads to are the present ones. -/
theorem exists_leadsTo_iff {x : Symbol} : (∃ bits, LeadsTo s.node (rootIdx s) bits x) ↔ freqAt s.freq x ≠ 0 := by
  constructor
  · rintro ⟨bits, h⟩
    exact (h.nodeAt_follow hs hp).2
  · intro hx
    obtain ⟨j, ⟨hj, hw⟩, -⟩ := existsUnique_leaf hs hp hx
    obtain ⟨bits, hbits, rfl⟩ := exists_path hs hp hj
    exact ⟨bits, hbits, hw⟩

theorem leadsTo_unique {p q : List Bool} {x : Symbol} (hpx : LeadsTo s.node (rootIdx s) p x)
    (hqx : LeadsTo s.node (rootIdx s) q x) : p = q := by
  obtain ⟨i, -, hleaf⟩ := existsUnique_leaf hs hp (hpx.nodeAt_follow hs hp).2
  exact path_unique hs hp hpx.1 hqx.1
    ((hleaf _ (follow_lt hs hp hpx.1) hpx.2).trans (hleaf _ (follow_lt hs hp hqx.1) hqx.2).symm)

section Root

variable {T : CodeTree} (hT : T.At s.node (rootIdx s))
include hT

/-- The tree at the root has one leaf for each symbol it holds. -/
theorem codes_symbols_nodup : (T.codes.map Prod.fst).Nodup := by
  refine T.codes_nodup.map_on fun p hpT q hqT h => Prod.ext h ?_
  have hp' := (CodeTree.mem_codes_iff hT).1 hpT
  have hq' := (CodeTree.mem_codes_iff hT).1 hqT
  exact leadsTo_unique hs hp hp' (h ▸ hq')

theorem mem_codes_symbols {x : Symbol} : x ∈ T.codes.map Prod.fst ↔ freqAt s.freq x ≠ 0 := by
  rw [← exists_leadsTo_iff hs hp]
  simp [CodeTree.mem_codes_iff hT]

/-- The leaves of the tree at the root are the present symbols (`10_state.md` R37). -/
theorem codes_symbols_perm : (T.codes.map Prod.fst).Perm ((presentEntries s.freq).map Prod.fst) := by
  have hnodup : ((presentEntries s.freq).map Prod.fst).Nodup :=
    List.pairwise_map.2 ((presentEntries_sorted s.freq).imp fun h e => absurd (e ▸ h) (lt_irrefl _))
  refine (List.perm_ext_iff_of_nodup (codes_symbols_nodup hs hp hT) hnodup).2 fun x => ?_
  rw [mem_codes_symbols hs hp hT]
  simp [mem_presentEntries]

theorem codes_length_eq_nsym : T.codes.length = nsym s := by
  simpa [nsym] using (codes_symbols_perm hs hp hT).length_eq

end Root

/-! ### The code table of a sound state (`42_code_table.md` R151) -/

section InternalRoot

variable (hroot : IsInternal s.node (rootIdx s))
include hroot

/-- AssignCodes has fuel for the whole tree (`00_scope.md` R10). -/
theorem assignCodes_eq_storeCodes {T : CodeTree} (hT : T.At s.node (rootIdx s)) :
    assignCodes s.node (rootIdx s) = storeCodes 0 0 T.codes emptyCodes := by
  have hsize := T.size_add_one
  rw [codes_length_eq_nsym hs hp hT] at hsize
  have h256 := nsym_le s
  obtain ⟨l, r, w, h⟩ := hroot
  have hwalk := walk_tree (w := ⟨rootIdx s, 0, 0⟩) hT (511 - T.size) [] emptyCodes
  rw [Nat.add_sub_cancel' (by omega), walk_nil] at hwalk
  rw [← hwalk, assignCodes, h]

/-- A present symbol's code is the string that leads to its leaf. -/
theorem codeAt_assignCodes_of_leadsTo {bits : List Bool} {x : Symbol} (h : LeadsTo s.node (rootIdx s) bits x) :
    bits.length ≤ 255 ∧ codeAt (assignCodes s.node (rootIdx s)) x = stringEntry bits := by
  obtain ⟨T, hT⟩ := exists_codeTree hs hp (rootIdx_lt hs hp)
  have hmem := (CodeTree.mem_codes_iff hT).2 h
  have hlt := CodeTree.length_lt_of_mem_codes hmem
  rw [codes_length_eq_nsym hs hp hT] at hlt
  have h256 := nsym_le s
  refine ⟨by omega, ?_⟩
  rw [assignCodes_eq_storeCodes hs hp hroot hT, codeAt_storeCodes_of_mem (codes_symbols_nodup hs hp hT) hmem,
    Nat.zero_add, stringEntry]

end InternalRoot

theorem codeAt_assignCodes_of_absent {x : Symbol} (hx : freqAt s.freq x = 0) :
    codeAt (assignCodes s.node (rootIdx s)) x = CodeEntry.absent := by
  obtain ⟨T, hT⟩ := exists_codeTree hs hp (rootIdx_lt hs hp)
  cases h : nodeAt s.node (rootIdx s) with
  | leaf y w =>
    have hne : x ≠ y := by
      rintro rfl
      obtain ⟨rfl, hw⟩ := leaf_count hs hp (rootIdx_lt hs hp) h
      exact hw hx
    rw [assignCodes_leaf h, codeAt_setCode, if_neg hne, codeAt_emptyCodes]
  | internal l r w =>
    rw [assignCodes_eq_storeCodes hs hp ⟨l, r, w, h⟩ hT, codeAt_storeCodes_of_not_mem, codeAt_emptyCodes]
    exact (mem_codes_symbols hs hp hT).not.2 (not_not.2 hx)

end SoundTree

end Sys2Proof.Machine
end

section
/-! SUPPORT. What GEN_CODES answers (`42_code_table.md` R150), and what follows for the codes it stores (R151, R153). -/

namespace Sys2Proof.Machine

/-! ### GEN_CODES (`42_code_table.md` R150) -/

section GenCodes

variable {s : State}

theorem exec_genCodes_sequence (hp : s.phase = .load) :
    exec .genCodes s = .next (raise 0x30 .sequence (phaseSub s) s) :=
  checkPhase_illegal (by simp [phaseLegal, hp])

theorem exec_genCodes_success (hp : s.phase ≠ .load) :
    exec .genCodes s = .next (complete (setResults
      (BitVec.ofNat 32 (weightedPathLength s.freq (withCodes s).code))
      (BitVec.ofNat 32 (weightedPathLength s.freq (withCodes s).code / 2 ^ 32)) (withCodes s))) :=
  checkPhase_legal (by simpa [phaseLegal] using hp)

theorem exec_genCodes_code (hp : s.phase ≠ .load) :
    ∃ t, exec .genCodes s = .next t ∧ t.code = assignCodes s.node (rootIdx s) :=
  ⟨_, exec_genCodes_success hp, rfl⟩

end GenCodes

/-- Settles O30: the walk stores at each symbol the string that leads from the root to its leaf. -/
theorem codesArePathsFromTheRoot : Obligations.CodesArePathsFromTheRoot := by
  intro s hs hp
  obtain ⟨t, hexec, hcode⟩ := exec_genCodes_code hp
  refine ⟨t, hexec, fun x hx => ?_, fun x w h => ?_, fun hroot x hx => ?_⟩
  · rw [hcode, codeAt_assignCodes_of_absent hs hp hx]
    rfl
  · rw [hcode, assignCodes_leaf h, codeAt_setCode, if_pos rfl]
    rfl
  · obtain ⟨bits, hbits⟩ := (exists_leadsTo_iff hs hp).2 hx
    obtain ⟨hlen, hentry⟩ := codeAt_assignCodes_of_leadsTo hs hp hroot hbits
    rw [hcode, hentry, codeBits_stringEntry hlen, stringEntry_len hlen]
    refine ⟨(hbits.nodeAt_follow hs hp).1, List.length_pos_iff.2 ?_, stringEntry_val_lt bits, hbits.1⟩
    rintro rfl
    obtain ⟨-, w, hleaf⟩ := hbits
    obtain ⟨l, r, v, hinternal⟩ := hroot
    cases hinternal.symm.trans hleaf

/-- Settles O31: two strings that lead to leaves, neither of which goes on past its leaf. -/
theorem codesArePrefixFree : Obligations.CodesArePrefixFree := by
  intro s hs hc x y hx hy hxy
  have hp : s.phase ≠ .load := by simp [hc]
  obtain ⟨p, hpx⟩ := (exists_leadsTo_iff hs hp).2 hx
  obtain ⟨q, hqy⟩ := (exists_leadsTo_iff hs hp).2 hy
  have hroot : IsInternal s.node (rootIdx s) := by
    cases h : nodeAt s.node (rootIdx s) with
    | leaf z w => exact absurd (((leadsTo_of_leaf h).1 hpx).1.trans ((leadsTo_of_leaf h).1 hqy).1.symm) hxy
    | internal l r w => exact ⟨l, r, w, h⟩
  obtain ⟨hlenp, hcodep⟩ := codeAt_assignCodes_of_leadsTo hs hp hroot hpx
  obtain ⟨hlenq, hcodeq⟩ := codeAt_assignCodes_of_leadsTo hs hp hroot hqy
  have hnot : ¬ codeBits (codeAt s.code x) <+: codeBits (codeAt s.code y) := by
    rw [hs.codes hc, ← rootIdx, hcodep, hcodeq, codeBits_stringEntry hlenp, codeBits_stringEntry hlenq]
    exact hpx.not_isPrefix hqy hxy
  exact ⟨hnot, fun e => hnot ⟨[], by rw [List.append_nil, e]⟩⟩

/-! ### The weighted path length -/

theorem weightedPathLength_eq_sum (f : Vector Word 256) (t : Vector CodeEntry 256) :
    weightedPathLength f t = ((List.finRange 256).map fun i => (f[i]).toNat * (t[i]).len.toNat).sum :=
  congrArg List.sum (List.ext_getElem (by simp) fun _ _ _ => by simp)

/-- A code has at most 255 bits, so WPL ≤ 255 · TOTAL (`42_code_table.md` R150). -/
theorem weightedPathLength_le (f : Vector Word 256) (t : Vector CodeEntry 256) :
    weightedPathLength f t ≤ (f.toList.map BitVec.toNat).sum * 255 := by
  rw [weightedPathLength_eq_sum, toList_eq_map_finRange, List.map_map, ← List.sum_map_mul_right]
  exact List.sum_le_sum fun i _ => Nat.mul_le_mul_left _ (Nat.le_of_lt_succ (t[i]).len.isLt)

/-- The two result words hold a number below 2^64. -/
theorem result_words_toNat {n : Nat} (h : n / 2 ^ 32 < 2 ^ 32) :
    (BitVec.ofNat 32 (n / 2 ^ 32)).toNat * 2 ^ 32 + (BitVec.ofNat 32 n).toNat = n := by
  rw [BitVec.toNat_ofNat, BitVec.toNat_ofNat, Nat.mod_eq_of_lt h, Nat.div_add_mod']

/-- Settles O29: each check by its answer, the result words by the bound on the weighted path length. -/
theorem genCodesFollowsItsRule : Obligations.GenCodesFollowsItsRule := by
  intro s
  refine ⟨rfl, fun hp => ?_, fun hp hT => ?_⟩
  · rw [exec_genCodes_sequence hp, phaseSub, hp]
    exact failsWith_raise ..
  · have hexec := exec_genCodes_success hp
    have hle : weightedPathLength s.freq (withCodes s).code ≤ total s * 255 := weightedPathLength_le ..
    have hhigh : weightedPathLength s.freq (withCodes s).code / 2 ^ 32 < 2 ^ 8 := by omega
    refine ⟨_, hexec, rfl, rfl, ?_, ?_, ⟨rfl, rfl⟩, rfl, rfl, ⟨rfl, rfl⟩, ⟨rfl, rfl, rfl⟩, ⟨rfl, fun _ => rfl⟩,
      exec_sameHostSide hexec⟩
    · exact (result_words_toNat (hhigh.trans (by decide))).trans (weightedPathLength_eq_sum s.freq _)
    · exact lt_of_le_of_lt (Nat.mod_le ..) hhigh

end Sys2Proof.Machine
end

section
/-! SUPPORT. RD_CODE (`42_code_table.md` R155): its word and what it answers. -/

namespace Sys2Proof

/-- The word of RD_CODE, the one format SW command: W above SYM is one operand field (`30_encoding.md` R93, R96). -/
theorem decode_rdCode (x : Symbol) (w : BitVec 3) :
    decode (Opcode.rdCode.matchValue ||| w.setWidth 32 <<< 8 ||| x.setWidth 32) = .ok (.rdCode x w) := by
  have hk : 3 + 8 ≤ 24 := by decide
  rw [BitVec.or_assoc, ← BitVec.setWidth_append_eq_shiftLeft_setWidth_or]
  have hreserved : reservedClear .sw (Opcode.rdCode.matchValue ||| (w ++ x).setWidth 32) = true :=
    beq_iff_eq.2 (reserved_fieldWord hk .rdCode (w ++ x))
  have hsym : symField (Opcode.rdCode.matchValue ||| (w ++ x).setWidth 32) = x := by
    rw [symField, ← BitVec.extractLsb'_extractLsb'_of_le (len' := 3 + 8) (by decide), operand_fieldWord hk,
      BitVec.extractLsb'_append_eq_right]
  have hw : wField (Opcode.rdCode.matchValue ||| (w ++ x).setWidth 32) = w := by
    rw [wField, ← BitVec.extractLsb'_extractLsb'_of_le (len' := 3 + 8) (by decide), operand_fieldWord hk,
      BitVec.extractLsb'_append_eq_left]
  simp only [decode, opcField_fieldWord hk, Opcode.ofCode_code, Opcode.format, hreserved, if_true, Opcode.toInstr,
    hsym, hw]

end Sys2Proof

namespace Sys2Proof.Machine

section RdCode

variable {s : State} (x : Symbol) (w : BitVec 3)

theorem exec_rdCode_sequence (hp : s.phase ≠ .coded) :
    exec (.rdCode x w) s = .next (raise 0x31 .sequence (phaseSub s) s) :=
  checkPhase_illegal (by simpa [phaseLegal] using hp)

theorem exec_rdCode_success (hp : s.phase = .coded) :
    exec (.rdCode x w) s = .next (complete (setResults ((codeAt s.code x).len.setWidth 32)
      (codeWord (codeAt s.code x).val w) s)) :=
  checkPhase_legal (by simp [phaseLegal, hp])

end RdCode

theorem getLsbD_codeWord (v : BitVec 255) (w : BitVec 3) {j : Nat} (hj : j < 32) :
    (codeWord v w).getLsbD j = v.getLsbD (32 * w.toNat + j) := by
  rw [codeWord, BitVec.getLsbD_extractLsb', decide_eq_true hj, Bool.true_and]

/-- Settles O33: each check by its answer, the value's word bit by bit. -/
theorem rdCodeFollowsItsRule : Obligations.RdCodeFollowsItsRule := by
  intro s x w
  refine ⟨decode_rdCode x w, fun hp => ?_, fun hp => ?_⟩
  · rw [exec_rdCode_sequence x w hp]
    exact failsWith_raise ..
  · have hexec := exec_rdCode_success x w hp
    exact ⟨_, hexec, ⟨⟨rfl, rfl⟩, ⟨rfl, rfl, rfl, rfl⟩, ⟨rfl, rfl⟩, ⟨rfl, rfl, rfl⟩, ⟨rfl, fun _ => rfl⟩,
      exec_sameHostSide hexec⟩, BitVec.toNat_setWidth_of_le (by decide), fun j hj => getLsbD_codeWord _ w hj⟩

end Sys2Proof.Machine
end

section
/-! SUPPORT. The bit packer (`43_bit_packer.md`): what its loop leaves in the payload, and what ENC_SYM answers. -/

namespace Sys2Proof.Machine

/-! ### The payload after consecutive bits are put (`43_bit_packer.md` R171) -/

section PutBits

variable (p : Nat) (cs : List Bool) (s : State)

theorem payloadBit_putBits_of_lt {q : Nat} (hq : q < p) :
    payloadBit (putBits (pbase s) p cs s) q = payloadBit s q := by
  induction cs generalizing p s with
  | nil => rfl
  | cons c cs ih =>
    refine (ih (p + 1) (putBit (pbase s) p c s) (by omega)).trans ?_
    rw [payloadBit_putBit, if_pos hq, ite_self]

theorem payloadBit_putBits_getElem {i : Nat} (hi : i < cs.length) :
    payloadBit (putBits (pbase s) p cs s) (p + i) = cs[i] := by
  induction cs generalizing p s i with
  | nil => exact absurd hi (Nat.not_lt_zero i)
  | cons c cs ih =>
    cases i with
    | zero =>
      refine (payloadBit_putBits_of_lt (p + 1) cs (putBit (pbase s) p c s) (Nat.lt_succ_self p)).trans ?_
      simp [payloadBit_putBit]
    | succ i =>
      rw [← Nat.succ_add_eq_add_succ]
      exact ih (p + 1) (putBit (pbase s) p c s) (Nat.lt_of_succ_lt_succ hi)

/-- The bits after the last one put are 0 to the end of its byte. -/
theorem payloadBit_putBits_after (hne : cs ≠ []) {q : Nat} (hq : p + cs.length ≤ q)
    (hbyte : q / 8 = (p + cs.length - 1) / 8) : payloadBit (putBits (pbase s) p cs s) q = false := by
  induction cs generalizing p s with
  | nil => exact absurd rfl hne
  | cons c cs ih =>
    rw [List.length_cons] at hq hbyte
    cases cs with
    | nil =>
      refine (payloadBit_putBit p c s q).trans ?_
      rw [if_pos (by simpa using hbyte), if_neg (by omega), if_neg (by omega)]
    | cons d ds =>
      rw [Nat.add_comm _ 1, ← Nat.add_assoc] at hq hbyte
      exact ih (p + 1) (putBit (pbase s) p c s) (List.cons_ne_nil d ds) hq hbyte

theorem abufByte_putBits_of_ne {base a : Nat} (ha : ∀ q, p ≤ q → q < p + cs.length → a ≠ base + q / 8) :
    abufByte (putBits base p cs s) a = abufByte s a := by
  induction cs generalizing p s with
  | nil => rfl
  | cons c cs ih =>
    rw [List.length_cons] at ha
    rw [putBits, ih _ _ fun q hq hlt => ha q (by omega) (by omega), abufByte_putBit,
      if_neg (ha p le_rfl (by omega))]

end PutBits

/-! ### Codes as bits -/

theorem codeBits_getElem (e : CodeEntry) {i : Nat} (hi : i < (codeBits e).length) :
    (codeBits e)[i] = e.val.getLsbD (e.len.toNat - 1 - i) := by simp [codeBits]

theorem codeBits_ne_nil {e : CodeEntry} (he : e.len ≠ 0) : codeBits e ≠ [] := by
  rw [← List.length_pos_iff, codeBits_length]
  exact Nat.pos_of_ne_zero fun h => he (BitVec.eq_of_toNat_eq h)

/-! ### What ENC_SYM answers, check by check (`43_bit_packer.md` R170, R172) -/

section EncSym

variable {s : State} (x : Symbol)

/-- The state after ENC_SYM appends the code e. -/
def encoded (e : CodeEntry) (s : State) : State := complete (appendResults e (appendCode e s))

theorem exec_encSym_sequence (hp : s.phase ≠ .coded) :
    exec (.encSym x) s = .next (raise 0x40 .sequence (phaseSub s) s) :=
  checkPhase_illegal (by simpa [phaseLegal] using hp)

/-- In CODED the phase check passes. -/
theorem exec_encSym_coded (hp : s.phase = .coded) :
    exec (.encSym x) s =
      if (codeAt s.code x).len = 0 then .next (raise 0x40 .unknownSymbol x s)
      else if pbase s + ceil8 (s.bitLen.toNat + (codeAt s.code x).len.toNat) > s.cfg.abufBytes then
        .next (raise 0x40 .capacity 0x01 s)
      else .next (encoded (codeAt s.code x) s) :=
  checkPhase_legal (by simp [phaseLegal, hp])

theorem exec_encSym_unknown (hp : s.phase = .coded) (h0 : (codeAt s.code x).len = 0) :
    exec (.encSym x) s = .next (raise 0x40 .unknownSymbol x s) := by
  rw [exec_encSym_coded x hp, if_pos h0]

theorem exec_encSym_capacity (hp : s.phase = .coded) (h0 : (codeAt s.code x).len ≠ 0)
    (hover : pbase s + ceil8 (s.bitLen.toNat + (codeAt s.code x).len.toNat) > s.cfg.abufBytes) :
    exec (.encSym x) s = .next (raise 0x40 .capacity 0x01 s) := by
  rw [exec_encSym_coded x hp, if_neg h0, if_pos hover]

theorem exec_encSym_success (hp : s.phase = .coded) (h0 : (codeAt s.code x).len ≠ 0)
    (hfit : pbase s + ceil8 (s.bitLen.toNat + (codeAt s.code x).len.toNat) ≤ s.cfg.abufBytes) :
    exec (.encSym x) s = .next (encoded (codeAt s.code x) s) := by
  rw [exec_encSym_coded x hp, if_neg h0, if_neg (Nat.not_lt.2 hfit)]

end EncSym

/-! ### The state after a code is appended -/

section Encoded

variable (e : CodeEntry) (s : State)

theorem payloadBit_encoded (q : Nat) :
    payloadBit (encoded e s) q = payloadBit (putBits (pbase s) s.bitLen.toNat (codeBits e) s) q := rfl

theorem abufByte_encoded (a : Nat) :
    abufByte (encoded e s) a = abufByte (putBits (pbase s) s.bitLen.toNat (codeBits e) s) a := rfl

/-- A stream that fits in the buffer has a length that BITLEN holds. -/
theorem encoded_bitLen_toNat (hfit : pbase s + ceil8 (s.bitLen.toNat + e.len.toNat) ≤ s.cfg.abufBytes) :
    (encoded e s).bitLen.toNat = s.bitLen.toNat + e.len.toNat := by
  have hmax := abufBytes_le s.cfg
  unfold ceil8 at hfit
  exact Nat.mod_eq_of_lt (by omega)

theorem encoded_result0_toNat : (encoded e s).result0.toNat = e.len.toNat :=
  BitVec.toNat_setWidth_of_le (by decide)

theorem encoded_bitPos : (encoded e s).bitPos = s.bitPos := by simp [encoded, appendResults, appendCode_eq]

theorem encoded_sameTables : SameTables s (encoded e s) := by
  simp [SameTables, encoded, appendResults, appendCode_eq]

theorem encoded_sameErrors : SameErrors s (encoded e s) := by
  simp [SameErrors, encoded, appendResults, appendCode_eq]

end Encoded

/-- Settles O34: each check by its answer, the success by what the packer's loop leaves in the payload. -/
theorem encSymFollowsItsRule : Obligations.EncSymFollowsItsRule := by
  rintro s x e rfl
  refine ⟨?_, fun hp => ?_, fun hp h0 => ?_, fun hp h0 hover => ?_, fun hp h0 hfit => ?_⟩
  · exact decode_formatS (op := .encSym) rfl fun _ => congrArg Instr.encSym
  · rw [exec_encSym_sequence x hp]
    exact failsWith_raise ..
  · rw [exec_encSym_unknown x hp h0]
    exact failsWith_raise ..
  · rw [exec_encSym_capacity x hp h0 hover]
    exact failsWith_raise ..
  · have hexec := exec_encSym_success x hp h0 hfit
    refine ⟨_, hexec, fun p hlt => ?_, fun i hi => ?_, fun p hge hbyte => ?_, fun a ha => ?_,
      encoded_bitLen_toNat _ s hfit, encoded_bitPos _ s, encoded_result0_toNat _ s, rfl, ⟨rfl, rfl⟩,
      encoded_sameTables _ s, encoded_sameErrors _ s, exec_sameHostSide hexec⟩
    · rw [payloadBit_encoded, payloadBit_putBits_of_lt _ _ _ hlt]
    · rw [← codeBits_length] at hi
      rw [payloadBit_encoded, payloadBit_putBits_getElem _ _ _ hi, codeBits_getElem]
    · rw [← codeBits_length] at hge hbyte
      rw [payloadBit_encoded, payloadBit_putBits_after _ _ _ (codeBits_ne_nil h0) hge hbyte]
    · rw [← codeBits_length] at ha
      rw [abufByte_encoded, abufByte_putBits_of_ne _ _ _ ha]

/-! ### The stream's cursors (`43_bit_packer.md` R174, `44_bit_unpacker.md` R196) -/

/-- Settles O35: STRM_RST is `emptyStream` completed, REWIND the state with BITPOS = 0 completed. -/
theorem streamResetsMoveCursorsOnly : Obligations.StreamResetsMoveCursorsOnly :=
  fun _ => ⟨by decide, by decide, rfl, rfl⟩

end Sys2Proof.Machine
end

section
/-! SUPPORT. The bit unpacker (`44_bit_unpacker.md`): where the traversal ends, and what DEC_SYM answers. -/

namespace Sys2Proof.Machine

/-! ### The bits of the stream -/

section Stream

variable {s : State} {p q : Nat} {m : Memory}

theorem streamBits_length (s : State) (p k : Nat) : (streamBits s p k).length = k := by simp [streamBits]

theorem streamBits_succ (s : State) (p k : Nat) :
    streamBits s p (k + 1) = payloadBit s p :: streamBits s (p + 1) k := by
  simp [streamBits, List.range_succ_eq_map, Nat.add_left_comm, Nat.add_comm]

theorem streamBits_take (s : State) (p : Nat) {j k : Nat} (h : j ≤ k) :
    (streamBits s p k).take j = streamBits s p j := by
  simp [streamBits, ← List.map_take, List.take_range, h]

theorem bitPos_lt_bitLen (hcursor : s.bitPos.toNat ≤ s.bitLen.toNat) (hne : s.bitPos ≠ s.bitLen) :
    s.bitPos.toNat < s.bitLen.toNat := lt_of_le_of_ne hcursor fun h => hne (BitVec.eq_of_toNat_eq h)

/-- Under INV5 the byte of every bit of the stream exists. -/
theorem payloadBit?_of_lt_bitLen (hfit : alen s ≤ s.cfg.abufBytes) (hq : q < s.bitLen.toNat) :
    payloadBit? s q = some (payloadBit s q) := by
  unfold alen ceil8 at hfit
  exact if_pos (by omega)

/-- Whether a bit's byte exists does not depend on the buffer's contents. -/
theorem payloadBit?_withAbuf (h : payloadBit { s with abuf := m } q = payloadBit s q) :
    payloadBit? { s with abuf := m } q = payloadBit? s q := by
  rw [payloadBit?, payloadBit?, h]
  rfl

/-- The bits of a stream descend exactly when each shorter stretch of them leads to an internal node. -/
theorem descends_streamBits_iff {i : NodeIdx} {k : Nat} :
    Descends s.node i (streamBits s p k) ↔ ∀ j < k, IsInternal s.node (follow s.node i (streamBits s p j)) := by
  rw [Descends, streamBits_length]
  exact forall₂_congr fun j hj => by rw [streamBits_take s p hj.le]

end Stream

/-! ### The traversal (`44_bit_unpacker.md` R190) -/

section Walk

variable {s : State} {i : NodeIdx} {p left : Nat} {x : Symbol}

theorem decodeWalk_leaf {b : Bool} {w : Word} (hbit : payloadBit? s p = some b)
    (hchild : nodeAt s.node ((nodeAt s.node i).child b) = .leaf x w) :
    decodeWalk s (left + 1) i p = .symbol x (p + 1) := by
  simp [decodeWalk, hbit, hchild]

theorem decodeWalk_internal {b : Bool} (hbit : payloadBit? s p = some b)
    (hchild : IsInternal s.node ((nodeAt s.node i).child b)) :
    decodeWalk s (left + 1) i p = decodeWalk s left ((nodeAt s.node i).child b) (p + 1) := by
  obtain ⟨l, r, w, hchild⟩ := hchild
  simp [decodeWalk, hbit, hchild]

/-- If the next k bits lead down to a leaf, the traversal ends there after k bits. -/
theorem decodeWalk_of_leadsTo {k : Nat} (hfit : alen s ≤ s.cfg.abufBytes) (hend : p + left ≤ s.bitLen.toNat)
    (hi : IsInternal s.node i) (hk : k ≤ left) (h : LeadsTo s.node i (streamBits s p k) x) :
    decodeWalk s left i p = .symbol x (p + k) := by
  obtain ⟨l, r, w, hnode⟩ := hi
  induction k generalizing left i p l r w with
  | zero => obtain ⟨b, rest, hcons, -⟩ := (leadsTo_of_internal hnode).1 h; cases hcons
  | succ k ih =>
    obtain ⟨left, rfl⟩ : ∃ n, left = n + 1 := ⟨left - 1, by omega⟩
    have hbit := payloadBit?_of_lt_bitLen hfit (q := p) (by omega)
    rw [streamBits_succ] at h
    obtain ⟨b, rest, hcons, hrest⟩ := (leadsTo_of_internal hnode).1 h
    cases hcons
    cases hchild : nodeAt s.node ((nodeAt s.node i).child (payloadBit s p)) with
    | leaf y v =>
      obtain ⟨rfl, hnil⟩ := (leadsTo_of_leaf hchild).1 hrest
      obtain rfl : k = 0 := by rw [← streamBits_length s (p + 1) k, hnil, List.length_nil]
      exact decodeWalk_leaf hbit hchild
    | internal l' r' w' =>
      rw [decodeWalk_internal hbit ⟨l', r', w', hchild⟩, ih (by omega) (by omega) hrest l' r' w' hchild,
        Nat.add_right_comm, Nat.add_assoc]

/-- If the bits left never lead to a leaf, the traversal uses them up. -/
theorem decodeWalk_exhausted (hfit : alen s ≤ s.cfg.abufBytes) (hend : p + left ≤ s.bitLen.toNat)
    (h : ∀ k ≤ left, IsInternal s.node (follow s.node i (streamBits s p k))) :
    decodeWalk s left i p = .exhausted := by
  induction left generalizing i p with
  | zero => rfl
  | succ left ih =>
    have htail : ∀ k ≤ left, IsInternal s.node
        (follow s.node ((nodeAt s.node i).child (payloadBit s p)) (streamBits s (p + 1) k)) := fun k hk => by
      have hlonger := h (k + 1) (by omega)
      rwa [streamBits_succ] at hlonger
    rw [decodeWalk_internal (payloadBit?_of_lt_bitLen hfit (by omega)) (htail 0 (Nat.zero_le _))]
    exact ih (by omega) htail

/-- The traversal depends on the buffer only through the bits it may read. -/
theorem decodeWalk_withAbuf {m : Memory}
    (h : ∀ q < p + left, payloadBit { s with abuf := m } q = payloadBit s q) :
    decodeWalk { s with abuf := m } left i p = decodeWalk s left i p := by
  induction left generalizing i p with
  | zero => rfl
  | succ left ih =>
    rw [decodeWalk, decodeWalk, payloadBit?_withAbuf (h p (by omega))]
    cases payloadBit? s p with
    | none => rfl
    | some b =>
      dsimp only
      cases nodeAt s.node ((nodeAt s.node i).child b) with
      | leaf y v => rfl
      | internal l r v => exact ih fun q hq => h q (by omega)

end Walk

/-! ### What DEC_SYM answers, check by check (`44_bit_unpacker.md` R190 to R193) -/

section DecSym

variable {s : State} {x : Symbol}

theorem exec_decSym_sequence (hp : s.phase = .load) :
    exec .decSym s = .next (raise 0x50 .sequence (phaseSub s) s) :=
  checkPhase_illegal (by simp [phaseLegal, hp])

section Tree

variable (hp : s.phase ≠ .load)
include hp

theorem exec_decSym_end (hend : s.bitPos = s.bitLen) :
    exec .decSym s = .next (complete (setResults 0x100 0 s)) :=
  (checkPhase_legal (by simpa [phaseLegal] using hp)).trans (if_pos hend)

variable (hne : s.bitPos ≠ s.bitLen)
include hne

theorem exec_decSym_single {w : Word} (hroot : nodeAt s.node (rootIdx s) = .leaf x w) :
    exec .decSym s = decodeSingle x s := by
  refine (checkPhase_legal (by simpa [phaseLegal] using hp)).trans ((if_neg hne).trans ?_)
  rw [← rootIdx, hroot]

theorem exec_decSym_tree (hroot : IsInternal s.node (rootIdx s)) : exec .decSym s = decodeTree s := by
  obtain ⟨l, r, w, hroot⟩ := hroot
  refine (checkPhase_legal (by simpa [phaseLegal] using hp)).trans ((if_neg hne).trans ?_)
  rw [← rootIdx, hroot]

end Tree

theorem decodeSingle_one (hbit : payloadBit? s s.bitPos.toNat = some true) :
    decodeSingle x s = .next (raise 0x50 .corruptStream 0x11 s) := by
  rw [decodeSingle, hbit]
  rfl

theorem decodeSingle_zero (hbit : payloadBit? s s.bitPos.toNat = some false) :
    decodeSingle x s = .next (complete (decoded x (s.bitPos.toNat + 1) s)) := by
  rw [decodeSingle, hbit]

theorem decodeTree_symbol {p : Nat}
    (hwalk : decodeWalk s (s.bitLen.toNat - s.bitPos.toNat) (rootIdx s) s.bitPos.toNat = .symbol x p) :
    decodeTree s = .next (complete (decoded x p s)) := by
  rw [decodeTree, ← rootIdx, hwalk]

theorem decodeTree_exhausted
    (hwalk : decodeWalk s (s.bitLen.toNat - s.bitPos.toNat) (rootIdx s) s.bitPos.toNat = .exhausted) :
    decodeTree s = .next (raise 0x50 .corruptStream 0x10 s) := by
  rw [decodeTree, ← rootIdx, hwalk]
  rfl

/-- A symbol decoded from k bits of the stream moves the cursor past them (`44_bit_unpacker.md` R190). -/
theorem decodes_of_exec {k : Nat} (hk : s.bitPos.toNat + k ≤ s.bitLen.toNat)
    (hexec : exec .decSym s = .next (complete (decoded x (s.bitPos.toNat + k) s))) :
    ∃ t, exec .decSym s = .next t ∧ t.result0.toNat = x.toNat ∧ t.result1.toNat = k
      ∧ t.bitPos.toNat = s.bitPos.toNat + k ∧ OnlyResults s { t with bitPos := s.bitPos } := by
  have hmax := s.bitLen.isLt
  have hhost := exec_sameHostSide hexec
  refine ⟨_, hexec, BitVec.toNat_setWidth_of_le (by decide), ?_, Nat.mod_eq_of_lt (by omega), ⟨rfl, rfl⟩,
    ⟨rfl, rfl, rfl, rfl⟩, ⟨rfl, rfl⟩, ⟨rfl, rfl, rfl⟩, ⟨rfl, fun _ => rfl⟩, hhost⟩
  change (BitVec.ofNat 32 (s.bitPos.toNat + k - s.bitPos.toNat)).toNat = k
  rw [Nat.add_sub_cancel_left, BitVec.toNat_ofNat, Nat.mod_eq_of_lt (by omega)]

end DecSym

/-- Settles O36: each check by its answer, the traversal by the node the stream's bits lead to. -/
theorem decSymFollowsItsRule : Obligations.DecSymFollowsItsRule := by
  intro s hcursor hfit
  refine ⟨by decide, fun hp => ?_, fun hp hend => ?_, fun x w hp hne hroot => ?_, fun hp hne hroot => ?_⟩
  · rw [exec_decSym_sequence hp, phaseSub, hp]
    exact failsWith_raise ..
  · have hexec := exec_decSym_end hp hend
    exact ⟨_, hexec, rfl, rfl, ⟨rfl, rfl⟩, ⟨rfl, rfl, rfl, rfl⟩, ⟨rfl, rfl⟩, ⟨rfl, rfl, rfl⟩,
      ⟨rfl, fun _ => rfl⟩, exec_sameHostSide hexec⟩
  · have hlt := bitPos_lt_bitLen hcursor hne
    have hexec := exec_decSym_single hp hne hroot
    have hread := payloadBit?_of_lt_bitLen hfit hlt
    refine ⟨fun hbit => ?_, fun hbit => ?_⟩ <;> rw [hbit] at hread
    · rw [hexec, decodeSingle_one hread]
      exact failsWith_raise ..
    · obtain ⟨t, ht, hsymbol, hcount, hmoved⟩ := decodes_of_exec hlt (hexec.trans (decodeSingle_zero hread))
      exact ⟨t, ht, hsymbol, BitVec.eq_of_toNat_eq hcount, hmoved⟩
  · have hexec := exec_decSym_tree hp hne hroot
    have hleft : s.bitPos.toNat + (s.bitLen.toNat - s.bitPos.toNat) ≤ s.bitLen.toNat := by omega
    refine ⟨fun k x w hk hleaf hpath => ?_, fun hnoleaf => ?_⟩
    · have hwalk := decodeWalk_of_leadsTo hfit hleft hroot (by omega) ⟨descends_streamBits_iff.2 hpath, w, hleaf⟩
      exact decodes_of_exec hk (hexec.trans (decodeTree_symbol hwalk))
    · have hwalk := decodeWalk_exhausted hfit hleft fun k hk => hnoleaf k (by omega)
      rw [hexec, decodeTree_exhausted hwalk]
      exact failsWith_raise ..

/-! ### The padding of the last byte (`44_bit_unpacker.md` R194) -/

section Padding

variable {s t : State} {m : Memory} {x : Symbol}

theorem decodeSingle_withAbuf
    (hbit : payloadBit? { s with abuf := m } s.bitPos.toNat = payloadBit? s s.bitPos.toNat)
    (h : decodeSingle x s = .next t) : decodeSingle x { s with abuf := m } = .next { t with abuf := m } := by
  cases hread : payloadBit? s s.bitPos.toNat with
  | none => rw [decodeSingle, hread] at h; cases h
  | some b =>
    rw [hread] at hbit
    cases b with
    | false => rw [decodeSingle_zero hread] at h; cases h; exact decodeSingle_zero hbit
    | true => rw [decodeSingle_one hread] at h; cases h; exact decodeSingle_one hbit

theorem decodeTree_withAbuf
    (hwalk : decodeWalk { s with abuf := m } (s.bitLen.toNat - s.bitPos.toNat) (rootIdx s) s.bitPos.toNat =
      decodeWalk s (s.bitLen.toNat - s.bitPos.toNat) (rootIdx s) s.bitPos.toNat)
    (h : decodeTree s = .next t) : decodeTree { s with abuf := m } = .next { t with abuf := m } := by
  cases hend : decodeWalk s (s.bitLen.toNat - s.bitPos.toNat) (rootIdx s) s.bitPos.toNat with
  | symbol x p => rw [decodeTree_symbol hend] at h; cases h; exact decodeTree_symbol (hwalk.trans hend)
  | exhausted => rw [decodeTree_exhausted hend] at h; cases h; exact decodeTree_exhausted (hwalk.trans hend)
  | absent a => rw [decodeTree, ← rootIdx, hend] at h; cases h

end Padding

/-- Settles O37: every check before the traversal ignores the buffer, and the traversal stops at BITLEN. -/
theorem paddingBitsAreNeverRead : Obligations.PaddingBitsAreNeverRead := by
  intro s t m hcursor hbits h
  by_cases hp : s.phase = .load
  · rw [exec_decSym_sequence hp] at h
    cases h
    exact exec_decSym_sequence hp
  by_cases hend : s.bitPos = s.bitLen
  · rw [exec_decSym_end hp hend] at h
    cases h
    exact exec_decSym_end hp hend
  cases hroot : nodeAt s.node (rootIdx s) with
  | leaf x w =>
    have hread := payloadBit?_withAbuf (hbits _ (bitPos_lt_bitLen hcursor hend))
    rw [exec_decSym_single hp hend hroot] at h
    exact (exec_decSym_single (s := { s with abuf := m }) hp hend hroot).trans
      (decodeSingle_withAbuf hread h)
  | internal l r w =>
    have hi : IsInternal s.node (rootIdx s) := ⟨l, r, w, hroot⟩
    have hstream : ∀ q < s.bitPos.toNat + (s.bitLen.toNat - s.bitPos.toNat),
        payloadBit { s with abuf := m } q = payloadBit s q := fun q hq => hbits q (by omega)
    rw [exec_decSym_tree hp hend hi] at h
    exact (exec_decSym_tree (s := { s with abuf := m }) hp hend hi).trans
      (decodeTree_withAbuf (decodeWalk_withAbuf hstream) h)

end Sys2Proof.Machine
end

section
/-! SUPPORT. Numbers in the artifact buffer (`20_memory.md` R62, R63): what MemRead returns after a MemWrite. -/

namespace Sys2Proof.Machine

/-! ### Big-endian numbers -/

theorem bigEndian_concat (bytes : List Byte) (b : Byte) :
    bigEndian (bytes ++ [b]) = bigEndian bytes * 256 + b.toNat := List.foldl_concat ..

theorem bigEndian_lt (bytes : List Byte) : bigEndian bytes < 256 ^ bytes.length := by
  induction bytes using List.reverseRecOn with
  | nil => exact Nat.one_pos
  | append_singleton bytes b ih =>
    have hb := b.isLt
    rw [bigEndian_concat, List.length_append, List.length_singleton, Nat.pow_succ]
    omega

/-- The last byte is the low one. -/
theorem bytesOf_succ (n v : Nat) : bytesOf (n + 1) v = bytesOf n (v / 256) ++ [BitVec.ofNat 8 v] := by
  have hshift : ∀ i < n, v >>> (8 * (n - i)) = (v / 256) >>> (8 * (n - 1 - i)) := fun i hi => by
    rw [show 8 * (n - i) = 8 + 8 * (n - 1 - i) by omega, Nat.shiftRight_add, Nat.shiftRight_eq_div_pow v 8]
  simp only [bytesOf, List.range_succ, List.map_append, List.map_singleton, Nat.add_sub_cancel, Nat.sub_self,
    Nat.mul_zero, Nat.shiftRight_zero]
  refine congrArg (· ++ _) (List.map_congr_left fun i hi => ?_)
  rw [hshift i (List.mem_range.1 hi)]

theorem bigEndian_bytesOf {n v : Nat} (h : v < 256 ^ n) : bigEndian (bytesOf n v) = v := by
  induction n generalizing v with
  | zero => exact (Nat.lt_one_iff.1 h).symm
  | succ n ih =>
    rw [bytesOf_succ, bigEndian_concat, ih (by omega), BitVec.toNat_ofNat]
    exact Nat.div_add_mod' v 256

/-! ### MemRead -/

theorem memRead_lt (s : State) (a n : Nat) : memRead s a n < 256 ^ n := by
  simpa [memRead] using bigEndian_lt ((List.range n).map fun i => abufByte s (a + i))

/-- MemRead depends on the bytes it names and on nothing else. -/
theorem memRead_congr {s t : State} {a n : Nat} (h : ∀ b, a ≤ b → b < a + n → abufByte t b = abufByte s b) :
    memRead t a n = memRead s a n :=
  congrArg bigEndian (List.map_congr_left fun i hi => h (a + i) (by omega) (by have := List.mem_range.1 hi; omega))

/-! ### MemRead after MemWrite -/

section MemWrite

variable (s : State) (m : Memory) {a n v : Nat}

theorem abufByte_memWrite_of_outside {b : Nat} (hb : b < a ∨ a + n ≤ b) :
    abufByte { s with abuf := memWrite m a n v } b = abufByte { s with abuf := m } b := by
  refine (abufByte_writeBytes { s with abuf := m } a b (bytesOf n v)).trans (dif_neg ?_)
  rw [bytesOf_length]
  omega

theorem abufByte_memWrite_getElem {i : Nat} (hi : i < (bytesOf n v).length) :
    abufByte { s with abuf := memWrite m a n v } (a + i) = (bytesOf n v)[i] := by
  refine (abufByte_writeBytes { s with abuf := m } a (a + i) (bytesOf n v)).trans ?_
  rw [dif_pos (by omega)]
  simp only [Nat.add_sub_cancel_left]

theorem memRead_memWrite (hv : v < 256 ^ n) : memRead { s with abuf := memWrite m a n v } a n = v := by
  have hbytes : ((List.range n).map fun i => abufByte { s with abuf := memWrite m a n v } (a + i)) = bytesOf n v :=
    List.ext_getElem (by simp) fun i _ hi => by
      rw [List.getElem_map, List.getElem_range, abufByte_memWrite_getElem s m hi]
  rw [memRead, hbytes, bigEndian_bytesOf hv]

theorem memRead_memWrite_of_disjoint {b k : Nat} (hb : b + k ≤ a ∨ a + n ≤ b) :
    memRead { s with abuf := memWrite m a n v } b k = memRead { s with abuf := m } b k :=
  memRead_congr fun _ _ _ => abufByte_memWrite_of_outside s m (by omega)

end MemWrite

end Sys2Proof.Machine
end

section
/-! SUPPORT. WR_HEADER (`45_tree_serializer.md` R210, R211, R213): the header that it leaves in the buffer. -/

namespace Sys2Proof.Machine

/-! ### The header's entries -/

section Entries

variable (s : State) (m : Memory) (i : Nat) (es : List (Symbol × Word))

theorem abufByte_writeEntries_of_outside {a : Nat} (ha : a < 2 + 5 * i ∨ 2 + 5 * (i + es.length) ≤ a) :
    abufByte { s with abuf := writeEntries m i es } a = abufByte { s with abuf := m } a := by
  induction es generalizing m i with
  | nil => rfl
  | cons p es ih =>
    rw [List.length_cons] at ha
    exact (ih _ (i + 1) (by omega)).trans
      ((abufByte_memWrite_of_outside s _ (by omega)).trans (abufByte_memWrite_of_outside s m (by omega)))

theorem memRead_writeEntries_of_outside {a n : Nat} (ha : a + n ≤ 2 + 5 * i ∨ 2 + 5 * (i + es.length) ≤ a) :
    memRead { s with abuf := writeEntries m i es } a n = memRead { s with abuf := m } a n :=
  memRead_congr fun _ _ _ => abufByte_writeEntries_of_outside s m i es (by omega)

variable {es}

/-- Entry j stands five bytes after entry j − 1, its symbol before its count (`45_tree_serializer.md` R210). -/
theorem memRead_writeEntries {j : Nat} {x : Symbol} {w : Word} (hj : es[j]? = some (x, w)) :
    memRead { s with abuf := writeEntries m i es } (2 + 5 * (i + j)) 1 = x.toNat
      ∧ memRead { s with abuf := writeEntries m i es } (3 + 5 * (i + j)) 4 = w.toNat := by
  induction es generalizing m i j with
  | nil => cases hj
  | cons p es ih =>
    cases j with
    | zero =>
      cases hj
      exact ⟨(memRead_writeEntries_of_outside s _ (i + 1) es (by omega)).trans
        ((memRead_memWrite_of_disjoint s _ (by omega)).trans (memRead_memWrite s m x.isLt)),
        (memRead_writeEntries_of_outside s _ (i + 1) es (by omega)).trans (memRead_memWrite s _ w.isLt)⟩
    | succ j =>
      rw [← Nat.succ_add_eq_add_succ]
      exact ih _ (i + 1) hj

end Entries

/-! ### The whole header -/

/-- The buffer holds the header of these entries and this payload bit length (`45_tree_serializer.md` R210). -/
structure HoldsHeader (s : State) (es : List (Symbol × Word)) (l : Nat) : Prop where
  count : memRead s 0 2 = es.length
  entry : ∀ i x w, es[i]? = some (x, w) →
    memRead s (2 + 5 * i) 1 = x.toNat ∧ memRead s (3 + 5 * i) 4 = w.toNat
  bitLength : memRead s (2 + 5 * es.length) 4 = l

section HeaderWritten

variable (s : State)

theorem memRead_headerWritten_of_below {a n : Nat} (ha : a + n ≤ 2 + 5 * nsym s) :
    memRead { s with abuf := headerWritten s } a n =
      memRead { s with abuf := writeEntries (memWrite s.abuf 0 2 (nsym s)) 0 (presentEntries s.freq) } a n :=
  memRead_memWrite_of_disjoint s _ (.inl ha)

theorem holdsHeader_headerWritten :
    HoldsHeader { s with abuf := headerWritten s } (presentEntries s.freq) s.bitLen.toNat where
  count := by
    have hle := nsym_le s
    rw [memRead_headerWritten_of_below s (by omega), memRead_writeEntries_of_outside s _ _ _ (by omega)]
    exact memRead_memWrite s _ (by omega)
  entry i x w hi := by
    have hlt : i < nsym s := (List.getElem?_eq_some_iff.1 hi).1
    rw [memRead_headerWritten_of_below s (by omega), memRead_headerWritten_of_below s (by omega)]
    simpa using memRead_writeEntries s _ 0 hi
  bitLength := memRead_memWrite s _ s.bitLen.isLt

/-- Nothing from PBASE on is written (`45_tree_serializer.md` R213). -/
theorem abufByte_headerWritten_of_ge {a : Nat} (ha : pbase s ≤ a) :
    abufByte { s with abuf := headerWritten s } a = abufByte s a := by
  unfold pbase at ha
  refine (abufByte_memWrite_of_outside s _ (by omega)).trans
    ((abufByte_writeEntries_of_outside s _ 0 _ (.inr ?_)).trans (abufByte_memWrite_of_outside s s.abuf (by omega)))
  rw [Nat.zero_add]
  exact (by omega : 2 + 5 * nsym s ≤ a)

end HeaderWritten

/-! ### What WR_HEADER answers (`45_tree_serializer.md` R213) -/

section WrHeader

variable {s : State}

/-- The state after WR_HEADER writes the header. -/
def headered (s : State) : State :=
  complete (setResults (BitVec.ofNat 32 (pbase s)) (BitVec.ofNat 32 (alen s)) { s with abuf := headerWritten s })

theorem exec_wrHeader_sequence (hp : s.phase = .load) :
    exec .wrHeader s = .next (raise 0x60 .sequence (phaseSub s) s) :=
  checkPhase_illegal (by simp [phaseLegal, hp])

theorem exec_wrHeader_success (hp : s.phase ≠ .load) : exec .wrHeader s = .next (headered s) :=
  checkPhase_legal (by simpa [phaseLegal] using hp)

theorem headered_result0_toNat (s : State) : (headered s).result0.toNat = pbase s := by
  have hle := pbase_le s
  exact Nat.mod_eq_of_lt (by omega)

theorem headered_result1_toNat (s : State) : (headered s).result1.toNat = alen s := by
  have hle := pbase_le s
  have hlen := s.bitLen.isLt
  refine Nat.mod_eq_of_lt ?_
  unfold alen ceil8
  omega

end WrHeader

/-- Settles O40: the phase check by its answer, the success by the header that `headerWritten` holds. -/
theorem wrHeaderFollowsItsRule : Obligations.WrHeaderFollowsItsRule := by
  intro s
  refine ⟨by decide, fun hp => ?_, fun hp => ?_⟩
  · rw [exec_wrHeader_sequence hp, phaseSub, hp]
    exact failsWith_raise ..
  · have hexec := exec_wrHeader_success hp
    obtain ⟨hcount, hentry, hlength⟩ := holdsHeader_headerWritten s
    exact ⟨_, presentEntries s.freq, hexec, rfl, presentEntries_sorted s.freq, mem_presentEntries s.freq, hcount,
      hentry, hlength, fun a => abufByte_headerWritten_of_ge s, headered_result0_toNat s, headered_result1_toNat s,
      ⟨rfl, rfl⟩, ⟨rfl, rfl, rfl, rfl⟩, ⟨rfl, rfl⟩, ⟨rfl, rfl, rfl⟩, exec_sameHostSide hexec⟩

end Sys2Proof.Machine
end

section
/-! SUPPORT. RD_HEADER (`45_tree_serializer.md` R214, R215): its checks one by one, and what it reads from a header. -/

namespace Sys2Proof.Machine

/-! ### The entries of a header -/

section HeaderEntries

variable (s : State)

theorem headerSym_toNat (i : Nat) : (headerSym s i).toNat = memRead s (2 + 5 * i) 1 :=
  Nat.mod_eq_of_lt (memRead_lt s _ 1)

/-- Entry i of the header (`45_tree_serializer.md` R210). -/
def headerEntry (i : Nat) : Symbol × Word := (headerSym s i, BitVec.ofNat 32 (headerFreq s i))

/-- s_{i−1}, which check 5 compares with s_i (`45_tree_serializer.md` R215). -/
def prevSym : Nat → Option Symbol
  | 0 => none
  | i + 1 => some (headerSym s i)

/-- The running total before entry i (`45_tree_serializer.md` R214). -/
def totalBefore (i : Nat) : Nat := ((List.range i).map (headerFreq s)).sum

theorem totalBefore_succ (i : Nat) : totalBefore s (i + 1) = totalBefore s i + headerFreq s i := by
  simp [totalBefore, List.range_succ]

theorem outOfOrder_prevSym (i : Nat) :
    outOfOrder (prevSym s i) (headerSym s i) = true ↔
      0 < i ∧ memRead s (2 + 5 * i) 1 ≤ memRead s (2 + 5 * (i - 1)) 1 := by
  cases i with
  | zero => simp [outOfOrder, prevSym]
  | succ i => simp [outOfOrder, prevSym, headerSym_toNat]

/-- An entry's fault, in the words of `readEntries`. -/
theorem entryFault_eq (i : Nat) :
    entryFault s i =
      if outOfOrder (prevSym s i) (headerSym s i) then some 0x03
      else if headerFreq s i = 0 then some 0x04
      else if totalBefore s i + headerFreq s i > 2 ^ 32 - 1 then some 0x05
      else none := by
  simp only [outOfOrder_prevSym, ← totalBefore_succ]
  rfl

theorem readEntries_of_fault {i : Nat} {sub : Byte} (k : Nat) (h : entryFault s i = some sub) :
    readEntries s (k + 1) i (prevSym s i) (totalBefore s i) = .error sub := by
  rw [entryFault_eq] at h
  rw [readEntries]
  split_ifs at h ⊢ <;> cases h <;> rfl

theorem readEntries_of_no_fault {i : Nat} (k : Nat) (h : entryFault s i = none) :
    readEntries s (k + 1) i (prevSym s i) (totalBefore s i) =
      (readEntries s k (i + 1) (prevSym s (i + 1)) (totalBefore s (i + 1))).map (headerEntry s i :: ·) := by
  rw [entryFault_eq] at h
  rw [readEntries, totalBefore_succ, prevSym]
  split_ifs at h ⊢
  cases readEntries s k (i + 1) (some (headerSym s i)) (totalBefore s i + headerFreq s i) <;> rfl

/-- The subcode of the first fault among k entries from entry i on (`45_tree_serializer.md` R215). -/
def firstFault (i k : Nat) : Option Byte := (List.range' i k).findSome? (entryFault s)

theorem readEntries_eq (k i : Nat) :
    readEntries s k i (prevSym s i) (totalBefore s i) =
      (firstFault s i k).elim (.ok ((List.range' i k).map (headerEntry s))) .error := by
  induction k generalizing i with
  | zero => rfl
  | succ k ih =>
    rw [firstFault, List.range'_succ, List.findSome?_cons]
    cases h : entryFault s i with
    | some sub => exact readEntries_of_fault s k h
    | none =>
      rw [readEntries_of_no_fault s k h, ih, firstFault]
      cases (List.range' (i + 1) k).findSome? (entryFault s) <;> rfl

theorem readEntries_header (n : Nat) :
    readEntries s n 0 none 0 = (firstFault s 0 n).elim (.ok ((List.range' 0 n).map (headerEntry s))) .error :=
  readEntries_eq s n 0

variable {s} {n : Nat}

theorem firstFault_eq_none_iff : firstFault s 0 n = none ↔ ∀ j < n, entryFault s j = none := by
  simp [firstFault, List.findSome?_eq_none_iff]

theorem firstFault_eq_some {i : Nat} {sub : Byte} (hi : i < n) (hbefore : ∀ j < i, entryFault s j = none)
    (h : entryFault s i = some sub) : firstFault s 0 n = some sub := by
  obtain ⟨k, rfl⟩ : ∃ k, n = i + (k + 1) := ⟨n - i - 1, by omega⟩
  refine List.findSome?_eq_some_iff.2 ⟨List.range' 0 i, i, List.range' (i + 1) k, ?_, h, fun j hj => hbefore j ?_⟩
  · rw [← List.range'_append_1, List.range'_succ, Nat.zero_add]
  · simpa using hj

end HeaderEntries

/-! ### The checks of an artifact, one by one (`45_tree_serializer.md` R215) -/

section ReadArtifact

variable {s : State} {len n : Nat}

theorem readArtifact_short (h : len < 2) : readArtifact s len = .error 0x01 := if_pos h

variable (hn : memRead s 0 2 = n)
include hn

theorem readArtifact_count (h2 : 2 ≤ len) (h : n = 0 ∨ n > 256) : readArtifact s len = .error 0x02 := by
  subst hn
  exact (if_neg (by omega)).trans (if_pos h)

variable (h1 : 1 ≤ n) (h256 : n ≤ 256)
include h1 h256

theorem readArtifact_truncated (h2 : 2 ≤ len) (h : len < 6 + 5 * n) : readArtifact s len = .error 0x01 := by
  subst hn
  exact (if_neg (by omega)).trans ((if_neg (by omega)).trans (if_pos h))

variable (hlen : 6 + 5 * n ≤ len)
include hlen

theorem readArtifact_entry {sub : Byte} (h : firstFault s 0 n = some sub) : readArtifact s len = .error sub := by
  subst hn
  rw [readArtifact, if_neg (by omega), if_neg (by omega), if_neg (by omega), readEntries_header, h]
  rfl

theorem readArtifact_no_fault (h : firstFault s 0 n = none) :
    readArtifact s len =
      if len ≠ 6 + 5 * n + ceil8 (headerLen s n) then .error 0x06
      else .ok ((List.range' 0 n).map (headerEntry s), headerLen s n) := by
  subst hn
  rw [readArtifact, if_neg (by omega), if_neg (by omega), if_neg (by omega), readEntries_header, h]
  rfl

end ReadArtifact

/-- What an accepted artifact has passed (`45_tree_serializer.md` R215). -/
theorem readArtifact_ok {s : State} {len l : Nat} {es : List (Symbol × Word)} (h : readArtifact s len = .ok (es, l)) :
    ∃ n, memRead s 0 2 = n ∧ 1 ≤ n ∧ n ≤ 256 ∧ (∀ j < n, entryFault s j = none) ∧ l = headerLen s n
      ∧ len = 6 + 5 * n + ceil8 l := by
  have h2 : 2 ≤ len := not_lt.1 fun hlt => by rw [readArtifact_short hlt] at h; cases h
  have hcount : ¬ (memRead s 0 2 = 0 ∨ memRead s 0 2 > 256) := fun hbad => by
    rw [readArtifact_count rfl h2 hbad] at h
    cases h
  have hheader : 6 + 5 * memRead s 0 2 ≤ len := not_lt.1 fun hlt => by
    rw [readArtifact_truncated rfl (by omega) (by omega) h2 hlt] at h
    cases h
  refine ⟨_, rfl, by omega, by omega, ?_⟩
  cases hf : firstFault s 0 (memRead s 0 2) with
  | some sub => rw [readArtifact_entry rfl (by omega) (by omega) hheader hf] at h; cases h
  | none =>
    rw [readArtifact_no_fault rfl (by omega) (by omega) hheader hf] at h
    split_ifs at h with hl
    cases h
    exact ⟨firstFault_eq_none_iff.1 hf, rfl, not_not.1 hl⟩

/-! ### What RD_HEADER answers (`45_tree_serializer.md` R214) -/

section RdHeader

variable {s : State}

theorem exec_rdHeader_operand (h : lengthOperand s > s.cfg.abufBytes) :
    exec .rdHeader s = .next (raise 0x61 .operand 0x03 s) := if_pos h

variable (hfit : lengthOperand s ≤ s.cfg.abufBytes)
include hfit

theorem exec_rdHeader_error {sub : Byte} (h : readArtifact s (lengthOperand s) = .error sub) :
    exec .rdHeader s = .next (raise 0x61 .corruptStream sub s) := by
  refine (if_neg (Nat.not_lt.2 hfit)).trans ?_
  rw [h]
  rfl

theorem exec_rdHeader_success {es : List (Symbol × Word)} {l : Nat}
    (h : readArtifact s (lengthOperand s) = .ok (es, l)) :
    exec .rdHeader s = .next (complete (loadArtifact es l s)) := by
  refine (if_neg (Nat.not_lt.2 hfit)).trans ?_
  rw [h]

theorem rdHeader_failsWith {sub : Byte} (h : readArtifact s (lengthOperand s) = .error sub) :
    FailsWith (exec .rdHeader s) s 0x61 .corruptStream sub := by
  rw [exec_rdHeader_error hfit h]
  exact failsWith_raise ..

end RdHeader

/-- Settles O41: each check by its answer, the entries' checks by the first entry with a fault. -/
theorem rdHeaderChecksInOrder : Obligations.RdHeaderChecksInOrder := by
  intro s len n hlen hn
  subst hlen
  refine ⟨fun h => ?_, fun hfit h => ?_, fun hfit h2 h => ?_, fun hfit h2 h1 h256 h => ?_,
    fun i sub hfit h1 h256 h hi hbefore hfault => ?_, fun hfit h1 h256 h hnone hne => ?_⟩
  · rw [exec_rdHeader_operand h]
    exact failsWith_raise ..
  · exact rdHeader_failsWith hfit (readArtifact_short h)
  · exact rdHeader_failsWith hfit (readArtifact_count hn h2 h)
  · exact rdHeader_failsWith hfit (readArtifact_truncated hn h1 h256 h2 h)
  · exact rdHeader_failsWith hfit (readArtifact_entry hn h1 h256 h (firstFault_eq_some hi hbefore hfault))
  · exact rdHeader_failsWith hfit
      ((readArtifact_no_fault hn h1 h256 h (firstFault_eq_none_iff.2 hnone)).trans (if_pos hne))

/-! ### Truncation (`45_tree_serializer.md` R217) -/

/-- Settles O44: the truncated artifact passes the checks that the whole one passed (O41), but its length is wrong. -/
theorem truncatedArtifactIsRefused : Obligations.TruncatedArtifactIsRefused := by
  intro s t _ hexec herr hpayload
  rcases execRdHeader_next hexec with ⟨-, rfl⟩ | ⟨-, _, -, rfl⟩ | ⟨hfit, es, l, hread, rfl⟩
  · cases herr
  · cases herr
  · obtain ⟨n, hn, h1, h256, hnone, rfl, hlen⟩ := readArtifact_ok hread
    have hbitLen : (complete (loadArtifact es (headerLen s n) s)).bitLen.toNat = headerLen s n :=
      Nat.mod_eq_of_lt (memRead_lt s _ 4)
    rw [hbitLen] at hpayload
    unfold lengthOperand at hfit hlen
    have hpos : 1 ≤ s.argLat.toNat := by omega
    have hshort : (s.argLat - 1).toNat = s.argLat.toNat - 1 := BitVec.toNat_sub_of_le (x := s.argLat) (y := 1) hpos
    obtain ⟨-, -, -, -, -, hlength⟩ := rdHeaderChecksInOrder { s with argLat := s.argLat - 1 } _ n hshort hn
    refine hlength ((Nat.sub_le ..).trans hfit) h1 h256 (by omega) hnone fun hwhole => ?_
    change s.argLat.toNat - 1 = 6 + 5 * n + ceil8 (headerLen s n) at hwhole
    omega

end Sys2Proof.Machine
end

section
/-! SUPPORT. The round trip of the header (`45_tree_serializer.md` R212): RD_HEADER loads the table and the stream
length that WR_HEADER wrote, and BUILD makes the same tree of them. -/

namespace Sys2Proof.Machine

/-! ### The table that RD_HEADER loads (`45_tree_serializer.md` R214) -/

section LoadFreq

variable {es : List (Symbol × Word)} {x : Symbol}

theorem freqAt_foldl_setFreq_of_not_mem (hx : x ∉ es.map Prod.fst) (f : Vector Word 256) :
    freqAt (es.foldl (fun f p => setFreq f p.1 p.2) f) x = freqAt f x := by
  induction es generalizing f with
  | nil => rfl
  | cons p es ih =>
    obtain ⟨hp, hx⟩ := not_or.1 (List.mem_cons.not.1 hx)
    exact (ih hx _).trans ((freqAt_setFreq ..).trans (if_neg hp))

theorem freqAt_foldl_setFreq_of_mem {w : Word} (hnodup : (es.map Prod.fst).Nodup) (hx : (x, w) ∈ es)
    (f : Vector Word 256) : freqAt (es.foldl (fun f p => setFreq f p.1 p.2) f) x = w := by
  induction es generalizing f with
  | nil => cases hx
  | cons p es ih =>
    obtain ⟨hp, hnodup⟩ := List.nodup_cons.1 hnodup
    rcases List.mem_cons.1 hx with rfl | hx
    · exact (freqAt_foldl_setFreq_of_not_mem hp _).trans ((freqAt_setFreq ..).trans (if_pos rfl))
    · exact ih hnodup hx _

theorem freqAt_loadFreq_of_not_mem (hx : x ∉ es.map Prod.fst) : freqAt (loadFreq es) x = 0 :=
  (freqAt_foldl_setFreq_of_not_mem hx zeroFreq).trans (freqAt_zeroFreq x)

theorem freqAt_loadFreq_of_mem {w : Word} (hnodup : (es.map Prod.fst).Nodup) (hx : (x, w) ∈ es) :
    freqAt (loadFreq es) x = w := freqAt_foldl_setFreq_of_mem hnodup hx zeroFreq

end LoadFreq

theorem presentEntries_symbols_nodup (f : Vector Word 256) : ((presentEntries f).map Prod.fst).Nodup :=
  List.pairwise_map.2 ((presentEntries_sorted f).imp fun hlt e => absurd (congrArg BitVec.toNat e) hlt.ne)

/-- A table is the one its entries load. -/
theorem loadFreq_presentEntries (f : Vector Word 256) : loadFreq (presentEntries f) = f := by
  refine freq_ext fun x => ?_
  by_cases hx : freqAt f x = 0
  · rw [hx]
    refine freqAt_loadFreq_of_not_mem fun hmem => ?_
    obtain ⟨⟨y, w⟩, hyw, rfl⟩ := List.mem_map.1 hmem
    obtain ⟨hw, hf⟩ := (mem_presentEntries f y w).1 hyw
    exact hw (hf.symm.trans hx)
  · exact freqAt_loadFreq_of_mem (presentEntries_symbols_nodup f) ((mem_presentEntries f x _).2 ⟨hx, rfl⟩)

/-- The counts of the entries add up to TOTAL (`10_state.md` R34). -/
theorem sum_presentEntries (f : Vector Word 256) :
    ((presentEntries f).map fun p => p.2.toNat).sum = (f.toList.map BitVec.toNat).sum := sum_entries f.toList 0

/-! ### What RD_HEADER reads from a header -/

section Holds

variable {s : State} {es : List (Symbol × Word)} {l : Nat} (h : HoldsHeader s es l)
include h

theorem HoldsHeader.headerEntry_eq {i : Nat} (hi : i < es.length) : headerEntry s i = es[i] := by
  obtain ⟨hsym, hfreq⟩ := h.entry i es[i].1 es[i].2 (List.getElem?_eq_getElem hi)
  rw [headerEntry, headerSym, headerFreq, hsym, hfreq, BitVec.ofNat_toNat, BitVec.ofNat_toNat, BitVec.setWidth_eq,
    BitVec.setWidth_eq]

theorem HoldsHeader.map_headerEntry : (List.range' 0 es.length).map (headerEntry s) = es :=
  List.ext_getElem (by simp) fun i _ hi => by simp [h.headerEntry_eq hi]

/-- The running totals are sums of the entries' first counts. -/
theorem HoldsHeader.headerTotal_eq {i : Nat} (hi : i < es.length) :
    headerTotal s i = ((es.map fun p => p.2.toNat).take (i + 1)).sum := by
  refine congrArg List.sum (List.ext_getElem (by simp; omega) fun j hj _ => ?_)
  have hj' : j < es.length := by simp at hj; omega
  obtain ⟨-, hfreq⟩ := h.entry j es[j].1 es[j].2 (List.getElem?_eq_getElem hj')
  simpa using hfreq

theorem HoldsHeader.headerTotal_le {i : Nat} (hi : i < es.length) :
    headerTotal s i ≤ (es.map fun p => p.2.toNat).sum := by
  rw [h.headerTotal_eq hi, ← List.sum_take_add_sum_drop (es.map fun p => p.2.toNat) (i + 1)]
  exact Nat.le_add_right ..

variable (hsorted : es.Pairwise fun p q => p.1.toNat < q.1.toNat) (hpresent : ∀ p ∈ es, p.2 ≠ 0)
  (htotal : (es.map fun p => p.2.toNat).sum ≤ 2 ^ 32 - 1)
include hsorted hpresent htotal

/-- A header in ascending order, of counts above 0 that fit in TOTAL, passes checks 5, 6 and 7
(`45_tree_serializer.md` R215). -/
theorem HoldsHeader.entryFault_eq_none {i : Nat} (hi : i < es.length) : entryFault s i = none := by
  obtain ⟨hsym, hfreq⟩ := h.entry i es[i].1 es[i].2 (List.getElem?_eq_getElem hi)
  have horder : ¬ (0 < i ∧ memRead s (2 + 5 * i) 1 ≤ memRead s (2 + 5 * (i - 1)) 1) := fun ⟨h0, hle⟩ => by
    obtain ⟨hprev, -⟩ := h.entry (i - 1) es[i - 1].1 es[i - 1].2 (List.getElem?_eq_getElem (by omega))
    rw [hsym, hprev] at hle
    exact absurd (List.pairwise_iff_getElem.1 hsorted (i - 1) i (by omega) hi (by omega)) (not_lt.2 hle)
  have hzero : memRead s (3 + 5 * i) 4 ≠ 0 := fun h0 =>
    hpresent es[i] (List.getElem_mem hi) (BitVec.eq_of_toNat_eq (hfreq.symm.trans h0))
  rw [entryFault, if_neg horder, if_neg hzero, if_neg (not_lt.2 ((h.headerTotal_le hi).trans htotal))]

/-- Such a header with its payload is accepted, and read as it is. -/
theorem HoldsHeader.readArtifact_eq (h1 : 1 ≤ es.length) (h256 : es.length ≤ 256) :
    readArtifact s (6 + 5 * es.length + ceil8 l) = .ok (es, l) := by
  have hnone := firstFault_eq_none_iff.2 fun j hj => h.entryFault_eq_none hsorted hpresent htotal (i := j) hj
  have hlen : headerLen s es.length = l := h.bitLength
  rw [readArtifact_no_fault h.count h1 h256 (Nat.le_add_right ..) hnone, hlen, h.map_headerEntry]
  exact if_neg (not_not.2 rfl)

end Holds

/-! ### The round trip -/

section Presented

variable (s : State)

/-- WR_HEADER has completed and its RESULT1 is LENGTH for RD_HEADER. -/
def presented : State := { headered s with argLat := (headered s).result1 }

/-- RD_HEADER has loaded the artifact that WR_HEADER completed. -/
def reloaded : State := complete (loadArtifact (presentEntries s.freq) s.bitLen.toNat (presented s))

theorem lengthOperand_presented : lengthOperand (presented s) = alen s := headered_result1_toNat s

theorem holdsHeader_presented : HoldsHeader (presented s) (presentEntries s.freq) s.bitLen.toNat :=
  have ⟨hcount, hentry, hlength⟩ := holdsHeader_headerWritten s
  ⟨hcount, hentry, hlength⟩

theorem reloaded_freq : (reloaded s).freq = s.freq := loadFreq_presentEntries s.freq

theorem reloaded_bitLen : (reloaded s).bitLen = s.bitLen :=
  (BitVec.ofNat_toNat ..).trans (BitVec.setWidth_eq _)

end Presented

section RoundTrip

variable {s : State} (hs : Sound s) (hp : s.phase ≠ .load)
include hs hp

theorem exec_rdHeader_presented : exec .rdHeader (presented s) = .next (reloaded s) := by
  have hlen := lengthOperand_presented s
  refine exec_rdHeader_success (hlen ▸ hs.fits) ?_
  rw [hlen]
  exact (holdsHeader_presented s).readArtifact_eq (presentEntries_sorted s.freq)
    (fun p hmem => ((mem_presentEntries s.freq p.1 p.2).1 hmem).1)
    ((sum_presentEntries s.freq).trans_le hs.total_le) (hs.tree hp).1 (nsym_le s)

/-- Storing BUILD's arena again changes nothing (INV2 of `10_state.md` R51). -/
theorem writeArena_buildArena : writeArena s.node (buildArena s.freq) = s.node := by
  have hlen : (buildArena s.freq).length = nnodes s :=
    (buildArena_length rfl (hs.tree hp).1).trans (nnodes_of_tree hp).symm
  refine Vector.ext fun i hi => ?_
  have hnode := nodeAt_writeArena s.node (buildArena s.freq) ⟨i, hi⟩
  rw [← nodeAt_eq_getElem _ ⟨i, hi⟩, ← nodeAt_eq_getElem _ ⟨i, hi⟩, hnode]
  split
  · next hlt => exact ((nodeAt_eq_iff_arena hs hp (hlen ▸ hlt) _).2 (List.getElem?_eq_getElem hlt)).symm
  · rfl

/-- BUILD on the table of a sound state, over its arena, makes its tree again (`41_tree_builder.md` R133). -/
theorem exec_build_rebuilds {u : State} (hfreq : u.freq = s.freq) (hnode : u.node = s.node) (hu : u.phase = .load) :
    ∃ v, exec .build u = .next v ∧ v.node = s.node ∧ nsym v = nsym s ∧ v.phase = .built ∧ v.err = u.err := by
  have hnsym : nsym u = nsym s := congrArg (fun f => (presentEntries f).length) hfreq
  have h0 : nsym u ≠ 0 := hnsym ▸ Nat.ne_of_gt (hs.tree hp).1
  refine ⟨_, exec_build_success hu h0, ?_, hnsym, rfl, rfl⟩
  change writeArena u.node (buildArena u.freq) = s.node
  rw [hfreq, hnode, writeArena_buildArena hs hp]

end RoundTrip

/-- Settles O43: the header loads the table it was written from, so BUILD stores the arena that NODE already holds. -/
theorem headerRoundTripRebuilds : Obligations.HeaderRoundTripRebuilds := by
  intro s hs hp herr
  obtain ⟨v, hbuild, hnode, hnsym, hphase, hverr⟩ := exec_build_rebuilds hs hp (reloaded_freq s) rfl rfl
  have hvp : v.phase ≠ .load := by simp [hphase]
  have hroot : rootIdx v = rootIdx s := Fin.ext (by rw [rootIdx_val hvp, rootIdx_val hp, hnsym])
  refine ⟨headered s, _, v, _, exec_wrHeader_success hp, exec_rdHeader_presented hs hp, reloaded_freq s,
    reloaded_bitLen s, rfl, rfl, hbuild, fun i _ => by rw [hnode], by rw [nnodes_of_tree hvp, nnodes_of_tree hp, hnsym],
    exec_genCodes_success hvp, fun s' hcodes => ?_, hverr.trans herr⟩
  rw [exec_genCodes_success hp] at hcodes
  cases hcodes
  exact congrArg₂ assignCodes hnode hroot

end Sys2Proof.Machine
end

section
/-! SUPPORT. The control commands NOP, CLEAR and ERR_ACK (`46_control.md`), and what an idle read returns where
the table and the stream are empty. -/

namespace Sys2Proof.Machine

/-! ### What an idle block reads as -/

/-- A register read while idle returns the value it shows (`70_reset_and_hazards.md` R296). -/
theorem readsAs_of_idle {s : State} (hb : s.busy = false) (r : Reg) {v : Word} (hv : regValue s r = v) :
    ReadsAs s (regOffset r).toNat v := by
  intro k hk
  rw [busRead_defined (regOfAddr_regOffset r hk) (.inl hb), ← hv, afterRead]
  split <;> simp

theorem errInfoWord_zero : errInfoWord ErrInfo.zero = 0 := by decide

/-! ### The empty table and the empty stream -/

@[simp] theorem presentEntries_zeroFreq : presentEntries zeroFreq = [] := by
  refine List.eq_nil_iff_forall_not_mem.2 fun ⟨x, w⟩ h => ?_
  obtain ⟨hw, hx⟩ := (mem_presentEntries zeroFreq x w).1 h
  exact hw (hx.symm.trans (freqAt_zeroFreq x))

section Empty

variable {s : State}

theorem nsym_eq_zero (hf : s.freq = zeroFreq) : nsym s = 0 := by simp [nsym, hf]

theorem total_eq_zero (hf : s.freq = zeroFreq) : total s = 0 := by
  rw [total, ← sum_presentEntries, hf, presentEntries_zeroFreq]
  rfl

theorem pbase_eq_six (hf : s.freq = zeroFreq) : pbase s = 6 := by simp [pbase, nsym_eq_zero hf]

theorem alen_eq_six (hf : s.freq = zeroFreq) (hl : s.bitLen = 0) : alen s = 6 := by
  simp [alen, pbase_eq_six hf, hl, ceil8]

theorem nnodes_of_load (hp : s.phase = .load) : nnodes s = 0 := by simp [nnodes, hp]

theorem root_of_load (hp : s.phase = .load) : root s = 0 := by simp [root, hp]

end Empty

/-! ### NOP (`46_control.md` R230) -/

theorem decode_nop : decode 0x00000000 = .ok .nop := by decide

/-- The word 0 completes with no other change, whether it is discarded (`60_exceptions.md` R254) or runs as NOP. -/
theorem execute_nop_word {s : State} (hw : s.cmdLat = 0) : execute s = .next (complete s) := by
  rw [execute, hw, decode_nop]
  split
  · rfl
  · rfl

/-- Settles O18: NOP is `complete`, and so is the step of the word 0; opcode 0x00 is format N. -/
theorem nopOnlyCompletes : Obligations.NopOnlyCompletes := by
  refine ⟨decode_nop, fun w hopc hw => ?_, fun s => ⟨rfl, fun hb hcmd hp => ?_⟩⟩
  · refine decode_eq_reservedBits_iff.2 ⟨.nop, hopc.symm, fun hbits => hw (BitVec.eq_of_toNat_eq ?_)⟩
    have hlow : w.toNat % 2 ^ 24 = 0 := hbits
    exact (by omega : w.toNat = 0)
  · rw [step_nil hp, engineTurn_busy hb]
    exact execute_nop_word hcmd

/-! ### CLEAR (`46_control.md` R231) -/

/-- The state that CLEAR completes in. -/
def cleared (s : State) : State :=
  complete (setResults 0 0 (acknowledge (emptyStream { s with freq := zeroFreq, phase := .load })))

theorem exec_clear (s : State) : exec .clear s = .next (cleared s) := rfl

/-- STATUS after CLEAR is DONE alone (`10_state.md` R23). -/
theorem statusWord_cleared (s : State) : statusWord (cleared s) = 2 := by
  simp [statusWord, cleared, Phase.code]

/-- Settles O19: the fields as `cleared` leaves them, the registers as they follow from the empty table and stream. -/
theorem clearStartsFreshRun : Obligations.ClearStartsFreshRun := by
  refine ⟨by decide, fun s => ⟨cleared s, exec_clear s, freqAt_zeroFreq, rfl, rfl, rfl, rfl, rfl, rfl, rfl, rfl,
    ⟨rfl, rfl⟩, rfl, rfl, ⟨rfl, fun _ => rfl⟩, exec_sameHostSide (exec_clear s), ?_⟩⟩
  have reads : ∀ (r : Reg) {v : Word}, regValue (cleared s) r = v → ReadsAs (cleared s) (regOffset r).toNat v :=
    readsAs_of_idle rfl
  have hf : (cleared s).freq = zeroFreq := rfl
  exact ⟨reads .id rfl, reads .status (statusWord_cleared s), reads .errInfo errInfoWord_zero,
    reads .result0 rfl, reads .result1 rfl,
    reads .nsym (congrArg (BitVec.ofNat 32) (nsym_eq_zero hf)),
    reads .total (congrArg (BitVec.ofNat 32) (total_eq_zero hf)),
    reads .nnodes (congrArg (BitVec.ofNat 32) (nnodes_of_load rfl)),
    reads .root (congrArg (BitVec.ofNat 32) (root_of_load rfl)),
    reads .bitLen rfl, reads .bitPos rfl,
    reads .pbase (congrArg (BitVec.ofNat 32) (pbase_eq_six hf)),
    reads .alen (congrArg (BitVec.ofNat 32) (alen_eq_six hf rfl)), reads .abufSize rfl⟩

/-! ### ERR_ACK (`46_control.md` R232) -/

/-- Settles O20: ERR_ACK is `acknowledge` completed. -/
theorem errAckClearsErrorsOnly : Obligations.ErrAckClearsErrorsOnly := ⟨by decide, fun _ => rfl⟩

end Sys2Proof.Machine
end

section
/-! SUPPORT. Errors (`60_exceptions.md`): the phases in which a command is legal (R251), what a command does to the
error state (R252, R253), the words that an unacknowledged error discards (R254), and the interrupt line (R260). -/

namespace Sys2Proof.Machine

/-! ### The phases in which a command is legal (`60_exceptions.md` R251) -/

section Legal

variable {s : State} {i : Instr}

theorem phase_ne_load_iff {ph : Phase} : ph ≠ .load ↔ ph = .built ∨ ph = .coded := by cases ph <;> decide

/-- A command fails with SEQUENCE in every phase where it is not legal. -/
theorem exec_of_illegal (h : phaseLegal i.opcode s.phase = false) :
    exec i s = .next (raise i.opcode.code .sequence (phaseSub s) s) := by
  cases i with
  | freqAdd | build | rdNode | genCodes | rdCode | encSym | decSym | wrHeader => exact checkPhase_illegal h
  | nop | clear | errAck | rdFreq | strmRst | rewind | rdHeader => cases h

end Legal

/-! ### What a command does to the error state (`60_exceptions.md` R252, R253) -/

section Errors

variable {s t : State} {i : Instr}

/-- The command of opcode `op` has failed in a check, and with SEQUENCE only where it is not legal. -/
def FailsACheck (op : Opcode) (s t : State) : Prop :=
  ∃ e sub, t = raise op.code e sub s ∧ e ≠ .none ∧ (e = .sequence → phaseLegal op s.phase = false)

theorem FailsACheck.phase {op : Opcode} {sub : Byte} (h : phaseLegal op s.phase = false) :
    FailsACheck op s (raise op.code .sequence sub s) :=
  ⟨_, _, rfl, nofun, fun _ => h⟩

theorem FailsACheck.other {op : Opcode} {e : ErrorCode} {sub : Byte} (hnone : e ≠ .none) (hseq : e ≠ .sequence) :
    FailsACheck op s (raise op.code e sub s) :=
  ⟨_, _, rfl, hnone, fun h => absurd h hseq⟩

/-- A command fails in a check, or keeps the error state, or acknowledges it (CLEAR and ERR_ACK). -/
theorem exec_errors (h : exec i s = .next t) :
    FailsACheck i.opcode s t ∨ SameErrors s t ∨ SameErrors (acknowledge s) t := by
  cases i with
  | nop => rw [execNop_next h]; exact .inr (.inl ⟨rfl, rfl, rfl⟩)
  | clear => rw [execClear_next h]; exact .inr (.inr ⟨rfl, rfl, rfl⟩)
  | errAck => rw [execErrAck_next h]; exact .inr (.inr ⟨rfl, rfl, rfl⟩)
  | freqAdd x =>
    rcases execFreqAdd_next h with ⟨hp, rfl⟩ | ⟨-, -, rfl⟩ | ⟨-, -, -, rfl⟩ | ⟨-, -, -, rfl⟩
    · exact .inl (.phase (beq_false_of_ne hp))
    · exact .inl (.other nofun nofun)
    · exact .inl (.other nofun nofun)
    · exact .inr (.inl ⟨rfl, rfl, rfl⟩)
  | rdFreq x => rw [execRdFreq_next h]; exact .inr (.inl ⟨rfl, rfl, rfl⟩)
  | build =>
    rcases execBuild_next h with ⟨hp, rfl⟩ | ⟨-, -, rfl⟩ | ⟨-, -, rfl⟩
    · exact .inl (.phase (beq_false_of_ne hp))
    · exact .inl (.other nofun nofun)
    · exact .inr (.inl ⟨rfl, rfl, rfl⟩)
  | rdNode idx =>
    rcases execRdNode_next h with ⟨hp, rfl⟩ | ⟨-, -, rfl⟩ | ⟨-, -, rfl⟩
    · exact .inl (.phase (bne_eq_false_iff_eq.2 hp))
    · exact .inl (.other nofun nofun)
    · exact .inr (.inl ⟨rfl, rfl, rfl⟩)
  | genCodes =>
    rcases execGenCodes_next h with ⟨hp, rfl⟩ | ⟨-, rfl⟩
    · exact .inl (.phase (bne_eq_false_iff_eq.2 hp))
    · exact .inr (.inl ⟨rfl, rfl, rfl⟩)
  | rdCode x w =>
    rcases execRdCode_next h with ⟨hp, rfl⟩ | ⟨-, rfl⟩
    · exact .inl (.phase (beq_false_of_ne hp))
    · exact .inr (.inl ⟨rfl, rfl, rfl⟩)
  | encSym x =>
    rcases execEncSym_next h with ⟨hp, rfl⟩ | ⟨-, -, rfl⟩ | ⟨-, -, -, rfl⟩ | ⟨-, -, -, rfl⟩
    · exact .inl (.phase (beq_false_of_ne hp))
    · exact .inl (.other nofun nofun)
    · exact .inl (.other nofun nofun)
    · exact .inr (.inl (encoded_sameErrors _ s))
  | strmRst => rw [execStrmRst_next h]; exact .inr (.inl ⟨rfl, rfl, rfl⟩)
  | decSym =>
    rcases execDecSym_next h with ⟨hp, rfl⟩ | ⟨-, -, rfl⟩ | ⟨-, -, rfl | rfl | ⟨x, p, -, -, rfl⟩⟩
    · exact .inl (.phase (bne_eq_false_iff_eq.2 hp))
    · exact .inr (.inl ⟨rfl, rfl, rfl⟩)
    · exact .inl (.other nofun nofun)
    · exact .inl (.other nofun nofun)
    · exact .inr (.inl ⟨rfl, rfl, rfl⟩)
  | rewind => rw [execRewind_next h]; exact .inr (.inl ⟨rfl, rfl, rfl⟩)
  | wrHeader =>
    rcases execWrHeader_next h with ⟨hp, rfl⟩ | ⟨-, rfl⟩
    · exact .inl (.phase (bne_eq_false_iff_eq.2 hp))
    · exact .inr (.inl ⟨rfl, rfl, rfl⟩)
  | rdHeader =>
    rcases execRdHeader_next h with ⟨-, rfl⟩ | ⟨-, _, -, rfl⟩ | ⟨-, _, _, -, rfl⟩
    · exact .inl (.other nofun nofun)
    · exact .inl (.other nofun nofun)
    · exact .inr (.inl ⟨rfl, rfl, rfl⟩)

end Errors

/-- Settles O11: only a failed check leaves ERR = 1 where it was 0, and then the state is `raise`'s. -/
theorem failingCommandChangesOnlyErrorState : Obligations.FailingCommandChangesOnlyErrorState := by
  intro i s t herr hexec hfail
  rcases exec_errors hexec with ⟨e, sub, rfl, hnone, -⟩ | ⟨hsame, -, -⟩ | ⟨hack, -, -⟩
  · exact ⟨rfl, rfl, hnone⟩
  · exact absurd (hsame.symm.trans hfail) (by simp [herr])
  · exact absurd (hack.symm.trans hfail) (by simp)

/-- Settles O12: the statement's table is `phaseLegal`; elsewhere the phase check fails, and no other check records
SEQUENCE. -/
theorem sequenceErrorExactlyInIllegalPhase : Obligations.SequenceErrorExactlyInIllegalPhase := by
  unfold Obligations.SequenceErrorExactlyInIllegalPhase
  intro legal sub i s
  have hlegal : legal i s.phase ↔ phaseLegal i.opcode s.phase = true := by
    cases i <;> simp [legal, Instr.opcode, phaseLegal, ← phase_ne_load_iff]
  have hsub : sub s.phase = phaseSub s := by
    unfold phaseSub
    cases s.phase <;> rfl
  rw [hlegal, hsub, Bool.not_eq_true]
  refine ⟨fun hillegal => ?_, fun hl t hexec hcode => ?_⟩
  · rw [exec_of_illegal hillegal]
    exact failsWith_raise ..
  · rcases exec_errors hexec with ⟨e, sub, rfl, -, hseq⟩ | ⟨-, -, hsame⟩ | ⟨-, -, hack⟩
    · exact fun he => absurd ((hseq he).symm.trans hl) nofun
    · exact hsame ▸ hcode
    · exact hack ▸ nofun

/-! ### The words that an unacknowledged error discards (`60_exceptions.md` R254) -/

section Discard

variable {s : State}

theorem runsUnderError_eq_false_iff {w : Word} :
    runsUnderError w = false ↔ w ≠ 0x01000000 ∧ w ≠ 0x02000000 := by simp [runsUnderError]

theorem execute_of_discarded (herr : s.err = true) (hw : runsUnderError s.cmdLat = false) :
    execute s = .next (complete s) :=
  if_pos (by simp [discarded, herr, hw])

theorem execute_of_runsUnderError {i : Instr} (hw : runsUnderError s.cmdLat = true) (hd : decode s.cmdLat = .ok i) :
    execute s = exec i s := by
  simp [execute, discarded, hw, hd]

end Discard

/-- Settles O9: the step is the engine's turn, whose discard test spares the words of CLEAR and ERR_ACK. -/
theorem errorDiscardsAllButClearAndAck : Obligations.ErrorDiscardsAllButClearAndAck := by
  intro s hb herr hp
  rw [step_nil hp, engineTurn_busy hb]
  refine ⟨fun hclear hack => ?_, fun hw => ?_, fun hw => ?_⟩
  · exact execute_of_discarded herr (runsUnderError_eq_false_iff.2 ⟨hclear, hack⟩)
  · exact execute_of_runsUnderError (by rw [hw]; rfl) (by rw [hw]; decide)
  · exact execute_of_runsUnderError (by rw [hw]; rfl) (by rw [hw]; decide)

/-! ### The interrupt line (`60_exceptions.md` R260) -/

/-- What a read returns, busy or not, where R302 of `70_reset_and_hazards.md` defines it: the register's value. -/
theorem eq_regValue_of_readsAs {s : State} {r : Reg} {v : Word} (hr : anyWhileBusy r = false)
    (h : ReadsAs s (regOffset r).toNat v) : v = regValue s r := by
  rw [← h 0 (by decide), busRead_defined (regOfAddr_regOffset r (by decide)) (.inr hr), afterRead]
  split <;> rfl

theorem ctrlWord_bits (s : State) :
    (ctrlWord s).getLsbD 0 = ieDone s ∧ (ctrlWord s).getLsbD 1 = ieErr s := by
  simp [ctrlWord, ieDone, ieErr]

/-- STATUS flag by flag, each flag the lowest bit of the word so far (`10_state.md` R23). -/
theorem statusWord_eq_concat (s : State) :
    statusWord s =
      (((BitVec.concat (0#26 ++ s.phase.code) s.ovr).concat s.err).concat s.doneFlag).concat s.busy := rfl

theorem statusWord_bits (s : State) :
    (statusWord s).getLsbD 1 = s.doneFlag ∧ (statusWord s).getLsbD 2 = s.err
      ∧ (statusWord s).getLsbD 3 = s.ovr := by
  simp [statusWord_eq_concat]

/-- Settles O52: both reads are defined at any time, and their bits are the flags that `irq` combines. -/
theorem interruptIsThePendingEnabledSources : Obligations.InterruptIsThePendingEnabledSources := by
  intro s c t hc ht
  have hctrl : c = ctrlWord s := eq_regValue_of_readsAs (r := .ctrl) rfl hc
  have hstatus : t = statusWord s := eq_regValue_of_readsAs (r := .status) rfl ht
  obtain ⟨hieDone, hieErr⟩ := ctrlWord_bits s
  obtain ⟨hdone, herr, hovr⟩ := statusWord_bits s
  rw [hctrl, hstatus, hieDone, hieErr, hdone, herr, hovr, irq]

end Sys2Proof.Machine
end

section
/-! SUPPORT. The engine's turn when the host writes CTRL or ARG while a command runs (`70_reset_and_hazards.md`
R304): it answers as before, with the new CTRL and ARG kept. -/

namespace Sys2Proof.Machine

section HostWindow

variable (c : BitVec 2 → BitVec 2) (v : Word → Word)

/-- CTRL changed by c and ARG by v: the identity where the host leaves the register alone. -/
def withHostWindow (s : State) : State := { s with ctrl := c s.ctrl, arg := v s.arg }

variable {s t : State} {i : Instr}

theorem execute_of_error {e : DecodeError} (hd : discarded s = false) (hword : decode s.cmdLat = .error e) :
    execute s = .next (raise (opcField s.cmdLat) .illegalCommand e.sub s) := by
  simp [execute, hd, hword]

theorem execute_of_ok (hd : discarded s = false) (hword : decode s.cmdLat = .ok i) : execute s = exec i s := by
  simp [execute, hd, hword]

theorem putBits_withHostWindow (base p : Nat) (cs : List Bool) (s : State) :
    putBits base p cs (withHostWindow c v s) = withHostWindow c v (putBits base p cs s) := by
  induction cs generalizing p s with
  | nil => rfl
  | cons b cs ih => exact ih (p + 1) (putBit base p b s)

theorem encoded_withHostWindow (e : CodeEntry) (s : State) :
    encoded e (withHostWindow c v s) = withHostWindow c v (encoded e s) :=
  congrArg (fun u : State =>
      complete (appendResults e { u with bitLen := BitVec.ofNat 32 (s.bitLen.toNat + e.len.toNat) }))
    (putBits_withHostWindow c v (pbase s) s.bitLen.toNat (codeBits e) s)

theorem decodeWalk_withHostWindow (left : Nat) (j : NodeIdx) (p : Nat) :
    decodeWalk (withHostWindow c v s) left j p = decodeWalk s left j p := by
  induction left generalizing j p with
  | zero => rfl
  | succ left ih =>
    simp only [decodeWalk, ih]
    rfl

theorem readArtifact_withHostWindow (len : Nat) :
    readArtifact (withHostWindow c v s) len = readArtifact s len := by
  rw [readArtifact, readArtifact, readEntries_header, readEntries_header]
  rfl

theorem decodeSingle_withHostWindow {x : Symbol} (h : decodeSingle x s = .next t) :
    decodeSingle x (withHostWindow c v s) = .next (withHostWindow c v t) := by
  cases hbit : payloadBit? s s.bitPos.toNat with
  | none => rw [decodeSingle, hbit] at h; cases h
  | some b =>
    cases b with
    | false => rw [decodeSingle_zero hbit] at h; cases h; exact decodeSingle_zero hbit
    | true => rw [decodeSingle_one hbit] at h; cases h; exact decodeSingle_one hbit

theorem decodeTree_withHostWindow (h : decodeTree s = .next t) :
    decodeTree (withHostWindow c v s) = .next (withHostWindow c v t) := by
  have hwalk := decodeWalk_withHostWindow c v (s := s) (s.bitLen.toNat - s.bitPos.toNat) (rootIdx s) s.bitPos.toNat
  cases hend : decodeWalk s (s.bitLen.toNat - s.bitPos.toNat) (rootIdx s) s.bitPos.toNat with
  | symbol x p => rw [decodeTree_symbol hend] at h; cases h; exact decodeTree_symbol (hwalk.trans hend)
  | exhausted => rw [decodeTree_exhausted hend] at h; cases h; exact decodeTree_exhausted (hwalk.trans hend)
  | absent a => rw [decodeTree, ← rootIdx, hend] at h; cases h

/-- DEC_SYM, by where its stream and its tree stand (`44_bit_unpacker.md` R190). -/
theorem exec_decSym_withHostWindow (h : exec .decSym s = .next t) :
    exec .decSym (withHostWindow c v s) = .next (withHostWindow c v t) := by
  by_cases hp : s.phase = .load
  · rw [exec_decSym_sequence hp] at h
    cases h
    exact exec_decSym_sequence hp
  by_cases hend : s.bitPos = s.bitLen
  · rw [exec_decSym_end hp hend] at h
    cases h
    exact exec_decSym_end hp hend
  cases hroot : nodeAt s.node (rootIdx s) with
  | leaf x w =>
    rw [exec_decSym_single hp hend hroot] at h
    exact (exec_decSym_single (s := withHostWindow c v s) hp hend hroot).trans (decodeSingle_withHostWindow c v h)
  | internal l r w =>
    have hi : IsInternal s.node (rootIdx s) := ⟨l, r, w, hroot⟩
    rw [exec_decSym_tree hp hend hi] at h
    exact (exec_decSym_tree (s := withHostWindow c v s) hp hend hi).trans (decodeTree_withHostWindow c v h)

/-- A command neither reads nor writes CTRL and ARG (`70_reset_and_hazards.md` R304). -/
theorem exec_withHostWindow (h : exec i s = .next t) :
    exec i (withHostWindow c v s) = .next (withHostWindow c v t) := by
  cases i with
  | nop => cases h; rfl
  | clear => cases h; rfl
  | errAck => cases h; rfl
  | freqAdd x =>
    rcases execFreqAdd_next h with ⟨hp, rfl⟩ | ⟨hp, h0, rfl⟩ | ⟨hp, h0, hover, rfl⟩ | ⟨hp, h0, hfit, rfl⟩
    · exact exec_freqAdd_sequence x hp
    · exact exec_freqAdd_zero x hp (countOperand_eq_zero_iff.1 h0)
    · exact exec_freqAdd_overflow x hp (countOperand_eq_zero_iff.not.1 h0) hover
    · exact exec_freqAdd_success x hp (countOperand_eq_zero_iff.not.1 h0) hfit
  | rdFreq x => cases h; rfl
  | build =>
    rcases execBuild_next h with ⟨hp, rfl⟩ | ⟨hp, h0, rfl⟩ | ⟨hp, h0, rfl⟩
    · exact exec_build_sequence hp
    · exact exec_build_empty hp h0
    · exact exec_build_success hp h0
  | rdNode idx =>
    rcases execRdNode_next h with ⟨hp, rfl⟩ | ⟨hp, hidx, rfl⟩ | ⟨hp, hidx, rfl⟩
    · exact exec_rdNode_sequence idx hp
    · exact exec_rdNode_operand idx hp hidx
    · exact (exec_rdNode_tree (s := withHostWindow c v s) idx hp).trans (if_neg (Nat.not_le.2 hidx))
  | genCodes =>
    rcases execGenCodes_next h with ⟨hp, rfl⟩ | ⟨hp, rfl⟩
    · exact exec_genCodes_sequence hp
    · exact exec_genCodes_success hp
  | rdCode x w =>
    rcases execRdCode_next h with ⟨hp, rfl⟩ | ⟨hp, rfl⟩
    · exact exec_rdCode_sequence x w hp
    · exact exec_rdCode_success x w hp
  | encSym x =>
    rcases execEncSym_next h with ⟨hp, rfl⟩ | ⟨hp, h0, rfl⟩ | ⟨hp, h0, hover, rfl⟩ | ⟨hp, h0, hfit, rfl⟩
    · exact exec_encSym_sequence x hp
    · exact exec_encSym_unknown x hp h0
    · exact exec_encSym_capacity x hp h0 hover
    · exact (exec_encSym_success (s := withHostWindow c v s) x hp h0 hfit).trans
        (congrArg _ (encoded_withHostWindow c v _ s))
  | strmRst => cases h; rfl
  | decSym => exact exec_decSym_withHostWindow c v h
  | rewind => cases h; rfl
  | wrHeader =>
    rcases execWrHeader_next h with ⟨hp, rfl⟩ | ⟨hp, rfl⟩
    · exact exec_wrHeader_sequence hp
    · exact exec_wrHeader_success hp
  | rdHeader =>
    have hread := readArtifact_withHostWindow c v (s := s) (lengthOperand s)
    rcases execRdHeader_next h with ⟨hover, rfl⟩ | ⟨hfit, sub, herror, rfl⟩ | ⟨hfit, es, l, hok, rfl⟩
    · exact exec_rdHeader_operand hover
    · exact exec_rdHeader_error (s := withHostWindow c v s) hfit (hread.trans herror)
    · exact exec_rdHeader_success (s := withHostWindow c v s) hfit (hread.trans hok)

/-- Nor does the completion of any other word (`60_exceptions.md` R254, `30_encoding.md` R97). -/
theorem execute_withHostWindow (h : execute s = .next t) :
    execute (withHostWindow c v s) = .next (withHostWindow c v t) := by
  rcases execute_next h with ⟨hd, rfl⟩ | ⟨hd, e, hword, rfl⟩ | ⟨hd, i, hword, hi⟩
  · exact if_pos hd
  · exact execute_of_error (s := withHostWindow c v s) hd hword
  · exact (execute_of_ok (s := withHostWindow c v s) hd hword).trans (exec_withHostWindow c v hi)

/-- The running command is not reached by the host's writes of CTRL and ARG (`70_reset_and_hazards.md` R304). -/
theorem engineTurn_withHostWindow (hb : s.busy = true) (h : engineTurn s = .next t) :
    engineTurn (withHostWindow c v s) = .next (withHostWindow c v t) := by
  rw [engineTurn_busy hb] at h
  exact (engineTurn_busy (s := withHostWindow c v s) hb).trans (execute_withHostWindow c v h)

end HostWindow

end Sys2Proof.Machine
end

section
/-! SUPPORT. Host accesses and reset (`70_reset_and_hazards.md`): what each register's write does while BUSY = 1
(R301, R303, R304), what its read returns (R302), and the values after reset (R290, R292). -/

namespace Sys2Proof.Machine

/-! ### Writes register by register (`70_reset_and_hazards.md` R300 to R304) -/

/-- A reserved offset holds no register (`10_state.md` R46). -/
theorem regOfAddr_reserved {a : Nat} (h1 : 0x04C ≤ a) (h2 : a < 0x1000) : regOfAddr (BitVec.ofNat 12 a) = none := by
  obtain ⟨n, hn⟩ := Nat.exists_eq_add_of_le' (Nat.div_le_div_right (c := 4) h1)
  rw [regOfAddr, BitVec.toNat_ofNat, Nat.mod_eq_of_lt h2, hn]
  rfl

/-- The registers whose writes are dropped with OVR while BUSY = 1 (`70_reset_and_hazards.md` R301, R303). -/
def droppedRegs : List Reg := [.cmd, .abufPtr, .abufData]

/-- The registers that no write changes (`10_state.md` R20). -/
def readOnlyRegs : List Reg :=
  [.id, .errInfo, .result0, .result1, .nsym, .total, .nnodes, .root, .bitLen, .bitPos, .pbase, .alen, .abufSize]

section Write

variable {addr : BitVec 12} {r : Reg} {s : State} (d : Word)

theorem busWrite_reserved (h : regOfAddr addr = none) : busWrite addr d s = s := by simp [busWrite, h]

theorem busWrite_readOnly (hr : r ∈ readOnlyRegs) (h : regOfAddr addr = some r) : busWrite addr d s = s := by
  fin_cases hr <;> simp [busWrite, h]

theorem busWrite_ctrl (h : regOfAddr addr = some .ctrl) :
    busWrite addr d s = { s with ctrl := d.extractLsb' 0 2 } := by
  rw [← BitVec.setWidth_eq_extractLsb' (by decide)]
  simp [busWrite, h]

theorem busWrite_arg (h : regOfAddr addr = some .arg) : busWrite addr d s = { s with arg := d } := by
  simp [busWrite, h]

theorem busWrite_status (h : regOfAddr addr = some .status) : busWrite addr d s = writeStatus d s := by
  simp [busWrite, h]

theorem busWrite_cmd (h : regOfAddr addr = some .cmd) : busWrite addr d s = unlessBusy s (accept d s) := by
  simp [busWrite, h]

theorem writeStatus_of_not_done (hdone : s.doneFlag = false) : writeStatus d s = s := by
  rw [writeStatus, hdone, Bool.false_and, ← hdone]

theorem busWrite_dropped (hr : r ∈ droppedRegs) (h : regOfAddr addr = some r)
    (hb : s.busy = true) : busWrite addr d s = setOverrun s := by
  fin_cases hr
  · rw [busWrite_cmd d h, unlessBusy_busy hb]
  · rw [busWrite_abufPtr h, unlessBusy_busy hb]
  · rw [busWrite_abufData h, unlessBusy_busy hb]

end Write

/-- Settles O47: each write by the register at its address; ARG by what the engine's turn does not read. -/
theorem writesWhileBusy : Obligations.WritesWhileBusy := by
  intro s d k hk hb hdone
  have reg : ∀ r : Reg, regOfAddr (BitVec.ofNat 12 ((regOffset r).toNat + k)) = some r :=
    fun r => regOfAddr_regOffset r hk
  have hctrl := busWrite_ctrl (s := s) d (reg .ctrl)
  have harg := busWrite_arg (s := s) d (reg .arg)
  refine ⟨?_, hctrl, ?_, harg, fun t ht => ?_, ?_, ?_, fun a h1 h2 => ?_⟩
  · intro off hoff
    obtain ⟨r, hr, rfl⟩ : ∃ r ∈ droppedRegs, (regOffset r).toNat = off := List.mem_map.1 hoff
    exact busWrite_dropped d hr (reg r) hb
  · refine (congrArg irq hctrl).trans ?_
    simp [irq, ieErr, hdone]
  · exact (congrArg engineTurn harg).trans (engineTurn_withHostWindow id (fun _ => d) hb ht)
  · exact (busWrite_status d (reg .status)).trans (writeStatus_of_not_done d hdone)
  · intro off hoff
    obtain ⟨r, hr, rfl⟩ : ∃ r ∈ readOnlyRegs, (regOffset r).toNat = off := List.mem_map.1 hoff
    exact busWrite_readOnly d hr (reg r)
  · exact busWrite_reserved d (regOfAddr_reserved h1 h2)

/-! ### Reads while busy (`70_reset_and_hazards.md` R302) -/

/-- The registers whose reads are defined at any time. -/
def definedRegs : List Reg := [.id, .ctrl, .status, .errInfo, .arg, .cmd, .abufPtr, .abufSize]

/-- The registers whose reads return any value while BUSY = 1. -/
def freeRegs : List Reg :=
  [.result0, .result1, .nsym, .total, .nnodes, .root, .bitLen, .bitPos, .pbase, .alen, .abufData]

theorem anyWhileBusy_of_mem_definedRegs : ∀ r ∈ definedRegs, anyWhileBusy r = false := by decide

theorem anyWhileBusy_of_mem_freeRegs : ∀ r ∈ freeRegs, anyWhileBusy r = true := by decide

section Read

variable {addr : BitVec 12} {r : Reg} {s : State}

theorem busRead_reserved (h : regOfAddr addr = none) : busRead addr s = { s with rdata := 0 } := by simp [busRead, h]

/-- A read that is defined at any time has no side effect: that is ABUF_DATA's alone. -/
theorem busRead_of_defined (hr : anyWhileBusy r = false) (h : regOfAddr addr = some r) :
    busRead addr s = { s with rdata := regValue s r } :=
  (busRead_defined h (.inr hr)).trans (if_neg fun hdata => by rw [hdata] at hr; cases hr)

theorem readsAs_of_defined (hr : anyWhileBusy r = false) {v : Word} (hv : regValue s r = v) :
    ReadsAs s (regOffset r).toNat v := fun k hk => by
  rw [busRead_of_defined hr (regOfAddr_regOffset r hk)]
  exact hv

end Read

/-- STATUS as a number (`10_state.md` R23). -/
theorem statusWord_eq_ofNat (s : State) :
    statusWord s = BitVec.ofNat 32 (s.phase.code.toNat * 16 + s.ovr.toNat * 8 + s.err.toNat * 4
      + s.doneFlag.toNat * 2 + s.busy.toNat) := by
  refine BitVec.eq_of_toNat_eq ?_
  simp only [statusWord_eq_concat, BitVec.toNat_concat, toNat_append_eq_add, BitVec.toNat_ofNat]
  have := s.phase.code.isLt
  have := s.ovr.toNat_le
  have := s.err.toNat_le
  have := s.doneFlag.toNat_le
  have := s.busy.toNat_le
  omega

/-- ERRINFO as a number (`10_state.md` R28). -/
theorem errInfoWord_eq_ofNat (e : ErrInfo) :
    errInfoWord e = BitVec.ofNat 32 (e.sub.toNat * 2 ^ 16 + e.opc.toNat * 2 ^ 8 + e.code.code.toNat) := by
  refine BitVec.eq_of_toNat_eq ?_
  simp only [errInfoWord, toNat_append_eq_add, BitVec.toNat_ofNat]
  omega

/-- Settles O50: the eight defined reads by their registers' values, the eleven others by `readAny`. -/
theorem readsWhileBusy : Obligations.ReadsWhileBusy := by
  intro s k hk hb hdone hptr
  have reg : ∀ r : Reg, regOfAddr (BitVec.ofNat 12 ((regOffset r).toNat + k)) = some r :=
    fun r => regOfAddr_regOffset r hk
  have hstatus : statusWord s =
      BitVec.ofNat 32 (s.phase.code.toNat * 16 + s.ovr.toNat * 8 + s.err.toNat * 4 + 1) := by
    rw [statusWord_eq_ofNat, hb, hdone]
    rfl
  refine ⟨readsAs_of_defined (r := .id) rfl rfl, readsAs_of_defined (r := .ctrl) rfl rfl,
    readsAs_of_defined (r := .arg) rfl rfl, readsAs_of_defined (r := .cmd) rfl rfl,
    readsAs_of_defined (r := .abufSize) rfl rfl,
    readsAs_of_defined (r := .abufPtr) rfl (congrArg (BitVec.ofNat 32) (ptrValue_of_lt hptr)),
    readsAs_of_defined (r := .status) rfl hstatus,
    readsAs_of_defined (r := .errInfo) rfl (errInfoWord_eq_ofNat s.errInfo), ?_, ?_, fun a h1 h2 => ?_⟩
  · intro off hoff
    obtain ⟨r, hr, rfl⟩ : ∃ r ∈ definedRegs, (regOffset r).toNat = off := List.mem_map.1 hoff
    exact ⟨_, busRead_of_defined (anyWhileBusy_of_mem_definedRegs r hr) (reg r)⟩
  · intro off hoff
    obtain ⟨r, hr, rfl⟩ : ∃ r ∈ freeRegs, (regOffset r).toNat = off := List.mem_map.1 hoff
    exact ⟨_, _, busRead_any (reg r) hb (anyWhileBusy_of_mem_freeRegs r hr)⟩
  · exact busRead_reserved (regOfAddr_reserved h1 h2)

/-! ### Reset (`70_reset_and_hazards.md` R290, R292) -/

/-- Settles O53: both reset states are `resetBlock`'s but for the counter of resets. -/
theorem resetEventGivesResetState : Obligations.ResetEventGivesResetState := by
  refine ⟨fun s => ⟨_, rfl, rfl⟩, fun t ht => ?_⟩
  obtain ⟨s, n, rfl⟩ : ∃ s n, t = { resetBlock s with resets := n } := by
    rcases ht with rfl | ⟨s, h⟩
    · exact ⟨State.reset, 0, rfl⟩
    · cases h
      exact ⟨s, s.resets + 1, rfl⟩
  have reads : ∀ (r : Reg) {v : Word}, regValue { resetBlock s with resets := n } r = v →
      ReadsAs { resetBlock s with resets := n } (regOffset r).toNat v := readsAs_of_idle rfl
  have hf : { resetBlock s with resets := n }.freq = zeroFreq := rfl
  have hirq : irq { resetBlock s with resets := n } = false := by simp [irq, resetBlock, State.reset]
  exact ⟨rfl, rfl, rfl, rfl, rfl, rfl, rfl, rfl, rfl, rfl, rfl, rfl, rfl, freqAt_zeroFreq, rfl, rfl, rfl, hirq,
    reads .id rfl,
    reads .nsym (congrArg (BitVec.ofNat 32) (nsym_eq_zero hf)),
    reads .total (congrArg (BitVec.ofNat 32) (total_eq_zero hf)),
    reads .nnodes (congrArg (BitVec.ofNat 32) (nnodes_of_load rfl)),
    reads .root (congrArg (BitVec.ofNat 32) (root_of_load rfl)),
    reads .pbase (congrArg (BitVec.ofNat 32) (pbase_eq_six hf)),
    reads .alen (congrArg (BitVec.ofNat 32) (alen_eq_six hf rfl)), reads .abufSize rfl⟩

end Sys2Proof.Machine
end

section
/-! SUPPORT. Decoding and encoding are inverse to each other (`30_encoding.md` R90 to R99), the opcode map's rows by
match and mask (R96), and the step that runs a decoded command. -/

namespace Sys2Proof

/-! ### A word as its opcode above its operand bits (`30_encoding.md` R90) -/

/-- Bits 23:0 of a word. -/
def operandField (w : Word) : BitVec 24 := w.extractLsb' 0 24

theorem opcField_append (c : BitVec 8) (o : BitVec 24) : opcField (c ++ o) = c :=
  BitVec.extractLsb'_append_eq_left

theorem operandField_append (c : BitVec 8) (o : BitVec 24) : operandField (c ++ o) = o :=
  BitVec.extractLsb'_append_eq_right

theorem opcField_append_operandField (w : Word) : opcField w ++ operandField w = w := by
  refine BitVec.eq_of_toNat_eq ?_
  rw [Machine.toNat_append_eq_add, opcField_toNat, operandField, BitVec.extractLsb'_toNat]
  exact Nat.div_add_mod' ..

/-- A word is fixed by its opcode and its operand bits. -/
theorem word_eq_append_iff {w : Word} {c : BitVec 8} {o : BitVec 24} :
    c ++ o = w ↔ c = opcField w ∧ o = operandField w := by
  constructor
  · rintro rfl
    exact ⟨(opcField_append c o).symm, (operandField_append c o).symm⟩
  · rintro ⟨rfl, rfl⟩
    exact opcField_append_operandField w

/-- The fields below bit 24 are fields of the operand bits. -/
theorem extractLsb'_operandField (w : Word) {start len : Nat} (h : start + len ≤ 24) :
    (operandField w).extractLsb' start len = w.extractLsb' start len := by
  rw [operandField, BitVec.extractLsb'_extractLsb'_of_le h]

/-! ### Decoding (`30_encoding.md` R97) -/

theorem decode_eq_ok_iff {w : Word} {i : Instr} :
    decode w = .ok i ↔ ∃ op : Opcode, op.code = opcField w ∧ reservedClear op.format w = true ∧ op.toInstr w = i := by
  simp only [← Opcode.ofCode_eq_some_iff]
  rw [decode]
  split
  · simp [*]
  · split <;> simp [*]

theorem opcode_toInstr (op : Opcode) (w : Word) : (op.toInstr w).opcode = op := by cases op <;> rfl

/-! ### Operand fields (`30_encoding.md` R91 to R95) -/

section Fields

variable {w : Word}

/-- Zero bits above the low k ones, as an append. -/
theorem zero_append_extractLsb' {k m : Nat} (h : w.extractLsb' k m = 0#m) :
    0#m ++ w.extractLsb' 0 k = w.extractLsb' 0 (m + k) := by
  rw [← h]
  exact BitVec.extractLsb'_append_extractLsb'_eq_extractLsb' (Nat.zero_add k).symm

theorem operandField_of_n (h : reservedClear .n w = true) : 0#24 = operandField w := (beq_iff_eq.1 h).symm

theorem operandField_of_s (h : reservedClear .s w = true) : 0#16 ++ symField w = operandField w :=
  zero_append_extractLsb' (beq_iff_eq.1 h)

theorem operandField_of_sw (h : reservedClear .sw w = true) : 0#13 ++ wField w ++ symField w = operandField w := by
  have hlow : wField w ++ symField w = w.extractLsb' 0 11 :=
    BitVec.extractLsb'_append_extractLsb'_eq_extractLsb' (Nat.zero_add 8).symm
  refine BitVec.append_assoc.trans ?_
  rw [hlow]
  exact zero_append_extractLsb' (beq_iff_eq.1 h)

theorem operandField_of_i (h : reservedClear .i w = true) : 0#15 ++ idxField w = operandField w :=
  zero_append_extractLsb' (beq_iff_eq.1 h)

/-- The command of a word has the word's operand bits, if the reserved ones are zero. -/
theorem operandBits_toInstr {op : Opcode} (h : reservedClear op.format w = true) :
    (op.toInstr w).operandBits = operandField w := by
  cases op with
  | nop | clear | errAck | build | genCodes | strmRst | decSym | rewind | wrHeader | rdHeader =>
    exact operandField_of_n h
  | freqAdd | rdFreq | encSym => exact operandField_of_s h
  | rdCode => exact operandField_of_sw h
  | rdNode => exact operandField_of_i h

end Fields
/-! ### Encoding and decoding are inverse to each other -/

/-- A word of an opcode, reserved bits zero, is its command's word (`30_encoding.md` R97). -/
theorem encode_toInstr {op : Opcode} {w : Word} (hop : op.code = opcField w) (h : reservedClear op.format w = true) :
    encode (op.toInstr w) = w :=
  word_eq_append_iff.2 ⟨by rw [opcode_toInstr, hop], operandBits_toInstr h⟩

/-- Settles O3: a word that decodes is its opcode above the operand bits of its command. -/
theorem decodeThenEncodeGivesWord : Obligations.DecodeThenEncodeGivesWord := by
  intro w i h
  obtain ⟨op, hop, hreserved, rfl⟩ := decode_eq_ok_iff.1 h
  exact encode_toInstr hop hreserved

/-- A command's word as its row's match value over its operand bits (`30_encoding.md` R96). -/
theorem encode_eq_or (i : Instr) : encode i = i.opcode.matchValue ||| i.operandBits.setWidth 32 := by
  have hwide : i.operandBits.setWidth 32 = 0#8 ++ i.operandBits := BitVec.setWidth_eq_append (by decide)
  rw [hwide, Opcode.matchValue, BitVec.or_append, BitVec.or_zero, BitVec.zero_or, encode]

theorem setWidth_zero_append {m k n : Nat} (x : BitVec k) : (0#m ++ x).setWidth n = x.setWidth n := by
  refine BitVec.eq_of_toNat_eq ?_
  simp

/-- Settles O2: the word of a command is the word that the earlier laws decode, format by format. -/
theorem encodeThenDecodeGivesCommand : Obligations.EncodeThenDecodeGivesCommand := by
  intro i
  cases i with
  | nop | clear | errAck | build | genCodes | strmRst | decSym | rewind | wrHeader | rdHeader => rfl
  | freqAdd x =>
    rw [encode_eq_or, Instr.operandBits, setWidth_zero_append]
    exact decode_formatS (op := .freqAdd) rfl fun _ => congrArg Instr.freqAdd
  | rdFreq x =>
    rw [encode_eq_or, Instr.operandBits, setWidth_zero_append]
    exact decode_formatS (op := .rdFreq) rfl fun _ => congrArg Instr.rdFreq
  | encSym x =>
    rw [encode_eq_or, Instr.operandBits, setWidth_zero_append]
    exact decode_formatS (op := .encSym) rfl fun _ => congrArg Instr.encSym
  | rdNode idx =>
    rw [encode_eq_or, Instr.operandBits, setWidth_zero_append]
    exact decode_rdNode idx
  | rdCode x w =>
    rw [encode_eq_or, Instr.operandBits, BitVec.setWidth_append_eq_shiftLeft_setWidth_or, setWidth_zero_append,
      ← BitVec.or_assoc]
    exact decode_rdCode x w

/-! ### The rows of the opcode map (`30_encoding.md` R96) -/

/-- The high m bits of m + k bits are zero exactly when they are zero under their mask. -/
theorem extractLsb'_and_highMask {n k m : Nat} (w : BitVec n) :
    w.extractLsb' 0 (m + k) &&& (BitVec.allOnes m ++ 0#k) = 0 ↔ w.extractLsb' k m = 0 := by
  rw [← BitVec.extractLsb'_append_extractLsb'_eq_extractLsb' (Nat.zero_add k).symm, BitVec.and_append,
    BitVec.and_allOnes, BitVec.and_zero, ← BitVec.toNat_inj, ← BitVec.toNat_inj, Machine.toNat_append_eq_add]
  simp

/-- The must-be-zero bits of a format among bits 23:0 (`30_encoding.md` R91 to R94). -/
def Format.reservedMask : Format → BitVec 24
  | .n => BitVec.allOnes 24
  | .s => BitVec.allOnes 16 ++ 0#8
  | .sw => BitVec.allOnes 13 ++ 0#11
  | .i => BitVec.allOnes 15 ++ 0#9

theorem Opcode.maskValue_eq_append (op : Opcode) :
    op.maskValue = (BitVec.allOnes 8 ++ op.format.reservedMask : BitVec 32) := by
  cases op <;> rfl

theorem reservedClear_iff_and_reservedMask (f : Format) (w : Word) :
    reservedClear f w = true ↔ operandField w &&& f.reservedMask = 0 := by
  cases f with
  | n => exact beq_iff_eq.trans (by rw [Format.reservedMask, BitVec.and_allOnes, operandField])
  | s => exact beq_iff_eq.trans (extractLsb'_and_highMask (k := 8) (m := 16) w).symm
  | sw => exact beq_iff_eq.trans (extractLsb'_and_highMask (k := 11) (m := 13) w).symm
  | i => exact beq_iff_eq.trans (extractLsb'_and_highMask (k := 9) (m := 15) w).symm

/-- A word meets an opcode's row exactly when it decodes to a command of that opcode. -/
theorem meets_row_iff (op : Opcode) (w : Word) :
    w &&& op.maskValue = op.matchValue ↔ ∃ i, decode w = .ok i ∧ i.opcode = op := by
  have hmasked : w &&& op.maskValue = opcField w ++ (operandField w &&& op.format.reservedMask) := by
    conv_lhs => rw [← opcField_append_operandField w]
    rw [op.maskValue_eq_append, BitVec.and_append, BitVec.and_allOnes]
  rw [hmasked, eq_comm, Opcode.matchValue, word_eq_append_iff, opcField_append, operandField_append]
  constructor
  · rintro ⟨hop, hbits⟩
    exact ⟨_, decode_eq_ok_iff.2 ⟨op, hop, (reservedClear_iff_and_reservedMask _ w).2 hbits.symm, rfl⟩,
      opcode_toInstr op w⟩
  · rintro ⟨i, hi, rfl⟩
    obtain ⟨op, hop, hreserved, rfl⟩ := decode_eq_ok_iff.1 hi
    rw [opcode_toInstr]
    exact ⟨hop, ((reservedClear_iff_and_reservedMask _ w).1 hreserved).symm⟩

/-- Settles O4: the statement's rows are the opcodes' match and mask values, and a word decodes to one command. -/
theorem rowMatchesExactlyItsCommand : Obligations.RowMatchesExactlyItsCommand := by
  unfold Obligations.RowMatchesExactlyItsCommand
  intro rows
  have hrows : rows = Opcode.all.map fun op => (op, op.matchValue, op.maskValue) := by decide
  have hrow : ∀ row ∈ rows, ∃ op : Opcode, (op, op.matchValue, op.maskValue) = row := fun row hmem => by
    obtain ⟨op, -, hop⟩ := List.mem_map.1 (hrows ▸ hmem)
    exact ⟨op, hop⟩
  refine ⟨fun w row hmem => ?_, fun w r hr q hq hwr hwq => ?_⟩
  · obtain ⟨op, rfl⟩ := hrow row hmem
    exact meets_row_iff op w
  · obtain ⟨op, rfl⟩ := hrow r hr
    obtain ⟨op', rfl⟩ := hrow q hq
    obtain ⟨i, hi, rfl⟩ := (meets_row_iff op w).1 hwr
    obtain ⟨j, hj, rfl⟩ := (meets_row_iff op' w).1 hwq
    cases hi.symm.trans hj
    rfl

theorem Opcode.format_eq_sw_iff {op : Opcode} : op.format = .sw ↔ op = .rdCode := by cases op <;> decide

theorem Opcode.format_eq_i_iff {op : Opcode} : op.format = .i ↔ op = .rdNode := by cases op <;> decide

/-- Settles O5: the statement's lists are the codes of the formats, whose reserved fields are the statement's. -/
theorem decodeRejectsReserved : Obligations.DecodeRejectsReserved := by
  unfold Obligations.DecodeRejectsReserved
  intro formatN formatS defined
  have hN : formatN = Format.n.codes := rfl
  have hS : formatS = Format.s.codes := rfl
  have hdefined : defined = Format.n.codes ++ Format.s.codes ++ (Format.sw.codes ++ Format.i.codes) := rfl
  refine ⟨fun w => ?_, fun w => ?_⟩
  · rw [decode_eq_reservedOpcode_iff, hdefined, Format.mem_codes_append, not_exists]
  · rw [decode_eq_reservedBits_iff, hN, hS, Format.mem_codes, Format.mem_codes]
    constructor
    · rintro ⟨op, hop, hbits⟩
      cases hf : op.format with rw [hf] at hbits
      | n => exact .inl ⟨⟨op, hf, hop⟩, hbits⟩
      | s => exact .inr (.inl ⟨⟨op, hf, hop⟩, hbits⟩)
      | sw =>
        obtain rfl := Opcode.format_eq_sw_iff.1 hf
        exact .inr (.inr (.inl ⟨hop.symm, hbits⟩))
      | i =>
        obtain rfl := Opcode.format_eq_i_iff.1 hf
        exact .inr (.inr (.inr ⟨hop.symm, hbits⟩))
    · rintro (⟨⟨op, hf, hop⟩, hbits⟩ | ⟨⟨op, hf, hop⟩, hbits⟩ | ⟨hop, hbits⟩ | ⟨hop, hbits⟩)
      · exact ⟨op, hop, hf ▸ hbits⟩
      · exact ⟨op, hop, hf ▸ hbits⟩
      · exact ⟨.rdCode, hop.symm, hbits⟩
      · exact ⟨.rdNode, hop.symm, hbits⟩

/-- Settles O1: each word, one for each family, decodes by evaluation. -/
theorem tableWordsDecode : Obligations.TableWordsDecode := by
  unfold Obligations.TableWordsDecode
  decide

end Sys2Proof

namespace Sys2Proof.Machine

/-! ### The step that runs a decoded command (`70_reset_and_hazards.md` R297, R300) -/

section RunsDecoded

variable {s : State} {i : Instr}

/-- CLEAR and ERR_ACK are the commands that an unacknowledged error spares (`60_exceptions.md` R254). -/
theorem discarded_eq_false (hd : decode s.cmdLat = .ok i) (h : s.err = false ∨ i = .clear ∨ i = .errAck) :
    discarded s = false := by
  have hword := decodeThenEncodeGivesWord _ _ hd
  rcases h with herr | rfl | rfl
  · rw [discarded, herr, Bool.false_and]
  · rw [discarded, ← hword, show runsUnderError (encode .clear) = true from rfl, Bool.not_true, Bool.and_false]
  · rw [discarded, ← hword, show runsUnderError (encode .errAck) = true from rfl, Bool.not_true, Bool.and_false]

theorem engineTurn_of_ok (hb : s.busy = true) (hdisc : discarded s = false) (hd : decode s.cmdLat = .ok i) :
    engineTurn s = exec i s :=
  (engineTurn_busy hb).trans (execute_of_ok hdisc hd)

/-- A placed word is not discarded: an error that would discard it has been acknowledged (assumption log 7). -/
theorem discarded_placeWord (w : Word) (s : State) : discarded (placeWord w s) = false := by
  cases herr : s.err <;> cases hw : runsUnderError w <;> simp [discarded, placeWord, accept, herr, hw]

end RunsDecoded

/-- Settles O7: the step is the engine's turn, which runs the word it does not discard. -/
theorem stepRunsDecodedCommand : Obligations.StepRunsDecodedCommand := by
  intro s i hb hd h
  refine ⟨fun hp => ?_, fun rest hp => ?_⟩
  · rw [step_nil hp]
    exact engineTurn_of_ok hb (discarded_eq_false hd h) hd
  · rw [step_cons hp]
    exact engineTurn_of_ok (s := { s with pending := rest }) hb
      (discarded_eq_false (s := { s with pending := rest }) hd h) hd

/-- Settles O8: the placed word is accepted, not discarded, and decodes to its command (O2). -/
theorem placedWordRunsNext : Obligations.PlacedWordRunsNext := by
  intro s i hp
  have hword : BitVec.ofNat 32 ((encode i).toNat % 2 ^ 32) = encode i := by
    rw [Nat.mod_eq_of_lt (encode i).isLt, BitVec.ofNat_toNat, BitVec.setWidth_eq]
  rw [State.withFetchWord, hword]
  have hpending : (placeWord (encode i) s).pending = [] := by simp [placeWord, hp]
  rw [step_nil hpending]
  exact engineTurn_of_ok rfl (discarded_placeWord (encode i) s) (encodeThenDecodeGivesCommand i)

end Sys2Proof.Machine
end

section
/-! SUPPORT. What every command keeps: it completes where the payload bytes it needs exist (`70_reset_and_hazards.md`
R300, R307), each piece of state has its writers (`10_state.md` R26 to R42), and the words that a command does not
read (`30_encoding.md` R101, `70_reset_and_hazards.md` R304). -/

namespace Sys2Proof.Machine

/-! ### Completion (`70_reset_and_hazards.md` R300) -/

section Completion

variable {s t : State} {i : Instr}

theorem completed_complete (s : State) : Completed (complete s) := ⟨rfl, rfl⟩

theorem completed_raise (opc : Byte) (e : ErrorCode) (sub : Byte) (s : State) : Completed (raise opc e sub s) :=
  completed_complete _

/-- Every next state that a command answers is one in which it has completed. -/
theorem exec_completed (h : exec i s = .next t) : Completed t := by
  cases i with
  | nop => exact execNop_next h ▸ completed_complete _
  | clear => exact execClear_next h ▸ completed_complete _
  | errAck => exact execErrAck_next h ▸ completed_complete _
  | freqAdd x =>
    rcases execFreqAdd_next h with ⟨-, rfl⟩ | ⟨-, -, rfl⟩ | ⟨-, -, -, rfl⟩ | ⟨-, -, -, rfl⟩ <;> exact ⟨rfl, rfl⟩
  | rdFreq x => exact execRdFreq_next h ▸ completed_complete _
  | build => rcases execBuild_next h with ⟨-, rfl⟩ | ⟨-, -, rfl⟩ | ⟨-, -, rfl⟩ <;> exact ⟨rfl, rfl⟩
  | rdNode idx => rcases execRdNode_next h with ⟨-, rfl⟩ | ⟨-, -, rfl⟩ | ⟨-, -, rfl⟩ <;> exact ⟨rfl, rfl⟩
  | genCodes => rcases execGenCodes_next h with ⟨-, rfl⟩ | ⟨-, rfl⟩ <;> exact ⟨rfl, rfl⟩
  | rdCode x w => rcases execRdCode_next h with ⟨-, rfl⟩ | ⟨-, rfl⟩ <;> exact ⟨rfl, rfl⟩
  | encSym x =>
    rcases execEncSym_next h with ⟨-, rfl⟩ | ⟨-, -, rfl⟩ | ⟨-, -, -, rfl⟩ | ⟨-, -, -, rfl⟩ <;> exact ⟨rfl, rfl⟩
  | strmRst => exact execStrmRst_next h ▸ completed_complete _
  | decSym =>
    rcases execDecSym_next h with ⟨-, rfl⟩ | ⟨-, -, rfl⟩ | ⟨-, -, rfl | rfl | ⟨x, p, -, -, rfl⟩⟩ <;> exact ⟨rfl, rfl⟩
  | rewind => exact execRewind_next h ▸ completed_complete _
  | wrHeader => rcases execWrHeader_next h with ⟨-, rfl⟩ | ⟨-, rfl⟩ <;> exact ⟨rfl, rfl⟩
  | rdHeader => rcases execRdHeader_next h with ⟨-, rfl⟩ | ⟨-, _, -, rfl⟩ | ⟨-, _, _, -, rfl⟩ <;> exact ⟨rfl, rfl⟩

theorem checkPhase_goes {op : Opcode} {body : Out} (h : Goes body) : Goes (checkPhase op s body) := by
  unfold checkPhase
  split
  · exact h
  · exact ⟨_, rfl⟩

theorem goes_ite {p : Prop} [Decidable p] {a : State} {o : Out} (h : Goes o) : Goes (if p then .next a else o) := by
  split
  · exact ⟨_, rfl⟩
  · exact h

section Stream

variable (hcursor : s.bitPos.toNat ≤ s.bitLen.toNat) (hfit : alen s ≤ s.cfg.abufBytes)
include hcursor hfit

/-- DEC_SYM stops at no payload byte: under INV4 and INV5 each bit below BITLEN has one (`20_memory.md` R69). -/
theorem exec_decSym_goes : Goes (exec .decSym s) := by
  by_cases hp : s.phase = .load
  · exact ⟨_, exec_decSym_sequence hp⟩
  by_cases hend : s.bitPos = s.bitLen
  · exact ⟨_, exec_decSym_end hp hend⟩
  cases hroot : nodeAt s.node (rootIdx s) with
  | leaf x w =>
    have hbit := payloadBit?_of_lt_bitLen hfit (bitPos_lt_bitLen hcursor hend)
    rw [exec_decSym_single hp hend hroot]
    cases hb : payloadBit s s.bitPos.toNat with
    | false => exact ⟨_, decodeSingle_zero (hb ▸ hbit)⟩
    | true => exact ⟨_, decodeSingle_one (hb ▸ hbit)⟩
  | internal l r w =>
    rw [exec_decSym_tree hp hend ⟨l, r, w, hroot⟩]
    cases hwalk : decodeWalk s (s.bitLen.toNat - s.bitPos.toNat) (rootIdx s) s.bitPos.toNat with
    | symbol x p => exact ⟨_, decodeTree_symbol hwalk⟩
    | exhausted => exact ⟨_, decodeTree_exhausted hwalk⟩
    | absent a =>
      obtain ⟨q, -, hq, rfl, habsent⟩ := (decodeWalk_end s _ _ _).2 a hwalk
      have hbit := payloadBit?_of_lt_bitLen hfit (q := q) (by omega)
      rw [payloadBit?, if_neg (Nat.not_lt.2 habsent)] at hbit
      cases hbit

/-- Every command answers a next state. -/
theorem exec_goes (i : Instr) : Goes (exec i s) := by
  cases i with
  | nop | clear | errAck | rdFreq | strmRst | rewind => exact ⟨_, rfl⟩
  | genCodes | rdCode | wrHeader => exact checkPhase_goes ⟨_, rfl⟩
  | build | rdNode => exact checkPhase_goes (goes_ite ⟨_, rfl⟩)
  | freqAdd | encSym => exact checkPhase_goes (goes_ite (goes_ite ⟨_, rfl⟩))
  | decSym => exact exec_decSym_goes hcursor hfit
  | rdHeader =>
    refine goes_ite ?_
    split <;> exact ⟨_, rfl⟩

end Stream

end Completion

/-- Settles O13: DEC_SYM alone could stop, and under INV4 and INV5 it does not. -/
theorem everyCommandCompletes : Obligations.EveryCommandCompletes := by
  intro i s hcursor hfit
  obtain ⟨t, h⟩ := exec_goes hcursor hfit i
  exact ⟨t, h, exec_completed h, exec_sameHostSide h⟩

/-! ### The writers of each piece of state (`10_state.md` R26 to R42, `20_memory.md` R60) -/

section Writers

/-- The data that some command writes are the same in both states. -/
structure SameData (s t : State) : Prop where
  freq : t.freq = s.freq
  node : t.node = s.node
  code : t.code = s.code
  abuf : t.abuf = s.abuf
  bitLen : t.bitLen = s.bitLen
  bitPos : t.bitPos = s.bitPos
  ovr : t.ovr = s.ovr
  phase : t.phase = s.phase

theorem SameData.raise (opc : Byte) (e : ErrorCode) (sub : Byte) (s : State) : SameData s (raise opc e sub s) :=
  ⟨rfl, rfl, rfl, rfl, rfl, rfl, rfl, rfl⟩

/-- What differs is among what the command is said to write. -/
structure WritesOnly (i : Instr) (s t : State) : Prop where
  freq : t.freq ≠ s.freq → (∃ x, i = .freqAdd x) ∨ i = .rdHeader ∨ i = .clear
  node : t.node ≠ s.node → i = .build
  code : t.code ≠ s.code → i = .genCodes
  abuf : t.abuf ≠ s.abuf → (∃ x, i = .encSym x) ∨ i = .wrHeader
  bitLen : t.bitLen ≠ s.bitLen →
    (∃ x, i = .encSym x) ∨ i = .rdHeader ∨ (∃ x, i = .freqAdd x) ∨ i = .strmRst ∨ i = .clear
  bitPos : t.bitPos ≠ s.bitPos →
    i = .decSym ∨ i = .rewind ∨ i = .rdHeader ∨ (∃ x, i = .freqAdd x) ∨ i = .strmRst ∨ i = .clear
  ovr : t.ovr ≠ s.ovr → i = .errAck ∨ i = .clear
  phase : t.phase ≠ s.phase → i = .build ∨ i = .genCodes ∨ i = .rdHeader ∨ i = .clear

variable {i : Instr} {s t : State}

theorem SameData.writesOnly (h : SameData s t) : WritesOnly i s t where
  freq := absurd h.freq
  node := absurd h.node
  code := absurd h.code
  abuf := absurd h.abuf
  bitLen := absurd h.bitLen
  bitPos := absurd h.bitPos
  ovr := absurd h.ovr
  phase := absurd h.phase

theorem writesOnly_raise (opc : Byte) (e : ErrorCode) (sub : Byte) : WritesOnly i s (raise opc e sub s) :=
  (SameData.raise opc e sub s).writesOnly

/-- A command writes only what is its to write. -/
theorem exec_writesOnly (h : exec i s = .next t) : WritesOnly i s t := by
  have unchanged {i : Instr} {s t : State} : SameData s t → WritesOnly i s t := SameData.writesOnly
  cases i with
  | nop => rw [execNop_next h]; exact unchanged ⟨rfl, rfl, rfl, rfl, rfl, rfl, rfl, rfl⟩
  | clear =>
    rw [execClear_next h]
    exact ⟨fun _ => .inr (.inr rfl), absurd rfl, absurd rfl, absurd rfl, fun _ => .inr (.inr (.inr (.inr rfl))),
      fun _ => .inr (.inr (.inr (.inr (.inr rfl)))), fun _ => .inr rfl, fun _ => .inr (.inr (.inr rfl))⟩
  | errAck =>
    rw [execErrAck_next h]
    exact ⟨absurd rfl, absurd rfl, absurd rfl, absurd rfl, absurd rfl, absurd rfl, fun _ => .inl rfl, absurd rfl⟩
  | freqAdd x =>
    rcases execFreqAdd_next h with ⟨-, rfl⟩ | ⟨-, -, rfl⟩ | ⟨-, -, -, rfl⟩ | ⟨-, -, -, rfl⟩
    · exact writesOnly_raise ..
    · exact writesOnly_raise ..
    · exact writesOnly_raise ..
    · exact ⟨fun _ => .inl ⟨x, rfl⟩, absurd rfl, absurd rfl, absurd rfl, fun _ => .inr (.inr (.inl ⟨x, rfl⟩)),
        fun _ => .inr (.inr (.inr (.inl ⟨x, rfl⟩))), absurd rfl, absurd rfl⟩
  | rdFreq x => rw [execRdFreq_next h]; exact unchanged ⟨rfl, rfl, rfl, rfl, rfl, rfl, rfl, rfl⟩
  | build =>
    rcases execBuild_next h with ⟨-, rfl⟩ | ⟨-, -, rfl⟩ | ⟨-, -, rfl⟩
    · exact writesOnly_raise ..
    · exact writesOnly_raise ..
    · exact ⟨absurd rfl, fun _ => rfl, absurd rfl, absurd rfl, absurd rfl, absurd rfl, absurd rfl, fun _ => .inl rfl⟩
  | rdNode idx =>
    rcases execRdNode_next h with ⟨-, rfl⟩ | ⟨-, -, rfl⟩ | ⟨-, -, rfl⟩
    · exact writesOnly_raise ..
    · exact writesOnly_raise ..
    · exact unchanged ⟨rfl, rfl, rfl, rfl, rfl, rfl, rfl, rfl⟩
  | genCodes =>
    rcases execGenCodes_next h with ⟨-, rfl⟩ | ⟨-, rfl⟩
    · exact writesOnly_raise ..
    · exact ⟨absurd rfl, absurd rfl, fun _ => rfl, absurd rfl, absurd rfl, absurd rfl, absurd rfl,
        fun _ => .inr (.inl rfl)⟩
  | rdCode x w =>
    rcases execRdCode_next h with ⟨-, rfl⟩ | ⟨-, rfl⟩
    · exact writesOnly_raise ..
    · exact unchanged ⟨rfl, rfl, rfl, rfl, rfl, rfl, rfl, rfl⟩
  | encSym x =>
    rcases execEncSym_next h with ⟨-, rfl⟩ | ⟨-, -, rfl⟩ | ⟨-, -, -, rfl⟩ | ⟨-, -, -, rfl⟩
    · exact writesOnly_raise ..
    · exact writesOnly_raise ..
    · exact writesOnly_raise ..
    · obtain ⟨hfreq, hnode, hcode, hphase⟩ := encoded_sameTables (codeAt s.code x) s
      obtain ⟨-, hovr, -⟩ := encoded_sameErrors (codeAt s.code x) s
      exact ⟨absurd hfreq, absurd hnode, absurd hcode, fun _ => .inl ⟨x, rfl⟩, fun _ => .inl ⟨x, rfl⟩,
        absurd (encoded_bitPos _ s), absurd hovr, absurd hphase⟩
  | strmRst =>
    rw [execStrmRst_next h]
    exact ⟨absurd rfl, absurd rfl, absurd rfl, absurd rfl, fun _ => .inr (.inr (.inr (.inl rfl))),
      fun _ => .inr (.inr (.inr (.inr (.inl rfl)))), absurd rfl, absurd rfl⟩
  | decSym =>
    rcases execDecSym_next h with ⟨-, rfl⟩ | ⟨-, -, rfl⟩ | ⟨-, -, rfl | rfl | ⟨x, p, -, -, rfl⟩⟩
    · exact writesOnly_raise ..
    · exact unchanged ⟨rfl, rfl, rfl, rfl, rfl, rfl, rfl, rfl⟩
    · exact writesOnly_raise ..
    · exact writesOnly_raise ..
    · exact ⟨absurd rfl, absurd rfl, absurd rfl, absurd rfl, absurd rfl, fun _ => .inl rfl, absurd rfl, absurd rfl⟩
  | rewind =>
    rw [execRewind_next h]
    exact ⟨absurd rfl, absurd rfl, absurd rfl, absurd rfl, absurd rfl, fun _ => .inr (.inl rfl), absurd rfl,
      absurd rfl⟩
  | wrHeader =>
    rcases execWrHeader_next h with ⟨-, rfl⟩ | ⟨-, rfl⟩
    · exact writesOnly_raise ..
    · exact ⟨absurd rfl, absurd rfl, absurd rfl, fun _ => .inr rfl, absurd rfl, absurd rfl, absurd rfl, absurd rfl⟩
  | rdHeader =>
    rcases execRdHeader_next h with ⟨-, rfl⟩ | ⟨-, _, -, rfl⟩ | ⟨-, _, _, -, rfl⟩
    · exact writesOnly_raise ..
    · exact writesOnly_raise ..
    · exact ⟨fun _ => .inr (.inl rfl), absurd rfl, absurd rfl, absurd rfl, fun _ => .inr (.inl rfl),
        fun _ => .inr (.inr (.inl rfl)), absurd rfl, fun _ => .inr (.inr (.inl rfl))⟩

end Writers

/-- Settles O14: each command by what each of its outcomes leaves as it was. -/
theorem eachTableHasItsWriters : Obligations.EachTableHasItsWriters := by
  intro i s t h
  have hw := exec_writesOnly h
  exact ⟨hw.freq, hw.node, hw.code, hw.abuf, hw.bitLen, hw.bitPos, hw.ovr, hw.phase⟩

/-! ### Words a command does not read (`30_encoding.md` R101, `70_reset_and_hazards.md` R304) -/

section Ports

/-- An outcome with its next state changed. -/
def mapNext (g : State → State) : Out → Out
  | .next t => .next (g t)
  | .fault f => .fault f
  | .refused r => .refused r

/-- ARG_LAT and the word on the read port replaced. -/
def withPorts (a r : Word) (s : State) : State := { s with argLat := a, rdata := r }

variable (a r : Word) {s : State} {i : Instr}

theorem checkPhase_withPorts {op : Opcode} {body body' : Out} (h : body' = mapNext (withPorts a r) body) :
    checkPhase op (withPorts a r s) body' = mapNext (withPorts a r) (checkPhase op s body) := by
  rw [checkPhase, checkPhase, h, apply_ite (mapNext (withPorts a r))]
  rfl

theorem ite_withPorts {p p' : Prop} [Decidable p] [Decidable p'] {t t' : State} {o o' : Out} (hp : p' ↔ p)
    (ht : t' = withPorts a r t) (ho : o' = mapNext (withPorts a r) o) :
    (if p' then .next t' else o') = mapNext (withPorts a r) (if p then .next t else o) := by
  rw [apply_ite (mapNext (withPorts a r))]
  exact if_congr hp (congrArg _ ht) ho

theorem putBits_withPorts (base p : Nat) (cs : List Bool) (s : State) :
    putBits base p cs (withPorts a r s) = withPorts a r (putBits base p cs s) := by
  induction cs generalizing p s with
  | nil => rfl
  | cons b cs ih => exact ih (p + 1) (putBit base p b s)

theorem decodeWalk_withPorts (left : Nat) (j : NodeIdx) (p : Nat) :
    decodeWalk (withPorts a r s) left j p = decodeWalk s left j p := by
  induction left generalizing j p with
  | zero => rfl
  | succ left ih =>
    simp only [decodeWalk, ih]
    rfl

theorem decodeSingle_withPorts (x : Symbol) :
    decodeSingle x (withPorts a r s) = mapNext (withPorts a r) (decodeSingle x s) := by
  have hbit : payloadBit? (withPorts a r s) (withPorts a r s).bitPos.toNat = payloadBit? s s.bitPos.toNat := rfl
  rw [decodeSingle, decodeSingle, hbit]
  cases payloadBit? s s.bitPos.toNat with
  | none => rfl
  | some b => cases b <;> rfl

theorem decodeTree_withPorts : decodeTree (withPorts a r s) = mapNext (withPorts a r) (decodeTree s) := by
  have hroot : nodeIdx (root (withPorts a r s)) = nodeIdx (root s) := rfl
  have hlen : (withPorts a r s).bitLen = s.bitLen := rfl
  have hpos : (withPorts a r s).bitPos = s.bitPos := rfl
  rw [decodeTree, decodeTree, decodeWalk_withPorts, hroot, hlen, hpos]
  cases decodeWalk s (s.bitLen.toNat - s.bitPos.toNat) (nodeIdx (root s)) s.bitPos.toNat <;> rfl

theorem encoded_withPorts (e : CodeEntry) (s : State) :
    encoded e (withPorts a r s) = withPorts a r (encoded e s) :=
  congrArg (fun u : State =>
      complete (appendResults e { u with bitLen := BitVec.ofNat 32 (s.bitLen.toNat + e.len.toNat) }))
    (putBits_withPorts a r (pbase s) s.bitLen.toNat (codeBits e) s)

theorem execRdHeader_withPorts (s : State) :
    execRdHeader (withPorts s.argLat r s) = mapNext (withPorts s.argLat r) (execRdHeader s) := by
  have hread : readArtifact (withPorts s.argLat r s) (lengthOperand (withPorts s.argLat r s)) =
      readArtifact s (lengthOperand s) := by
    rw [readArtifact, readArtifact, readEntries_header, readEntries_header]
    rfl
  refine ite_withPorts s.argLat r Iff.rfl rfl ?_
  rw [hread]
  cases readArtifact s (lengthOperand s) <;> rfl

theorem exec_decSym_withPorts : exec .decSym (withPorts a r s) = mapNext (withPorts a r) (exec .decSym s) := by
  refine checkPhase_withPorts a r (ite_withPorts a r Iff.rfl rfl ?_)
  have hnode : nodeAt (withPorts a r s).node (nodeIdx (root (withPorts a r s))) = nodeAt s.node (nodeIdx (root s)) := rfl
  rw [hnode]
  cases nodeAt s.node (nodeIdx (root s)) with
  | leaf x w => exact decodeSingle_withPorts a r x
  | internal l r' w => exact decodeTree_withPorts a r

/-- No command reads the read port, and only FREQ_ADD and RD_HEADER read ARG_LAT (`30_encoding.md` R101). -/
theorem exec_withPorts (hread : a = s.argLat ∨ (∀ x, i ≠ .freqAdd x) ∧ i ≠ .rdHeader) :
    exec i (withPorts a r s) = mapNext (withPorts a r) (exec i s) := by
  cases i with
  | nop | clear | errAck | rdFreq | strmRst | rewind => rfl
  | genCodes | rdCode | wrHeader =>
    refine checkPhase_withPorts a r ?_
    rfl
  | build | rdNode =>
    refine checkPhase_withPorts a r (ite_withPorts a r Iff.rfl rfl ?_)
    rfl
  | freqAdd x =>
    obtain rfl := hread.resolve_right fun h => h.1 x rfl
    refine checkPhase_withPorts s.argLat r (ite_withPorts s.argLat r Iff.rfl rfl (ite_withPorts s.argLat r Iff.rfl rfl ?_))
    rfl
  | encSym x =>
    refine checkPhase_withPorts a r (ite_withPorts a r Iff.rfl rfl (ite_withPorts a r Iff.rfl rfl ?_))
    exact congrArg Host.Outcome.next (encoded_withPorts a r (codeAt s.code x) s)
  | decSym => exact exec_decSym_withPorts a r
  | rdHeader =>
    obtain rfl := hread.resolve_right fun h => h.2 rfl
    exact execRdHeader_withPorts r s

end Ports

/-- Settles O16: a command that does not read ARG_LAT does the same for every value of it. -/
theorem argLatReadByTwoCommandsOnly : Obligations.ArgLatReadByTwoCommandsOnly := by
  intro i s t v hfreq hheader h
  have hexec : exec i (withPorts v t.rdata s) = .next (withPorts v t.rdata t) := by
    rw [exec_withPorts v t.rdata (.inr ⟨hfreq, hheader⟩), h]
    rfl
  obtain ⟨-, -, -, -, -, -, -, hrdata, -⟩ := exec_sameHostSide h
  have hport : withPorts v t.rdata s = { s with argLat := v } := by rw [withPorts, hrdata]
  exact hport ▸ hexec

/-- Settles O17: the engine's turn reads neither register (O47's law). -/
theorem hostWindowWritesDoNotReachCommand : Obligations.HostWindowWritesDoNotReachCommand :=
  fun _ _ c v hb h => engineTurn_withHostWindow (fun _ => c) (fun _ => v) hb h

end Sys2Proof.Machine
end

section
/-! SUPPORT. The frequency table after a sequence of FREQ_ADD (`40_frequency_table.md` R112) and after RD_HEADER's
commit (`45_tree_serializer.md` R214), and the bytes of a number in the buffer (`20_memory.md` R62, R63). -/

namespace Sys2Proof.Machine

/-! ### FREQ_ADD after FREQ_ADD (`40_frequency_table.md` R112) -/

/-- The sum of the counts that a list of additions gives a symbol. -/
def addedTo (x : Symbol) (l : List (Symbol × Word)) : Nat := ((l.filter fun p => p.1 = x).map fun p => p.2.toNat).sum

theorem addedTo_append (x : Symbol) (l m : List (Symbol × Word)) :
    addedTo x (l ++ m) = addedTo x l + addedTo x m := by simp [addedTo]

theorem addedTo_perm {x : Symbol} {l m : List (Symbol × Word)} (h : m.Perm l) : addedTo x m = addedTo x l :=
  ((h.filter _).map _).sum_eq

/-- One FREQ_ADD (O21), its effect said of every symbol at once. -/
theorem exec_freqAdd_counts {s : State} {y : Symbol} {c : Word} (hp : s.phase = .load) (hc : c ≠ 0)
    (hfit : total s + c.toNat ≤ 2 ^ 32 - 1) :
    ∃ t, exec (.freqAdd y) { s with argLat := c } = .next t ∧ t.phase = .load ∧ total t = total s + c.toNat
      ∧ ∀ x, (freqAt t.freq x).toNat = (freqAt s.freq x).toNat + addedTo x [(y, c)] := by
  obtain ⟨-, -, -, -, hsuccess⟩ := freqAddFollowsItsRule { s with argLat := c } y
  obtain ⟨t, ht, hy, hother, -, -, -, -, htotal, -, -, -, hphase, -⟩ := hsuccess hp hc hfit
  refine ⟨t, ht, hphase.trans hp, htotal, fun x => ?_⟩
  by_cases hx : y = x
  · subst hx
    simpa [addedTo] using hy
  · simp [addedTo, hx, hother x (Ne.symm hx)]

/-- Additions of nonzero counts that keep TOTAL within 32 bits all succeed, and each symbol's count grows by what
they give it. -/
theorem addCounts_success {l : List (Symbol × Word)} {s : State} (hp : s.phase = .load) (hl : ∀ p ∈ l, p.2 ≠ 0)
    (hfit : total s + (l.map fun p => p.2.toNat).sum ≤ 2 ^ 32 - 1) :
    ∃ t, addCounts l s = .next t ∧ ∀ x, (freqAt t.freq x).toNat = (freqAt s.freq x).toNat + addedTo x l := by
  induction l generalizing s with
  | nil => exact ⟨s, rfl, fun _ => rfl⟩
  | cons p l ih =>
    rw [List.map_cons, List.sum_cons] at hfit
    obtain ⟨u, hu, hphase, htotal, hfirst⟩ :=
      exec_freqAdd_counts (y := p.1) hp (hl p List.mem_cons_self) (by omega)
    obtain ⟨t, ht, hrest⟩ := ih hphase (fun q hq => hl q (List.mem_cons_of_mem _ hq)) (by omega)
    refine ⟨t, by rw [addCounts, hu]; exact ht, fun x => ?_⟩
    rw [hrest, hfirst, Nat.add_assoc, ← addedTo_append, List.singleton_append]

/-- Settles O22: the sums that the additions give do not depend on their order. -/
theorem freqAddOrderIrrelevant : Obligations.FreqAddOrderIrrelevant := by
  intro l s hp hzero hl hsum
  have htotal : total s = 0 := total_eq_zero (freq_ext fun x => (hzero x).trans (freqAt_zeroFreq x).symm)
  have hfit : total s + (l.map fun p => p.2.toNat).sum ≤ 2 ^ 32 - 1 := by omega
  obtain ⟨t, ht, hcounts⟩ := addCounts_success hp hl hfit
  refine ⟨t, ht, fun x => ?_, fun m hm => ?_⟩
  · rw [hcounts, hzero]
    exact Nat.zero_add _
  · obtain ⟨u, hu, hcounts'⟩ := addCounts_success (l := m) hp (fun p hmem => hl p (hm.mem_iff.1 hmem))
      (((hm.map fun p => p.2.toNat).sum_eq).symm ▸ hfit)
    refine ⟨u, hu, freq_ext fun x => BitVec.eq_of_toNat_eq ?_⟩
    rw [hcounts', hcounts, addedTo_perm hm]

/-! ### RD_HEADER's commit (`45_tree_serializer.md` R214) -/

section Commit

variable {es : List (Symbol × Word)} (hsorted : es.Pairwise fun p q => p.1.toNat < q.1.toNat)
include hsorted

theorem symbols_nodup_of_sorted : (es.map Prod.fst).Nodup :=
  List.pairwise_map.2 (hsorted.imp fun hlt e => absurd (congrArg BitVec.toNat e) hlt.ne)

/-- Entries in ascending order, of counts above 0, are those of the table they load. -/
theorem presentEntries_loadFreq (hpresent : ∀ p ∈ es, p.2 ≠ 0) : presentEntries (loadFreq es) = es := by
  have hnodup := symbols_nodup_of_sorted hsorted
  have hmem : ∀ p, p ∈ presentEntries (loadFreq es) ↔ p ∈ es := fun (x, w) => by
    rw [mem_presentEntries]
    refine ⟨fun ⟨hw, hx⟩ => ?_, fun hxw => ⟨hpresent _ hxw, freqAt_loadFreq_of_mem hnodup hxw⟩⟩
    have hlisted : x ∈ es.map Prod.fst := by
      by_contra hnot
      exact hw (hx.symm.trans (freqAt_loadFreq_of_not_mem hnot))
    obtain ⟨⟨y, v⟩, hyv, rfl⟩ := List.mem_map.1 hlisted
    rwa [← hx, freqAt_loadFreq_of_mem hnodup hyv]
  have hperm : (presentEntries (loadFreq es)).Perm es :=
    (List.perm_ext_iff_of_nodup (presentEntries_symbols_nodup _).of_map hnodup.of_map).2 hmem
  exact hperm.eq_of_pairwise (fun _ _ _ _ hlt hgt => absurd hlt hgt.not_gt) (presentEntries_sorted _) hsorted

end Commit

/-- The entries that a header of n entries holds (`45_tree_serializer.md` R210). -/
def headerEntries (s : State) (n : Nat) : List (Symbol × Word) := (List.range' 0 n).map (headerEntry s)

theorem headerEntries_length (s : State) (n : Nat) : (headerEntries s n).length = n := by simp [headerEntries]

theorem mem_headerEntries {s : State} {n : Nat} {p : Symbol × Word} :
    p ∈ headerEntries s n ↔ ∃ i < n, headerEntry s i = p := by simp [headerEntries]

theorem headerEntry_freq_toNat (s : State) (i : Nat) : (headerEntry s i).2.toNat = headerFreq s i :=
  Nat.mod_eq_of_lt (memRead_lt s (3 + 5 * i) 4)

theorem sum_headerEntries (s : State) (n : Nat) :
    ((headerEntries s n).map fun p => p.2.toNat).sum = totalBefore s n := by
  rw [headerEntries, List.map_map, totalBefore, List.range_eq_range']
  exact congrArg List.sum (List.map_congr_left fun i _ => headerEntry_freq_toNat s i)

section HeaderEntries

variable {s : State} {n : Nat} (hnone : ∀ j < n, entryFault s j = none)
include hnone

/-- What an entry without a fault has passed (`45_tree_serializer.md` R215, checks 5 to 7). -/
theorem entry_checks {i : Nat} (hi : i < n) :
    (0 < i → (headerSym s (i - 1)).toNat < (headerSym s i).toNat) ∧ headerFreq s i ≠ 0
      ∧ totalBefore s (i + 1) ≤ 2 ^ 32 - 1 := by
  have h := hnone i hi
  rw [entryFault_eq] at h
  split_ifs at h with horder hzero htotal
  rw [outOfOrder_prevSym, ← headerSym_toNat, ← headerSym_toNat] at horder
  rw [totalBefore_succ]
  exact ⟨fun h0 => not_le.1 fun hle => horder ⟨h0, hle⟩, hzero, not_lt.1 htotal⟩

theorem headerSym_lt {i j : Nat} (hij : i < j) (hj : j < n) : (headerSym s i).toNat < (headerSym s j).toNat := by
  induction j, hij using Nat.le_induction with
  | base => exact (entry_checks hnone hj).1 (Nat.succ_pos i)
  | succ j hij ih => exact (ih (by omega)).trans ((entry_checks hnone hj).1 (Nat.succ_pos j))

/-- The entries of a header whose checks pass stand in ascending symbol order. -/
theorem headerEntries_sorted : (headerEntries s n).Pairwise fun p q => p.1.toNat < q.1.toNat := by
  refine List.pairwise_iff_getElem.2 fun i j hi hj hij => ?_
  simp only [headerEntries, List.length_map, List.length_range'] at hi hj
  simpa [headerEntries, headerEntry] using headerSym_lt hnone hij hj

theorem headerEntries_present : ∀ p ∈ headerEntries s n, p.2 ≠ 0 := by
  intro p hp hzero
  obtain ⟨i, hi, rfl⟩ := mem_headerEntries.1 hp
  exact (entry_checks hnone hi).2.1 ((headerEntry_freq_toNat s i).symm.trans (congrArg BitVec.toNat hzero))

/-- The table that RD_HEADER loads has the header's entries as its present symbols. -/
theorem presentEntries_loadFreq_headerEntries : presentEntries (loadFreq (headerEntries s n)) = headerEntries s n :=
  presentEntries_loadFreq (headerEntries_sorted hnone) (headerEntries_present hnone)

theorem freqAt_loadFreq_headerEntry {i : Nat} (hi : i < n) :
    (freqAt (loadFreq (headerEntries s n)) (headerSym s i)).toNat = headerFreq s i := by
  rw [freqAt_loadFreq_of_mem (symbols_nodup_of_sorted (headerEntries_sorted hnone))
    (mem_headerEntries.2 ⟨i, hi, rfl⟩)]
  exact headerEntry_freq_toNat s i

/-- Check 7 bounds the whole table's TOTAL (`45_tree_serializer.md` R215). -/
theorem totalBefore_le (h1 : 1 ≤ n) : totalBefore s n ≤ 2 ^ 32 - 1 := by
  obtain ⟨i, rfl⟩ := Nat.exists_eq_add_of_le' h1
  exact (entry_checks hnone (Nat.lt_succ_self i)).2.2

end HeaderEntries

/-- Settles O42: the entries are in ascending order, so each is the count of its symbol in the table they load. -/
theorem rdHeaderLoadsTableAndStream : Obligations.RdHeaderLoadsTableAndStream := by
  intro s len n hlen hn hfit h1 h256 hnone hwhole
  subst hlen
  have hread : readArtifact s (lengthOperand s) = .ok (headerEntries s n, headerLen s n) :=
    (readArtifact_no_fault hn h1 h256 (Nat.le.intro hwhole.symm) (firstFault_eq_none_iff.2 hnone)).trans
      (if_neg (not_not.2 hwhole))
  have hexec := exec_rdHeader_success hfit hread
  refine ⟨_, hexec, fun i hi x hx => ?_, fun x hx => ?_, rfl, Nat.mod_eq_of_lt (memRead_lt s _ 4), rfl, ?_, rfl,
    ⟨rfl, rfl⟩, rfl, rfl, ⟨rfl, rfl, rfl⟩, ⟨rfl, fun _ => rfl⟩, exec_sameHostSide hexec⟩
  · obtain rfl : x = headerSym s i := BitVec.eq_of_toNat_eq (hx.trans (headerSym_toNat s i).symm)
    exact freqAt_loadFreq_headerEntry hnone hi
  · refine freqAt_loadFreq_of_not_mem fun hmem => ?_
    obtain ⟨p, hp, rfl⟩ := List.mem_map.1 hmem
    obtain ⟨i, hi, rfl⟩ := mem_headerEntries.1 hp
    exact hx i hi (headerSym_toNat s i)
  · exact (congrArg (· % 2 ^ 32) (headerEntries_length s n)).trans (Nat.mod_eq_of_lt (by omega))

/-! ### Numbers in the buffer (`20_memory.md` R62, R63) -/

/-- Settles O45: the bytes written are the number's, and MemRead puts them together again. -/
theorem headerBytesAreBigEndian : Obligations.HeaderBytesAreBigEndian := by
  rintro s t a n v - hv rfl
  refine ⟨fun i hi => ?_, fun b hb => abufByte_memWrite_of_outside s s.abuf hb, memRead_memWrite s s.abuf hv⟩
  rw [abufByte_memWrite_getElem s s.abuf (by rwa [bytesOf_length])]
  simp [bytesOf, Nat.shiftRight_eq_div_pow]

end Sys2Proof.Machine
end

section
/-! SUPPORT. The bus while idle (`10_state.md` R20 to R46; `70_reset_and_hazards.md` R296, R300): acceptance, writes,
reads, the cycle with both strobes, and the engine's turn with nothing to do. -/

namespace Sys2Proof.Machine

/-! ### Acceptance and writes (`70_reset_and_hazards.md` R300) -/

/-- Settles O46: the address is CMD's, and an idle block accepts. -/
theorem cmdWriteAcceptsWhenIdle : Obligations.CmdWriteAcceptsWhenIdle := by
  intro s w k hk hb
  have hwrite := busWrite_cmd (s := s) w (regOfAddr_regOffset .cmd hk)
  rw [unlessBusy_idle hb] at hwrite
  exact congrArg Host.Outcome.next hwrite

theorem writeStatus_eq_ite (d : Word) (s : State) :
    writeStatus d s = if d.getLsbD 1 then { s with doneFlag := false } else s := by
  rw [writeStatus]
  cases d.getLsbD 1 with
  | false => rw [Bool.not_false, Bool.and_true, if_neg Bool.false_ne_true]
  | true => rw [Bool.not_true, Bool.and_false, if_pos rfl]

/-- CTRL reads back the two bits written (`10_state.md` R22). -/
theorem ctrlWord_written (d : Word) (s : State) : ctrlWord { s with ctrl := d.extractLsb' 0 2 } = d &&& 3 := by
  refine BitVec.eq_of_toNat_eq ?_
  simp only [ctrlWord, BitVec.toNat_setWidth, BitVec.extractLsb'_toNat, BitVec.toNat_and]
  have hmask : d.toNat &&& 3 = d.toNat % 4 := Nat.and_two_pow_sub_one_eq_mod d.toNat 2
  have hthree : (3 : Word).toNat = 3 := rfl
  rw [hthree, hmask, Nat.shiftRight_zero]
  omega

/-- Settles O48: each write by the register at its address, CTRL's read by the word that R22 makes of its bits. -/
theorem writesWhileIdle : Obligations.WritesWhileIdle := by
  intro s d k hk hb
  have reg : ∀ r : Reg, regOfAddr (BitVec.ofNat 12 ((regOffset r).toNat + k)) = some r :=
    fun r => regOfAddr_regOffset r hk
  have hctrl := busWrite_ctrl (s := s) d (reg .ctrl)
  refine ⟨hctrl, ?_, busWrite_arg d (reg .arg), ?_, fun off hoff => ?_, fun a h1 h2 => ?_⟩
  · rw [show BitVec.ofNat 12 (0x004 + k) = BitVec.ofNat 12 ((regOffset .ctrl).toNat + k) from rfl, hctrl]
    exact readsAs_of_defined (r := .ctrl) rfl (ctrlWord_written d s)
  · exact (busWrite_status d (reg .status)).trans (writeStatus_eq_ite d s)
  · obtain ⟨r, hr, rfl⟩ : ∃ r ∈ readOnlyRegs, (regOffset r).toNat = off := List.mem_map.1 hoff
    exact busWrite_readOnly d hr (reg r)
  · have hnone := regOfAddr_reserved h1 h2
    exact ⟨busWrite_reserved d hnone, busRead_reserved hnone⟩

/-! ### Reads (`10_state.md` R21 to R45) -/

theorem total_eq_sum_finRange (s : State) : total s = ((List.finRange 256).map fun i => (s.freq[i]).toNat).sum := by
  rw [total, toList_eq_map_finRange, List.map_map]
  rfl

/-- ABUF_DATA answers at its four addresses only. -/
theorem div_four_of_regOfAddr_abufData {addr : BitVec 12} (h : regOfAddr addr = some .abufData) :
    addr.toNat / 4 = 17 := by
  unfold regOfAddr at h
  split at h <;> simp_all

/-- An idle read elsewhere than at ABUF_DATA changes the word read and nothing else. -/
theorem busRead_idle_frame {s : State} (hb : s.busy = false) {addr : BitVec 12} (h : addr.toNat / 4 ≠ 17) :
    ∃ v, busRead addr s = { s with rdata := v } := by
  cases hreg : regOfAddr addr with
  | none => exact ⟨0, busRead_reserved hreg⟩
  | some r =>
    refine ⟨regValue s r, (busRead_defined hreg (.inl hb)).trans (if_neg ?_)⟩
    rintro rfl
    exact h (div_four_of_regOfAddr_abufData hreg)

/-- Settles O49: each read returns its register's value, with NSYM and TOTAL as sums over the entries of FREQ. -/
theorem idleReadsShowTheRegisters : Obligations.IdleReadsShowTheRegisters := by
  rintro s n tot hs hb rfl rfl
  rw [← presentEntries_length_eq_filter_finRange, ← total_eq_sum_finRange]
  have reads : ∀ (r : Reg) {v : Word}, regValue s r = v → ReadsAs s (regOffset r).toNat v := readsAs_of_idle hb
  have htotal := hs.total_le
  refine ⟨reads .id rfl, reads .ctrl rfl, reads .arg rfl, reads .cmd rfl, reads .result0 rfl, reads .result1 rfl,
    reads .errInfo (errInfoWord_eq_ofNat s.errInfo), reads .status (statusWord_eq_ofNat s), reads .nsym rfl,
    reads .total rfl, by omega,
    fun hp => ⟨reads .nnodes (congrArg (BitVec.ofNat 32) (nnodes_of_load hp)), reads .root (congrArg (BitVec.ofNat 32) (root_of_load hp))⟩,
    fun hp => ⟨reads .nnodes (congrArg (BitVec.ofNat 32) (nnodes_of_tree hp)), reads .root (congrArg (BitVec.ofNat 32) (root_of_tree hp))⟩,
    reads .bitLen rfl, reads .bitPos rfl, reads .pbase rfl, reads .alen rfl,
    reads .abufPtr (congrArg (BitVec.ofNat 32) (ptrValue_of_lt hs.ptrExists)), reads .abufSize rfl, fun a ha hne => ?_⟩
  refine busRead_idle_frame hb ?_
  rwa [BitVec.toNat_ofNat, Nat.mod_eq_of_lt ha]

/-! ### Both strobes, and an idle engine -/

/-- Settles O55: the cycle with both strobes is the write, then a free value on the read port. -/
theorem writeWithReadTakesTheWrite : Obligations.WriteWithReadTakesTheWrite := by
  rintro s t a d h
  cases h
  exact ⟨_, _, rfl⟩

theorem engineTurn_idle {s : State} (hb : s.busy = false) : engineTurn s = .next s := by simp [engineTurn, hb]

/-- Settles O54: the step and the completion event are both the engine's turn. -/
theorem idleEngineHoldsState : Obligations.IdleEngineHoldsState := by
  intro s hb
  exact ⟨fun hp => (step_nil hp).trans (engineTurn_idle hb), engineTurn_idle hb⟩

end Sys2Proof.Machine
end

section
/-! SUPPORT. The invariants INV1 to INV7 of `10_state.md` R51 with the form of the stored data: each group of them by
the state it speaks of, kept by every command and every event. -/

namespace Sys2Proof.Machine

/-! ### The invariants in groups -/

section Groups

variable {s t : State}

/-- INV2, INV3 and INV6, which speak of the tables and PHASE. -/
structure TablesSound (s : State) : Prop where
  tree : s.phase ≠ .load → 1 ≤ nsym s ∧ s.node.toList.take (2 * nsym s - 1) = buildArena s.freq
  codes : s.phase = .coded → s.code = assignCodes s.node (nodeIdx (root s))
  total_le : total s ≤ 2 ^ 32 - 1

/-- INV4 and INV5, which speak of the stream and the size of the header. -/
structure StreamSound (s : State) : Prop where
  cursor : s.bitPos.toNat ≤ s.bitLen.toNat
  fits : alen s ≤ s.cfg.abufBytes

/-- INV7, which speaks of the error state. -/
def ErrorsSound (s : State) : Prop := s.err = true ↔ s.errInfo.code ≠ .none

/-- The form of ABUF. -/
structure BufferSound (s : State) : Prop where
  form : Memory.wf s.abuf
  exist : ∀ c ∈ s.abuf, c.1 < s.cfg.abufBytes

theorem Sound.tables (h : Sound s) : TablesSound s := ⟨h.tree, h.codes, h.total_le⟩

theorem Sound.stream (h : Sound s) : StreamSound s := ⟨h.cursor, h.fits⟩

theorem Sound.buffer (h : Sound s) : BufferSound s := ⟨h.abufForm, h.abufExists⟩

theorem TablesSound.of_sameTables (h : TablesSound s) (hsame : SameTables s t) : TablesSound t := by
  obtain ⟨hfreq, hnode, hcode, hphase⟩ := hsame
  obtain ⟨htree, hcodes, htotal⟩ := h
  refine ⟨?_, ?_, ?_⟩
  · rw [nsym, hphase, hnode, hfreq]
    exact htree
  · rw [root, nsym, hphase, hnode, hfreq, hcode]
    exact hcodes
  · rw [total, hfreq]
    exact htotal

/-- In LOAD only TOTAL is bounded. -/
theorem TablesSound.of_load (hp : t.phase = .load) (htotal : total t ≤ 2 ^ 32 - 1) : TablesSound t :=
  ⟨fun h => absurd hp h, fun h => absurd (hp.symm.trans h) nofun, htotal⟩

/-- The empty stream fits after any header (`00_scope.md` R11). -/
theorem StreamSound.of_empty (hlen : t.bitLen = 0) (hpos : t.bitPos = 0) : StreamSound t := by
  have hbase := pbase_le t
  have hsize := abufBytes_ge t.cfg
  refine ⟨by rw [hlen, hpos], ?_⟩
  rw [alen, hlen]
  exact (by omega : pbase t + 0 ≤ t.cfg.abufBytes)

end Groups

/-! ### Commands -/

section Commands

variable {s t : State} {i : Instr}

/-- A command that writes no table and no PHASE leaves them (O14). -/
theorem exec_sameTables (h : exec i s = .next t) (hfreq : ∀ x, i ≠ .freqAdd x) (hclear : i ≠ .clear)
    (hheader : i ≠ .rdHeader) (hbuild : i ≠ .build) (hcodes : i ≠ .genCodes) : SameTables s t := by
  have hw := exec_writesOnly h
  refine ⟨by_contra fun hne => ?_, by_contra fun hne => hbuild (hw.node hne),
    by_contra fun hne => hcodes (hw.code hne), by_contra fun hne => ?_⟩
  · rcases hw.freq hne with ⟨x, hx⟩ | hx | hx
    · exact hfreq x hx
    · exact hheader hx
    · exact hclear hx
  · rcases hw.phase hne with hx | hx | hx | hx
    · exact hbuild hx
    · exact hcodes hx
    · exact hheader hx
    · exact hclear hx

theorem tablesSound_withTree (htotal : total s ≤ 2 ^ 32 - 1) (h0 : nsym s ≠ 0) : TablesSound (withTree s) := by
  have hlen := buildArena_length_nsym h0
  have h256 := nsym_le s
  refine ⟨fun _ => ⟨Nat.pos_of_ne_zero h0, ?_⟩, nofun, htotal⟩
  have htake := writeArena_take s.node (buildArena s.freq) (by omega)
  rwa [hlen] at htake

theorem tablesSound_withCodes (hs : TablesSound s) (hp : s.phase ≠ .load) : TablesSound (withCodes s) :=
  ⟨fun _ => hs.tree hp, fun _ => withCodes_meets_codes hp, hs.total_le⟩

/-- What RD_HEADER commits, by the checks that it has passed (`45_tree_serializer.md` R214, R215). -/
theorem loadArtifact_cases (h : execRdHeader s = .next t) :
    (∃ e sub, t = raise Opcode.rdHeader.code e sub s)
      ∨ ∃ n, 1 ≤ n ∧ (∀ j < n, entryFault s j = none) ∧ 6 + 5 * n + ceil8 (headerLen s n) ≤ s.cfg.abufBytes
        ∧ t = complete (loadArtifact (headerEntries s n) (headerLen s n) s) := by
  rcases execRdHeader_next h with ⟨-, rfl⟩ | ⟨-, sub, -, rfl⟩ | ⟨hfit, es, l, hread, rfl⟩
  · exact .inl ⟨_, _, rfl⟩
  · exact .inl ⟨_, _, rfl⟩
  · obtain ⟨n, hn, h1, h256, hnone, rfl, hlen⟩ := readArtifact_ok hread
    rw [readArtifact_no_fault hn h1 h256 (Nat.le.intro hlen.symm) (firstFault_eq_none_iff.2 hnone),
      if_neg (not_not.2 hlen)] at hread
    cases hread
    exact .inr ⟨n, h1, hnone, hlen ▸ hfit, rfl⟩

theorem exec_keeps_tables (hs : TablesSound s) (h : exec i s = .next t) : TablesSound t := by
  cases i with
  | clear =>
    rw [execClear_next h]
    exact .of_load rfl ((total_eq_zero (s := cleared s) rfl).trans_le (Nat.zero_le _))
  | freqAdd x =>
    rcases execFreqAdd_next h with ⟨-, rfl⟩ | ⟨-, -, rfl⟩ | ⟨-, -, -, rfl⟩ | ⟨hp, -, hfit, rfl⟩
    · exact hs.of_sameTables ⟨rfl, rfl, rfl, rfl⟩
    · exact hs.of_sameTables ⟨rfl, rfl, rfl, rfl⟩
    · exact hs.of_sameTables ⟨rfl, rfl, rfl, rfl⟩
    · exact .of_load hp ((total_addCount x hfit).trans_le hfit)
  | build =>
    rcases execBuild_next h with ⟨-, rfl⟩ | ⟨-, -, rfl⟩ | ⟨-, h0, rfl⟩
    · exact hs.of_sameTables ⟨rfl, rfl, rfl, rfl⟩
    · exact hs.of_sameTables ⟨rfl, rfl, rfl, rfl⟩
    · exact (tablesSound_withTree hs.total_le h0).of_sameTables ⟨rfl, rfl, rfl, rfl⟩
  | genCodes =>
    rcases execGenCodes_next h with ⟨-, rfl⟩ | ⟨hp, rfl⟩
    · exact hs.of_sameTables ⟨rfl, rfl, rfl, rfl⟩
    · exact (tablesSound_withCodes hs hp).of_sameTables ⟨rfl, rfl, rfl, rfl⟩
  | rdHeader =>
    rcases loadArtifact_cases h with ⟨_, _, rfl⟩ | ⟨n, h1, hnone, -, rfl⟩
    · exact hs.of_sameTables ⟨rfl, rfl, rfl, rfl⟩
    · refine .of_load rfl (le_trans (le_of_eq ?_) (totalBefore_le hnone h1))
      refine (sum_presentEntries (loadFreq (headerEntries s n))).symm.trans ?_
      rw [presentEntries_loadFreq_headerEntries hnone, sum_headerEntries]
  | nop | errAck | rdFreq | rdNode | rdCode | encSym | strmRst | decSym | rewind | wrHeader =>
    exact hs.of_sameTables (exec_sameTables h nofun nofun nofun nofun nofun)

/-- A command that moves no cursor and leaves the table's size leaves the stream. -/
theorem StreamSound.of_same (hs : StreamSound s) (hfreq : t.freq = s.freq) (hcfg : t.cfg = s.cfg)
    (hlen : t.bitLen = s.bitLen) (hpos : t.bitPos = s.bitPos) : StreamSound t := by
  refine ⟨?_, ?_⟩
  · rw [hlen, hpos]
    exact hs.cursor
  · rw [alen, pbase, nsym, hfreq, hlen, hcfg]
    exact hs.fits

theorem streamSound_encoded (hs : StreamSound s) (e : CodeEntry)
    (hfit : pbase s + ceil8 (s.bitLen.toNat + e.len.toNat) ≤ s.cfg.abufBytes) : StreamSound (encoded e s) := by
  have hlen := encoded_bitLen_toNat e s hfit
  have hbase : pbase (encoded e s) = pbase s := pbase_putBits ..
  have hcfg : (encoded e s).cfg = s.cfg := by simp [encoded, appendResults, appendCode_eq]
  refine ⟨?_, ?_⟩
  · rw [encoded_bitPos, hlen]
    exact hs.cursor.trans (Nat.le_add_right ..)
  · rw [alen, hbase, hlen, hcfg]
    exact hfit

/-- A symbol's bits end at BITLEN at the latest, whether the root is a leaf or an internal node. -/
theorem streamSound_decoded (hs : StreamSound s) (hne : s.bitPos ≠ s.bitLen) {x : Symbol} {p : Nat}
    (hp : p = s.bitPos.toNat + 1 ∨ p ≤ s.bitPos.toNat + (s.bitLen.toNat - s.bitPos.toNat)) :
    StreamSound (decoded x p s) := by
  have hcursor := hs.cursor
  have hlt := bitPos_lt_bitLen hcursor hne
  exact ⟨(Nat.mod_le ..).trans (by omega : p ≤ s.bitLen.toNat), hs.fits⟩

theorem streamSound_loadArtifact {n : Nat} (hnone : ∀ j < n, entryFault s j = none)
    (hfit : 6 + 5 * n + ceil8 (headerLen s n) ≤ s.cfg.abufBytes) :
    StreamSound (loadArtifact (headerEntries s n) (headerLen s n) s) := by
  refine ⟨Nat.zero_le _, le_trans (le_of_eq ?_) hfit⟩
  have hnsym : (presentEntries (loadFreq (headerEntries s n))).length = n := by
    rw [presentEntries_loadFreq_headerEntries hnone, headerEntries_length]
  have hlen : (BitVec.ofNat 32 (headerLen s n)).toNat = headerLen s n := Nat.mod_eq_of_lt (memRead_lt s _ 4)
  exact congrArg₂ (fun m l => 6 + 5 * m + ceil8 l) hnsym hlen

theorem exec_keeps_stream (hs : StreamSound s) (h : exec i s = .next t) : StreamSound t := by
  have failed {opc : Byte} {e : ErrorCode} {sub : Byte} : StreamSound (raise opc e sub s) :=
    hs.of_same rfl rfl rfl rfl
  cases i with
  | clear => rw [execClear_next h]; exact .of_empty rfl rfl
  | strmRst => rw [execStrmRst_next h]; exact .of_empty rfl rfl
  | freqAdd x =>
    rcases execFreqAdd_next h with ⟨-, rfl⟩ | ⟨-, -, rfl⟩ | ⟨-, -, -, rfl⟩ | ⟨-, -, -, rfl⟩
    · exact failed
    · exact failed
    · exact failed
    · exact .of_empty rfl rfl
  | encSym x =>
    rcases execEncSym_next h with ⟨-, rfl⟩ | ⟨-, -, rfl⟩ | ⟨-, -, -, rfl⟩ | ⟨-, -, hfit, rfl⟩
    · exact failed
    · exact failed
    · exact failed
    · exact streamSound_encoded hs _ hfit
  | decSym =>
    rcases execDecSym_next h with ⟨-, rfl⟩ | ⟨-, -, rfl⟩ | ⟨-, hne, rfl | rfl | ⟨x, p, -, hp, rfl⟩⟩
    · exact failed
    · exact hs.of_same rfl rfl rfl rfl
    · exact failed
    · exact failed
    · exact (streamSound_decoded hs hne (x := x) hp).of_same rfl rfl rfl rfl
  | rewind => rw [execRewind_next h]; exact ⟨Nat.zero_le _, hs.fits⟩
  | rdHeader =>
    rcases loadArtifact_cases h with ⟨_, _, rfl⟩ | ⟨n, -, hnone, hfit, rfl⟩
    · exact failed
    · exact (streamSound_loadArtifact hnone hfit).of_same rfl rfl rfl rfl
  | nop | errAck | rdFreq | build | rdNode | genCodes | rdCode | wrHeader =>
    have hw := exec_writesOnly h
    obtain ⟨hcfg, -⟩ := exec_sameHostSide h
    exact hs.of_same (by_contra fun hne => by simpa using hw.freq hne) hcfg
      (by_contra fun hne => by simpa using hw.bitLen hne) (by_contra fun hne => by simpa using hw.bitPos hne)

theorem exec_keeps_errors (hs : ErrorsSound s) (h : exec i s = .next t) : ErrorsSound t := by
  unfold ErrorsSound at hs ⊢
  rcases exec_errors h with ⟨e, sub, rfl, hnone, -⟩ | ⟨herr, -, hinfo⟩ | ⟨herr, -, hinfo⟩
  · exact iff_of_true rfl hnone
  · rwa [herr, hinfo]
  · rw [herr, hinfo]
    exact iff_of_false nofun (not_not.2 rfl)

/-- The packer stores to the bytes of the new bits only (`43_bit_packer.md` R171). -/
theorem below_putBits {n base p : Nat} {cs : List Bool} (h : ∀ c ∈ s.abuf, c.1 < n)
    (hfit : base + ceil8 (p + cs.length) ≤ n) : ∀ c ∈ (putBits base p cs s).abuf, c.1 < n := by
  induction cs generalizing p s with
  | nil => exact h
  | cons b cs ih =>
    unfold ceil8 at hfit ih
    rw [List.length_cons] at hfit
    exact ih (Memory.below_write h (by omega) _) (by omega)

/-- WR_HEADER stores below PBASE only (`45_tree_serializer.md` R213). -/
theorem below_headerWritten {n : Nat} (h : ∀ c ∈ s.abuf, c.1 < n) (hfit : pbase s ≤ n) :
    ∀ c ∈ headerWritten s, c.1 < n := by
  unfold pbase at hfit
  refine Memory.below_memWrite (Memory.below_writeEntries (Memory.below_memWrite h (by omega) _) ?_) (by omega) _
  exact (by omega : 2 + 5 * (0 + nsym s) ≤ n)

theorem exec_keeps_buffer (hs : BufferSound s) (hfits : alen s ≤ s.cfg.abufBytes) (h : exec i s = .next t) :
    BufferSound t := by
  have failed {opc : Byte} {e : ErrorCode} {sub : Byte} : BufferSound (raise opc e sub s) := ⟨hs.form, hs.exist⟩
  cases i with
  | encSym x =>
    rcases execEncSym_next h with ⟨-, rfl⟩ | ⟨-, -, rfl⟩ | ⟨-, -, -, rfl⟩ | ⟨-, -, hfit, rfl⟩
    · exact failed
    · exact failed
    · exact failed
    · rw [← codeBits_length] at hfit
      rw [appendCode_eq]
      exact ⟨Memory.wf_putBits hs.form _ _ _, below_putBits hs.exist hfit⟩
  | wrHeader =>
    rcases execWrHeader_next h with ⟨-, rfl⟩ | ⟨-, rfl⟩
    · exact failed
    · exact ⟨Memory.wf_headerWritten hs.form, below_headerWritten hs.exist ((Nat.le_add_right ..).trans hfits)⟩
  | nop | clear | errAck | freqAdd | rdFreq | build | rdNode | genCodes | rdCode | strmRst | decSym | rewind
  | rdHeader =>
    have habuf : t.abuf = s.abuf := by_contra fun hne => by simpa using (exec_writesOnly h).abuf hne
    obtain ⟨hcfg, -⟩ := exec_sameHostSide h
    exact ⟨habuf ▸ hs.form, habuf ▸ hcfg ▸ hs.exist⟩

/-- Every command keeps the invariants. -/
theorem exec_keeps_sound (hs : Sound s) (h : exec i s = .next t) : Sound t := by
  obtain ⟨htree, hcodes, htotal⟩ := exec_keeps_tables hs.tables h
  obtain ⟨hcursor, hfits⟩ := exec_keeps_stream hs.stream h
  obtain ⟨hform, hexist⟩ := exec_keeps_buffer hs.buffer hs.fits h
  obtain ⟨hcfg, -, -, hlast, -, hlat, hptr, -⟩ := exec_sameHostSide h
  obtain ⟨hbusy, -⟩ := exec_completed h
  refine ⟨htree, hcodes, hcursor, hfits, htotal, exec_keeps_errors hs.errCode h, hform, hexist, ?_, ?_, ?_⟩
  · rw [hptr, hcfg]
    exact hs.ptrExists
  · rw [hbusy]
    exact nofun
  · rw [hlast, hlat]
    exact hs.latched

end Commands

/-! ### Events -/

section Events

variable {s t : State}

/-- The invariants say nothing of CTRL, ARG, OVR and the model's own fields. -/
theorem Sound.withHost (h : Sound s) {ctrl : BitVec 2} {arg rdata : Word} {ovr : Bool} {pending : List Event}
    {draws resets : Nat} :
    Sound { s with
      ctrl := ctrl, arg := arg, rdata := rdata, ovr := ovr, pending := pending, draws := draws, resets := resets } :=
  ⟨h.tree, h.codes, h.cursor, h.fits, h.total_le, h.errCode, h.abufForm, h.abufExists, h.ptrExists, h.handshake,
    h.latched⟩

theorem Sound.complete (h : Sound s) : Sound (complete s) :=
  { h with handshake := nofun }

theorem Sound.raise (h : Sound s) (opc : Byte) {e : ErrorCode} (he : e ≠ .none) (sub : Byte) :
    Sound (raise opc e sub s) :=
  { h with errCode := iff_of_true rfl he, handshake := nofun }

/-- ABUF_PTR is set modulo ABUF_BYTES (`10_state.md` R43). -/
theorem Sound.setPtr (h : Sound s) (v : Nat) : Sound (setPtr s v) :=
  { h with ptrExists := (setPtr_abufPtr_toNat s v).trans_lt (Nat.mod_lt _ (abufBytes_pos _)) }

/-- The port stores at ABUF_PTR, below ABUF_BYTES (`10_state.md` R44). -/
theorem Sound.storeByte (h : Sound s) (d : Word) : Sound (storeByte d s) :=
  Sound.setPtr (s := { s with abuf := Memory.write s.abuf (ptrValue s) (d.setWidth 8) })
    { h with
      abufForm := Memory.wf_write h.abufForm _ _
      abufExists := Memory.below_write h.abufExists (ptrValue_lt s) _ } _

theorem Sound.accept (h : Sound s) (w : Word) : Sound (accept w s) :=
  { h with handshake := fun _ => rfl, latched := rfl }

theorem Sound.writeStatus (h : Sound s) (d : Word) : Sound (writeStatus d s) :=
  { h with handshake := fun hb => by rw [Machine.writeStatus, h.handshake hb, Bool.false_and] }

theorem Sound.unlessBusy (h : Sound s) (hidle : Sound t) : Sound (unlessBusy s t) := by
  unfold Machine.unlessBusy
  split
  · exact h.withHost
  · exact hidle

theorem Sound.busWrite (h : Sound s) (addr : BitVec 12) (d : Word) : Sound (busWrite addr d s) := by
  unfold Machine.busWrite
  cases regOfAddr addr with
  | none => exact h
  | some r =>
    cases r with
    | ctrl => exact h.withHost
    | status => exact h.writeStatus d
    | arg => exact h.withHost
    | cmd => exact h.unlessBusy (h.accept d)
    | abufPtr => exact h.unlessBusy (h.setPtr _)
    | abufData => exact h.unlessBusy (h.storeByte d)
    | id | errInfo | result0 | result1 | nsym | total | nnodes | root | bitLen | bitPos | pbase | alen | abufSize =>
      exact h

theorem Sound.busRead (h : Sound s) (addr : BitVec 12) : Sound (busRead addr s) := by
  unfold Machine.busRead afterRead
  split
  · exact h.withHost
  · split
    · exact h.withHost
    · split
      · exact Sound.setPtr h.withHost _
      · exact h.withHost

/-- The engine's turn: nothing, a discarded word, an illegal word or a command. -/
theorem engineTurn_keeps_sound (hs : Sound s) (h : engineTurn s = .next t) : Sound t := by
  cases hb : s.busy with
  | false =>
    rw [engineTurn_idle hb] at h
    cases h
    exact hs
  | true =>
    rw [engineTurn_busy hb] at h
    rcases execute_next h with ⟨-, rfl⟩ | ⟨-, e, -, rfl⟩ | ⟨-, i, -, hexec⟩
    · exact hs.complete
    · exact hs.raise (e := .illegalCommand) _ nofun _
    · exact exec_keeps_sound hs hexec

/-- The invariants hold after reset, of any block. -/
theorem sound_resetBlock (s : State) : Sound (resetBlock s) := by
  have htotal : total (resetBlock s) = 0 := total_eq_zero rfl
  obtain ⟨htree, hcodes, htotal⟩ := TablesSound.of_load (t := resetBlock s) rfl (by omega)
  obtain ⟨hcursor, hfits⟩ := StreamSound.of_empty (t := resetBlock s) rfl rfl
  exact ⟨htree, hcodes, hcursor, hfits, htotal, iff_of_false nofun (not_not.2 rfl), Memory.wf_reset, nofun,
    abufBytes_pos s.cfg, nofun, rfl⟩

theorem applyEvent_keeps_sound {e : Event} (hs : Sound s) (h : applyEvent e s = .next t) : Sound t := by
  cases e with
  | write addr d => cases h; exact hs.busWrite addr d
  | read addr => cases h; exact hs.busRead addr
  | writeRead addr d => cases h; exact (hs.busWrite addr d).withHost
  | complete => exact engineTurn_keeps_sound hs h
  | reset => cases h; exact sound_resetBlock s

/-- No event stops a sound block: only DEC_SYM could, and INV4 and INV5 shut that out. -/
theorem engineTurn_goes (hs : Sound s) : Goes (engineTurn s) := by
  unfold engineTurn execute
  split
  · split
    · exact ⟨_, rfl⟩
    · split
      · exact ⟨_, rfl⟩
      · exact exec_goes hs.cursor hs.fits _
  · exact ⟨_, rfl⟩

theorem applyEvent_goes (e : Event) (hs : Sound s) : Goes (applyEvent e s) := by
  cases e with
  | complete => exact engineTurn_goes hs
  | write | read | writeRead | reset => exact ⟨_, rfl⟩

end Events

/-- Settles O56: the reset state is what a reset leaves, but for the counter of resets. -/
theorem resetMeetsInvariants : Obligations.ResetMeetsInvariants :=
  Sound.withHost (sound_resetBlock State.reset) (resets := 0)

/-- Settles O57: a step is the engine's turn or one event. -/
theorem stepKeepsInvariants : Obligations.StepKeepsInvariants := by
  intro s t hs h
  cases hp : s.pending with
  | nil => exact engineTurn_keeps_sound hs (step_nil hp ▸ h)
  | cons e rest => exact applyEvent_keeps_sound hs.withHost (step_cons hp ▸ h)

/-- Settles O58: neither the engine's turn nor an event stops. -/
theorem soundStatesNeverStop : Obligations.SoundStatesNeverStop := by
  intro s hs
  cases hp : s.pending with
  | nil => exact step_nil hp ▸ engineTurn_goes hs
  | cons e rest => exact step_cons hp ▸ applyEvent_goes e hs.withHost

end Sys2Proof.Machine
end

section
/-! SUPPORT. The codes of a sound state in CODED: their lengths and their Kraft sum (`42_code_table.md` R154), and the
packer and the unpacker as inverses of each other, symbol by symbol and stream by stream (`44_bit_unpacker.md` R197). -/

namespace Sys2Proof.Machine

/-! ### Kraft's sum (`42_code_table.md` R154) -/

/-- The leaves of a full tree no deeper than d fill the 2^d strings of length d. -/
theorem CodeTree.sum_two_pow {T : CodeTree} {d : Nat} (h : ∀ p ∈ T.codes, p.2.length ≤ d) :
    (T.codes.map fun p => 2 ^ (d - p.2.length)).sum = 2 ^ d := by
  induction T generalizing d with
  | leaf x => simp [codes]
  | node a b iha ihb =>
    have ha : ∀ p ∈ a.codes, p.2.length + 1 ≤ d := fun p hp =>
      h _ (List.mem_append_left _ (List.mem_map_of_mem (f := Prod.map id (false :: ·)) hp))
    have hb : ∀ p ∈ b.codes, p.2.length + 1 ≤ d := fun p hp =>
      h _ (List.mem_append_right _ (List.mem_map_of_mem (f := Prod.map id (true :: ·)) hp))
    obtain ⟨p, hp⟩ := List.exists_mem_of_length_pos a.codes_length_pos
    obtain ⟨d, rfl⟩ : ∃ n, d = n + 1 := ⟨d - 1, by have := ha p hp; omega⟩
    have hchild (c : Bool) (q : Symbol × List Bool) :
        2 ^ (d + 1 - (Prod.map id (c :: ·) q).2.length) = 2 ^ (d - q.2.length) := by
      rw [Prod.map_snd, List.length_cons, Nat.add_sub_add_right]
    simp only [codes, List.map_append, List.map_map, Function.comp_def, hchild, List.sum_append]
    rw [iha fun q hq => Nat.le_of_succ_le_succ (ha q hq), ihb fun q hq => Nat.le_of_succ_le_succ (hb q hq),
      Nat.pow_succ, Nat.mul_two]

/-! ### The codes of a sound state -/

section Coded

variable {s : State} (hs : Sound s) (hc : s.phase = .coded) {x : Symbol}
include hs hc

theorem codeAt_of_leaf {w : Word} (h : nodeAt s.node (rootIdx s) = .leaf x w) : codeAt s.code x = codeEntry 1 0 := by
  rw [hs.codes hc, ← rootIdx, assignCodes_leaf h, codeAt_setCode, if_pos rfl]

theorem codeAt_of_leadsTo {bits : List Bool} (hroot : IsInternal s.node (rootIdx s))
    (h : LeadsTo s.node (rootIdx s) bits x) : bits.length ≤ 255 ∧ codeAt s.code x = stringEntry bits := by
  rw [hs.codes hc, ← rootIdx]
  exact codeAt_assignCodes_of_leadsTo hs (by simp [hc]) hroot h

theorem codeAt_of_absent (hx : freqAt s.freq x = 0) : codeAt s.code x = CodeEntry.absent := by
  rw [hs.codes hc, ← rootIdx]
  exact codeAt_assignCodes_of_absent hs (by simp [hc]) hx

/-- A present symbol's code: "0" for the one leaf, else the string that leads to its leaf. -/
theorem code_cases (hx : freqAt s.freq x ≠ 0) :
    (∃ w, nodeAt s.node (rootIdx s) = .leaf x w ∧ codeAt s.code x = codeEntry 1 0)
      ∨ IsInternal s.node (rootIdx s) ∧ ∃ bits, LeadsTo s.node (rootIdx s) bits x ∧ bits ≠ [] ∧ bits.length ≤ 255
        ∧ codeAt s.code x = stringEntry bits := by
  obtain ⟨bits, hbits⟩ := (exists_leadsTo_iff hs (by simp [hc])).2 hx
  cases hroot : nodeAt s.node (rootIdx s) with
  | leaf y w =>
    obtain ⟨rfl, -⟩ := (leadsTo_of_leaf hroot).1 hbits
    exact .inl ⟨w, rfl, codeAt_of_leaf hs hc hroot⟩
  | internal l r w =>
    have hi : IsInternal s.node (rootIdx s) := ⟨l, r, w, hroot⟩
    obtain ⟨hlen, hcode⟩ := codeAt_of_leadsTo hs hc hi hbits
    obtain ⟨b, rest, rfl, -⟩ := (leadsTo_of_internal hroot).1 hbits
    exact .inr ⟨hi, _, hbits, List.cons_ne_nil b rest, hlen, hcode⟩

theorem code_len_ne_zero_iff : (codeAt s.code x).len ≠ 0 ↔ freqAt s.freq x ≠ 0 := by
  refine ⟨fun hlen hx => hlen (by rw [codeAt_of_absent hs hc hx]; rfl), fun hx hzero => ?_⟩
  rcases code_cases hs hc hx with ⟨w, -, hcode⟩ | ⟨-, bits, -, hne, hlen, hcode⟩
  · rw [hcode] at hzero
    cases hzero
  · rw [hcode] at hzero
    exact hne (List.length_eq_zero_iff.1 ((stringEntry_len hlen).symm.trans (congrArg BitVec.toNat hzero)))

omit hc in
/-- The root is an internal node where two symbols are present (`41_tree_builder.md` R134). -/
theorem isInternal_root_iff (hp : s.phase ≠ .load) : IsInternal s.node (rootIdx s) ↔ 2 ≤ nsym s := by
  obtain ⟨T, hT⟩ := exists_codeTree hs hp (rootIdx_lt hs hp)
  rw [← codes_length_eq_nsym hs hp hT]
  cases T with
  | leaf y =>
    obtain ⟨w, hroot⟩ := hT
    exact iff_of_false (by simp [IsInternal, hroot]) (by simp [CodeTree.codes])
  | node a b =>
    obtain ⟨l, r, w, hroot, -, -⟩ := hT
    have ha := a.codes_length_pos
    have hb := b.codes_length_pos
    refine iff_of_true ⟨l, r, w, hroot⟩ ?_
    rw [CodeTree.codes, List.length_append, List.length_map, List.length_map]
    omega

end Coded

/-- Settles O32: the codes are the strings at the leaves of a full tree with NSYM leaves. -/
theorem codeLengthsAreFull : Obligations.CodeLengthsAreFull := by
  intro s hs hc
  have hp : s.phase ≠ .load := by simp [hc]
  have hroot := isInternal_root_iff hs hp
  obtain ⟨T, hT⟩ := exists_codeTree hs hp (rootIdx_lt hs hp)
  have hlength {x : Symbol} {bits : List Bool} (h2 : 2 ≤ nsym s) (hmem : (x, bits) ∈ T.codes) :
      bits.length ≤ 255 ∧ (codeAt s.code x).len.toNat = bits.length := by
    obtain ⟨hlen, hcode⟩ := codeAt_of_leadsTo hs hc (hroot.2 h2) ((CodeTree.mem_codes_iff hT).1 hmem)
    exact ⟨hlen, by rw [hcode, stringEntry_len hlen]⟩
  refine ⟨fun h1 x hx => ?_, fun h2 x hx => ?_, fun h2 => ?_⟩
  · rcases code_cases hs hc hx with ⟨w, -, hcode⟩ | ⟨hi, -⟩
    · rw [hcode]
      rfl
    · have := hroot.1 hi
      omega
  · obtain ⟨⟨y, bits⟩, hmem, rfl⟩ := List.mem_map.1 ((mem_codes_symbols hs hp hT).2 hx)
    have hlt := CodeTree.length_lt_of_mem_codes hmem
    rw [codes_length_eq_nsym hs hp hT] at hlt
    have hne := (code_len_ne_zero_iff hs hc).2 hx
    obtain ⟨-, hlen⟩ := hlength h2 hmem
    refine ⟨Nat.pos_of_ne_zero fun h0 => hne (BitVec.eq_of_toNat_eq h0), ?_⟩
    simp only at hlen ⊢
    omega
  · have hsum := ((codes_symbols_perm hs hp hT).map fun x => 2 ^ (255 - (codeAt s.code x).len.toNat)).sum_eq
    rw [List.map_map, List.map_map] at hsum
    refine hsum.symm.trans (Eq.trans ?_ (T.sum_two_pow fun p hmem => (hlength h2 hmem).1))
    refine congrArg List.sum (List.map_congr_left fun p hmem => ?_)
    exact congrArg (fun n => 2 ^ (255 - n)) (hlength h2 hmem).2

/-! ### Strings of bits in the payload -/

section HoldsBits

variable {s t : State} {p : Nat} {bits : List Bool}

/-- The payload holds a string of bits from position p on. -/
def HoldsBits (s : State) (p : Nat) (bits : List Bool) : Prop := streamBits s p bits.length = bits

theorem streamBits_add (s : State) (p j k : Nat) :
    streamBits s p (j + k) = streamBits s p j ++ streamBits s (p + j) k := by
  simp [streamBits, List.range_add, Nat.add_assoc]

theorem holdsBits_append {more : List Bool} :
    HoldsBits s p (bits ++ more) ↔ HoldsBits s p bits ∧ HoldsBits s (p + bits.length) more := by
  rw [HoldsBits, List.length_append, streamBits_add]
  exact ⟨fun h => List.append_inj h (streamBits_length ..), fun ⟨h, hmore⟩ => congrArg₂ _ h hmore⟩

theorem HoldsBits.of_same (h : HoldsBits s p bits)
    (hsame : ∀ q < p + bits.length, payloadBit t q = payloadBit s q) : HoldsBits t p bits := by
  refine Eq.trans (List.map_congr_left fun j hj => ?_) h
  have := List.mem_range.1 hj
  exact hsame _ (by omega)

theorem holdsBits_putBits (p : Nat) (bits : List Bool) (s : State) :
    HoldsBits (putBits (pbase s) p bits s) p bits := by
  refine List.ext_getElem (streamBits_length ..) fun i _ hi => ?_
  simp only [streamBits, List.getElem_map, List.getElem_range]
  exact payloadBit_putBits_getElem p bits s hi

/-- ENC_SYM leaves the code's bits from the old BITLEN on (`43_bit_packer.md` R170). -/
theorem holdsBits_encoded (e : CodeEntry) (s : State) :
    HoldsBits (encoded e s) s.bitLen.toNat (codeBits e) :=
  (holdsBits_putBits s.bitLen.toNat (codeBits e) s).of_same fun q _ => payloadBit_encoded e s q

end HoldsBits

/-! ### One symbol (`44_bit_unpacker.md` R197) -/

/-- Where the stream goes on with a present symbol's code, DEC_SYM gives the symbol and takes the code's bits. -/
theorem exec_decSym_of_code {s : State} (hs : Sound s) (hc : s.phase = .coded) {x : Symbol} (hx : freqAt s.freq x ≠ 0)
    (hend : s.bitPos.toNat + (codeBits (codeAt s.code x)).length ≤ s.bitLen.toNat)
    (hbits : HoldsBits s s.bitPos.toNat (codeBits (codeAt s.code x))) :
    exec .decSym s = .next (complete (decoded x (s.bitPos.toNat + (codeBits (codeAt s.code x)).length) s)) := by
  have hp : s.phase ≠ .load := by simp [hc]
  have hpos := List.length_pos_iff.2 (codeBits_ne_nil ((code_len_ne_zero_iff hs hc).2 hx))
  have hne : s.bitPos ≠ s.bitLen := fun e => by rw [e] at hend; omega
  rcases code_cases hs hc hx with ⟨w, hroot, hcode⟩ | ⟨hi, bits, hleads, -, hlen, hcode⟩
  · have hone : codeBits (codeEntry 1 0) = [false] := by decide
    rw [hcode, hone] at hend hbits ⊢
    have hzero : payloadBit s s.bitPos.toNat = false := List.head_eq_of_cons_eq hbits
    rw [exec_decSym_single hp hne hroot]
    exact decodeSingle_zero (hzero ▸ payloadBit?_of_lt_bitLen hs.fits hend)
  · rw [hcode, codeBits_stringEntry hlen] at hend hbits ⊢
    rw [exec_decSym_tree hp hne hi]
    refine decodeTree_symbol (decodeWalk_of_leadsTo hs.fits (by omega) hi (by omega) ?_)
    rwa [hbits]

/-! ### A stream of symbols (`44_bit_unpacker.md` R197) -/

section Streams

variable {s t u : State} {x : Symbol} {xs : List Symbol}

/-- The codes of a sequence of symbols, one after the other. -/
def packedBits (s : State) (xs : List Symbol) : List Bool := xs.flatMap fun x => codeBits (codeAt s.code x)

theorem packedBits_cons (s : State) (x : Symbol) (xs : List Symbol) :
    packedBits s (x :: xs) = codeBits (codeAt s.code x) ++ packedBits s xs := List.flatMap_cons

theorem packedBits_length (s : State) (xs : List Symbol) :
    (packedBits s xs).length = (xs.map fun x => (codeAt s.code x).len.toNat).sum := by
  simp [packedBits, List.length_flatMap]

theorem packedBits_congr (h : t.code = s.code) (xs : List Symbol) : packedBits t xs = packedBits s xs := by
  rw [packedBits, packedBits, h]

/-- The state after a sequence of symbols is packed. -/
structure Packed (s t : State) (xs : List Symbol) : Prop where
  sound : Sound t
  tables : SameTables s t
  err : t.err = s.err
  bitLen : t.bitLen.toNat = s.bitLen.toNat + (packedBits s xs).length
  before : ∀ q < s.bitLen.toNat, payloadBit t q = payloadBit s q
  stream : HoldsBits t s.bitLen.toNat (packedBits s xs)

theorem Packed.nil (hs : Sound s) : Packed s s [] :=
  ⟨hs, ⟨rfl, rfl, rfl, rfl⟩, rfl, rfl, fun _ _ => rfl, rfl⟩

/-- Packing a symbol and then the others packs them all. -/
theorem Packed.cons (hx : Packed s u [x]) (h : Packed u t xs) : Packed s t (x :: xs) := by
  obtain ⟨hfreq, hnode, hcode, hphase⟩ := hx.tables
  obtain ⟨hfreq', hnode', hcode', hphase'⟩ := h.tables
  have hbits : packedBits s (x :: xs) = packedBits s [x] ++ packedBits u xs := by
    rw [packedBits_congr hcode, packedBits, packedBits, packedBits, ← List.flatMap_append, List.singleton_append]
  refine ⟨h.sound, ⟨hfreq'.trans hfreq, hnode'.trans hnode, hcode'.trans hcode, hphase'.trans hphase⟩,
    h.err.trans hx.err, ?_, fun q hq => (h.before q ?_).trans (hx.before q hq), ?_⟩
  · rw [h.bitLen, hx.bitLen, hbits, List.length_append, Nat.add_assoc]
  · exact hq.trans_le ((Nat.le_add_right ..).trans_eq hx.bitLen.symm)
  · rw [hbits, holdsBits_append, ← hx.bitLen]
    exact ⟨hx.stream.of_same fun q hq => h.before q (hq.trans_eq hx.bitLen.symm), h.stream⟩

theorem packed_encoded (hs : Sound s) (hc : s.phase = .coded) (hx : freqAt s.freq x ≠ 0)
    (hfit : pbase s + ceil8 (s.bitLen.toNat + (codeAt s.code x).len.toNat) ≤ s.cfg.abufBytes) :
    ∃ t, exec (.encSym x) s = .next t ∧ Packed s t [x] := by
  have hexec := exec_encSym_success x hc ((code_len_ne_zero_iff hs hc).2 hx) hfit
  have hbits : packedBits s [x] = codeBits (codeAt s.code x) := List.flatMap_singleton ..
  have hbitLen := encoded_bitLen_toNat (codeAt s.code x) s hfit
  have hheld := holdsBits_encoded (codeAt s.code x) s
  obtain ⟨herr, -, -⟩ := encoded_sameErrors (codeAt s.code x) s
  have hbefore : ∀ q < s.bitLen.toNat, payloadBit (encoded (codeAt s.code x) s) q = payloadBit s q :=
    fun q hq => by rw [payloadBit_encoded, payloadBit_putBits_of_lt _ _ _ hq]
  rw [← codeBits_length, ← hbits] at hbitLen
  rw [← hbits] at hheld
  exact ⟨_, hexec, exec_keeps_sound hs hexec, encoded_sameTables (codeAt s.code x) s, herr, hbitLen, hbefore, hheld⟩

/-- ENC_SYM of present symbols whose codes fit in ABUF succeeds for each (`43_bit_packer.md` R170). -/
theorem encodeAll_packs (hs : Sound s) (hc : s.phase = .coded) (hxs : ∀ x ∈ xs, freqAt s.freq x ≠ 0)
    (hfit : pbase s + ceil8 (s.bitLen.toNat + (packedBits s xs).length) ≤ s.cfg.abufBytes) :
    ∃ t, encodeAll xs s = .next t ∧ Packed s t xs := by
  induction xs generalizing s with
  | nil => exact ⟨s, rfl, .nil hs⟩
  | cons x xs ih =>
    rw [packedBits_cons, List.length_append, codeBits_length] at hfit
    have hfirst : pbase s + ceil8 (s.bitLen.toNat + (codeAt s.code x).len.toNat) ≤ s.cfg.abufBytes := by
      unfold ceil8 at hfit ⊢
      omega
    obtain ⟨u, hexec, hu⟩ := packed_encoded hs hc (hxs x List.mem_cons_self) hfirst
    obtain ⟨hfreq, -, hcode, hphase⟩ := hu.tables
    obtain ⟨hcfg, -⟩ := exec_sameHostSide hexec
    have hbase : pbase u = pbase s := by rw [pbase, pbase, nsym, nsym, hfreq]
    have hlen := hu.bitLen
    rw [packedBits_length, List.map_singleton, List.sum_singleton] at hlen
    obtain ⟨t, ht, hpacked⟩ := ih hu.sound (hphase.trans hc)
      (fun y hy => by rw [hfreq]; exact hxs y (List.mem_cons_of_mem x hy))
      (by rwa [hbase, hlen, packedBits_congr hcode, hcfg, Nat.add_assoc])
    exact ⟨t, by rw [encodeAll, hexec]; exact ht, hu.cons hpacked⟩

/-- The stream from BITPOS to BITLEN holds the codes of a sequence of present symbols. -/
structure Unread (s : State) (xs : List Symbol) : Prop where
  sound : Sound s
  coded : s.phase = .coded
  present : ∀ x ∈ xs, freqAt s.freq x ≠ 0
  bitLen : s.bitLen.toNat = s.bitPos.toNat + (packedBits s xs).length
  stream : HoldsBits s s.bitPos.toNat (packedBits s xs)

/-- With nothing left to read DEC_SYM answers the end of the stream (`44_bit_unpacker.md` R192). -/
theorem Unread.exec_decSym_nil (h : Unread s []) : exec .decSym s = .next (complete (setResults 0x100 0 s)) :=
  exec_decSym_end (by simp [h.coded]) (BitVec.eq_of_toNat_eq h.bitLen.symm)

/-- DEC_SYM reads the first symbol left and leaves the others (`44_bit_unpacker.md` R190). -/
theorem Unread.exec_decSym_cons (h : Unread s (x :: xs)) :
    ∃ t, exec .decSym s = .next t ∧ Unread t xs ∧ t.result0 = x.setWidth 32 ∧ t.err = s.err ∧ t.bitLen = s.bitLen := by
  have hlen := h.bitLen
  have hstream := h.stream
  rw [packedBits_cons, List.length_append] at hlen
  rw [packedBits_cons, holdsBits_append] at hstream
  have hmax := s.bitLen.isLt
  have hexec := exec_decSym_of_code h.sound h.coded (h.present x List.mem_cons_self) (by omega) hstream.1
  have hpos : (BitVec.ofNat 32 (s.bitPos.toNat + (codeBits (codeAt s.code x)).length)).toNat =
      s.bitPos.toNat + (codeBits (codeAt s.code x)).length := Nat.mod_eq_of_lt (by omega)
  refine ⟨_, hexec, ⟨exec_keeps_sound h.sound hexec, h.coded, fun y hy => h.present y (List.mem_cons_of_mem x hy),
    ?_, ?_⟩, rfl, rfl, rfl⟩
  · rw [← Nat.add_assoc, ← hpos] at hlen
    exact hlen
  · exact hpos.symm ▸ hstream.2

/-- From the old BITLEN on, the symbols packed are unread. -/
theorem Packed.unread (h : Packed s t xs) (hc : s.phase = .coded) (hxs : ∀ x ∈ xs, freqAt s.freq x ≠ 0) :
    Unread { t with bitPos := s.bitLen } xs := by
  obtain ⟨hfreq, -, hcode, hphase⟩ := h.tables
  have hbits : packedBits { t with bitPos := s.bitLen } xs = packedBits s xs := packedBits_congr hcode xs
  have hlen := h.bitLen
  have hstream := h.stream
  rw [← hbits] at hlen hstream
  exact ⟨{ h.sound with cursor := (Nat.le_add_right ..).trans_eq hlen.symm }, hphase.trans hc,
    fun x hx => hfreq ▸ hxs x hx, hlen, hstream⟩

/-- After REWIND a stream packed from the empty one is unread as a whole (`44_bit_unpacker.md` R196). -/
theorem Packed.unread_rewind (h : Packed s t xs) (hc : s.phase = .coded) (h0 : s.bitLen = 0)
    (hxs : ∀ x ∈ xs, freqAt s.freq x ≠ 0) : Unread (complete { t with bitPos := 0 }) xs := by
  have hunread := h.unread hc hxs
  rw [h0] at hunread
  exact ⟨hunread.sound.complete, hunread.coded, hunread.present, hunread.bitLen, hunread.stream⟩

theorem Unread.decodeAll_eq (h : Unread s xs) :
    decodeAll (xs.length + 1) s = xs.map (fun x => x.setWidth 32) ++ [0x100] := by
  induction xs generalizing s with
  | nil =>
    rw [List.length_nil, Nat.zero_add, decodeAll, h.exec_decSym_nil]
    rfl
  | cons x xs ih =>
    obtain ⟨t, hexec, ht, hresult, -⟩ := h.exec_decSym_cons
    rw [List.length_cons, decodeAll, hexec]
    exact congrArg₂ List.cons hresult (ih ht)

end Streams

/-- Settles O38: from the old BITLEN on the appended symbol is all that is unread. -/
theorem encodedSymbolDecodesBack : Obligations.EncodedSymbolDecodesBack := by
  intro s t x hs hc _ hexec hsuccess
  rcases execEncSym_next hexec with ⟨-, rfl⟩ | ⟨-, -, rfl⟩ | ⟨-, -, -, rfl⟩ | ⟨-, hlen, hfit, -⟩
  · cases hsuccess
  · cases hsuccess
  · cases hsuccess
  · have hx := (code_len_ne_zero_iff hs hc).1 hlen
    obtain ⟨t', hexec', hpacked⟩ := packed_encoded hs hc hx hfit
    obtain rfl : t' = t := Host.Outcome.next.inj (hexec'.symm.trans hexec)
    obtain ⟨u, hu, hend, hresult, herr, hbitLen⟩ :=
      (hpacked.unread hc fun y hy => List.mem_singleton.1 hy ▸ hx).exec_decSym_cons
    refine ⟨u, hu, herr.trans hsuccess, ?_, ?_⟩
    · rw [hresult]
      exact BitVec.toNat_setWidth_of_le (by decide)
    · exact (BitVec.eq_of_toNat_eq hend.bitLen.symm).trans hbitLen

/-- Settles O39: what the packer leaves is unread after REWIND, and DEC_SYM reads it symbol by symbol. -/
theorem streamRoundTrip : Obligations.StreamRoundTrip := by
  intro s xs hs hc h0 hxs hfit
  have hzero : s.bitLen.toNat = 0 := congrArg BitVec.toNat h0
  rw [← packedBits_length] at hfit ⊢
  obtain ⟨t, ht, hpacked⟩ := encodeAll_packs hs hc hxs (by rwa [hzero, Nat.zero_add])
  have hlen := hpacked.bitLen
  rw [hzero, Nat.zero_add] at hlen
  exact ⟨t, _, ht, hpacked.err, hlen, rfl, (hpacked.unread_rewind hc h0 hxs).decodeAll_eq⟩

end Sys2Proof.Machine
end

section
/-! SUPPORT. Host programs (`30_encoding.md` R102, R103): what the assembler makes of each line, the polling of WAIT
beside a running command, and the rounds of the loop of DECOMPRESS. -/

namespace Sys2Proof.Machine

/-! ### Lines (`30_encoding.md` R102) -/

section Lines

variable {l : AsmLine} {sym w idx count : Nat}

/-- The accesses that issue a command word: the write of CMD, then the polling of STATUS. -/
def issueWord (n : Nat) : List HostAct := [.write .cmd (BitVec.ofNat 32 n), .waitIdle]

/-- A command's word as a number: the opcode from bit 24 up, below it the operand bits. -/
theorem encode_eq_ofNat (i : Instr) :
    encode i = BitVec.ofNat 32 (i.opcode.code.toNat * 2 ^ 24 + i.operandBits.toNat) := by
  rw [← toNat_append_eq_add, BitVec.ofNat_toNat, BitVec.setWidth_eq, encode]

/-- A line in range writes ARG if it has a value for it, then issues its command's word. -/
theorem lineActs_eq {c o n : Nat} (hcode : (lineInstr l).opcode.code.toNat = c)
    (hbits : (lineInstr l).operandBits.toNat = o) (hn : c * 2 ^ 24 + o = n) :
    lineActs l = argActs (lineArg l) ++ issueWord n := by
  rw [lineActs, encode_eq_ofNat, hcode, hbits, hn, issueWord]

/-- A line in range assembles to its accesses, a line out of range to nothing. -/
theorem opActs_cmd {p : Prop} [Decidable p] {acts : List HostAct} (hwf : l.wellFormed = true ↔ p)
    (hacts : p → lineActs l = acts) : opActs (.cmd l) = if p then some acts else none := by
  rw [opActs]
  by_cases h : p
  · rw [if_pos (hwf.2 h), if_pos h, hacts h]
  · rw [if_neg (hwf.not.2 h), if_neg h]

theorem operandBits_of_sym (h : sym ≤ 255) : (0#16 ++ BitVec.ofNat 8 sym : BitVec 24).toNat = sym := by
  rw [toNat_append_eq_add, BitVec.toNat_ofNat, BitVec.toNat_ofNat]
  omega

theorem operandBits_of_idx (h : idx ≤ 511) : (0#15 ++ BitVec.ofNat 9 idx : BitVec 24).toNat = idx := by
  rw [toNat_append_eq_add, BitVec.toNat_ofNat, BitVec.toNat_ofNat]
  omega

theorem operandBits_of_sym_w (hsym : sym ≤ 255) (hw : w ≤ 7) :
    (0#13 ++ BitVec.ofNat 3 w ++ BitVec.ofNat 8 sym : BitVec 24).toNat = 256 * w + sym := by
  rw [toNat_append_eq_add, toNat_append_eq_add, BitVec.toNat_ofNat, BitVec.toNat_ofNat, BitVec.toNat_ofNat]
  omega

theorem opActs_freqAdd : opActs (.cmd (.freqAdd sym count)) =
    if sym ≤ 255 ∧ count < 2 ^ 32 then some (.write .arg (BitVec.ofNat 32 count) :: issueWord (0x10000000 + sym))
    else none :=
  opActs_cmd (by simp [AsmLine.wellFormed, symInRange, argInRange]) fun h =>
    lineActs_eq (c := 0x10) rfl (operandBits_of_sym h.1) (by omega)

theorem opActs_rdHeader : opActs (.cmd (.rdHeader count)) =
    if count < 2 ^ 32 then some (.write .arg (BitVec.ofNat 32 count) :: issueWord 0x61000000) else none :=
  opActs_cmd (by simp [AsmLine.wellFormed, argInRange]) fun _ => lineActs_eq (c := 0x61) (o := 0) rfl rfl rfl

theorem opActs_rdFreq : opActs (.cmd (.rdFreq sym)) =
    if sym ≤ 255 then some (issueWord (0x11000000 + sym)) else none :=
  opActs_cmd (by simp [AsmLine.wellFormed, symInRange]) fun h =>
    lineActs_eq (c := 0x11) rfl (operandBits_of_sym h) (by omega)

theorem opActs_encSym : opActs (.cmd (.encSym sym)) =
    if sym ≤ 255 then some (issueWord (0x40000000 + sym)) else none :=
  opActs_cmd (by simp [AsmLine.wellFormed, symInRange]) fun h =>
    lineActs_eq (c := 0x40) rfl (operandBits_of_sym h) (by omega)

theorem opActs_rdNode : opActs (.cmd (.rdNode idx)) =
    if idx ≤ 511 then some (issueWord (0x21000000 + idx)) else none :=
  opActs_cmd (by simp [AsmLine.wellFormed]) fun h =>
    lineActs_eq (c := 0x21) rfl (operandBits_of_idx h) (by omega)

theorem opActs_rdCode : opActs (.cmd (.rdCode sym w)) =
    if sym ≤ 255 ∧ w ≤ 7 then some (issueWord (0x31000000 + 256 * w + sym)) else none :=
  opActs_cmd (by simp [AsmLine.wellFormed, symInRange]) fun h =>
    lineActs_eq (c := 0x31) rfl (operandBits_of_sym_w h.1 h.2) (by omega)

end Lines

/-! ### Pseudo-commands (`30_encoding.md` R103) -/

/-- A line that expands to what other lines expand to can stand for them in any program. -/
theorem assemble_expansion {l : ProgLine} {ls : List ProgLine} (h : expandLine l = (ls.map expandLine).flatten)
    (pre post : List ProgLine) : assemble (pre ++ l :: post) = assemble (pre ++ ls ++ post) := by
  simp [assemble, h]

/-- Lines that each expand to one operation. -/
theorem flatten_expandLine {α : Type} {line : α → ProgLine} {o : α → HostOp} (h : ∀ a, expandLine (line a) = [o a])
    (l : List α) : l.map o = ((l.map line).map expandLine).flatten := by
  rw [List.map_map, List.map_eq_flatMap, List.flatMap_def]
  exact congrArg List.flatten (List.map_congr_left fun a _ => (h a).symm)

/-- Settles O6: the lines by their commands' words as numbers, the pseudo-commands by their expansions. -/
theorem assembledLinesAreTheTables : Obligations.AssembledLinesAreTheTables := by
  unfold Obligations.AssembledLinesAreTheTables
  intro line issue
  refine ⟨rfl, rfl, rfl, rfl, rfl, rfl, rfl, rfl, rfl, fun _ _ => opActs_freqAdd, fun _ => opActs_rdHeader,
    fun _ => opActs_rdFreq, fun _ => opActs_encSym, fun _ => opActs_rdNode, fun _ _ => opActs_rdCode,
    fun _ => ⟨rfl, rfl⟩, rfl, fun pre post => ?_⟩
  intro same
  have expands {l : ProgLine} {ls : List ProgLine} (h : expandLine l = (ls.map expandLine).flatten) : same l ls :=
    assemble_expansion h pre post
  have hcount (text : List Nat) := flatten_expandLine (line := .count) (o := countOp) (fun _ => rfl) text
  have henc (text : List Nat) := flatten_expandLine (line := fun c => .op (.cmd (.encSym c))) (o := encOp)
    (fun _ => rfl) text
  refine ⟨fun _ => expands rfl, fun text => expands (hcount text), fun text => expands (henc text),
    fun a bytes => expands ?_, fun a n => expands ?_, fun text => expands ?_, fun _ => expands rfl, rfl, rfl,
    fun _ => rfl, fun r v hv => ?_⟩
  · exact congrArg (.wr .abufPtr a :: ·)
      (flatten_expandLine (line := fun b => .op (.wr .abufData b)) (fun _ => rfl) bytes)
  · simp [expandLine]
  · simp [expandLine]
  · have hop : opActs (.wr r v) = some [.write r (BitVec.ofNat 32 v)] := if_pos (decide_eq_true hv)
    simp [assemble, expandLine, opsActs, hop]

/-! ### WAIT (`30_encoding.md` R103, `70_reset_and_hazards.md` R300) -/

section Wait

variable {s t : State} {k : List HostAct}

/-- The program's turn, by what its next action's access does. -/
theorem takeTurn_host {a : HostAct} (h : applyEvent (actEvent a) s = .next t) :
    takeTurn .host { acts := a :: k, state := s } = .next { acts := actAfter t.rdata a ++ k, state := t } :=
  congrArg (runOut fun t => actAfter t.rdata a ++ k) h

/-- A poll of WAIT reads STATUS, and is repeated exactly while BUSY = 1. -/
theorem takeTurn_waitIdle (s : State) (k : List HostAct) :
    takeTurn .host { acts := .waitIdle :: k, state := s } =
      .next { acts := if s.busy then .waitIdle :: k else k, state := { s with rdata := statusWord s } } := by
  have hread : applyEvent (actEvent .waitIdle) s = .next { s with rdata := statusWord s } :=
    congrArg Host.Outcome.next (busRead_of_defined (r := .status) rfl rfl)
  have hbusy : (statusWord s).getLsbD 0 = s.busy := by simp [statusWord_eq_concat]
  rw [takeTurn_host hread, actAfter, hbusy]
  cases s.busy <;> rfl

/-- While BUSY = 1 any number of polls leaves WAIT there, and changes only the word on the read port. -/
theorem takeTurns_polls (hb : s.busy = true) (n : Nat) :
    ∃ v, takeTurns (List.replicate n .host) { acts := .waitIdle :: k, state := s } =
      .next { acts := .waitIdle :: k, state := { s with rdata := v } } := by
  induction n generalizing s with
  | zero => exact ⟨s.rdata, rfl⟩
  | succ n ih =>
    have hturn : takeTurn .host { acts := .waitIdle :: k, state := s } =
        .next { acts := .waitIdle :: k, state := { s with rdata := statusWord s } } := by
      rw [takeTurn_waitIdle, hb, if_pos rfl]
    rw [List.replicate_succ, takeTurns_cons_next hturn]
    exact ih (s := { s with rdata := statusWord s }) hb

/-- The completion of a word does not read the read port. -/
theorem engineTurn_withRdata (hb : s.busy = true) (h : engineTurn s = .next t) (v : Word) :
    engineTurn { s with rdata := v } = .next { t with rdata := v } := by
  rw [engineTurn_busy hb] at h
  rw [engineTurn_busy (s := { s with rdata := v }) hb]
  rcases execute_next h with ⟨hd, rfl⟩ | ⟨hd, e, hword, rfl⟩ | ⟨hd, i, hword, hexec⟩
  · exact if_pos hd
  · exact execute_of_error (s := { s with rdata := v }) hd hword
  · obtain ⟨-, -, -, -, hargLat, -⟩ := exec_sameHostSide hexec
    have hports := exec_withPorts s.argLat v (s := s) (i := i) (.inl rfl)
    rw [hexec] at hports
    refine (execute_of_ok (s := { s with rdata := v }) hd hword).trans (hports.trans ?_)
    rw [← hargLat]
    rfl

/-- An accepted word leaves BUSY = 0 when it completes. -/
theorem engineTurn_busy_false (h : engineTurn s = .next t) : t.busy = false := by
  cases hb : s.busy with
  | false =>
    rw [engineTurn_idle hb] at h
    cases h
    exact hb
  | true =>
    rw [engineTurn_busy hb] at h
    rcases execute_next h with ⟨-, rfl⟩ | ⟨-, e, -, rfl⟩ | ⟨-, i, -, hexec⟩
    · rfl
    · rfl
    · exact (exec_completed hexec).1

/-- The first poll after the completion ends WAIT. -/
theorem takeTurns_wait (hb : s.busy = true) (h : engineTurn s = .next t) (n : Nat) :
    ∃ v, takeTurns (List.replicate n .host ++ [.outside .complete, .host]) { acts := .waitIdle :: k, state := s } =
      .next { acts := k, state := { t with rdata := v } } := by
  obtain ⟨v, hpolls⟩ := takeTurns_polls (k := k) hb n
  refine ⟨statusWord { t with rdata := v }, ?_⟩
  have hcomplete : takeTurn (.outside .complete) { acts := .waitIdle :: k, state := { s with rdata := v } } =
      .next { acts := .waitIdle :: k, state := { t with rdata := v } } := by
    rw [takeTurn_outside_complete, engineTurn_withRdata hb h]
    rfl
  have hlast : takeTurn .host { acts := .waitIdle :: k, state := { t with rdata := v } } =
      .next { acts := k, state := { t with rdata := statusWord { t with rdata := v } } } := by
    rw [takeTurn_waitIdle, engineTurn_busy_false h, if_neg Bool.false_ne_true]
  rw [takeTurns_append_next hpolls, takeTurns_cons_next hcomplete, takeTurns_cons_next hlast, takeTurns_nil]

end Wait

/-- Settles O59: each poll by STATUS's bit 0, the completion by what the engine's turn does not read. -/
theorem waitPollsUntilIdle : Obligations.WaitPollsUntilIdle := by
  intro s k
  exact ⟨⟨statusWord s, readsAs_of_defined (r := .status) rfl rfl, takeTurn_waitIdle s k⟩,
    fun n t hb h => ⟨takeTurns_polls hb n, takeTurns_wait hb h n⟩⟩

/-! ### The loop of DECOMPRESS (`30_encoding.md` R103, `44_bit_unpacker.md` R192) -/

section Loop

variable {s t : State} {k : List HostAct} {n : Nat} {x : Symbol} {xs : List Symbol}

/-- One round of the loop: DEC_SYM, n polls, its completion, the poll that ends WAIT, the read of RESULT0. -/
def loopRound (n : Nat) : List Turn := .host :: List.replicate n .host ++ [.outside .complete, .host, .host]

/-- An idle block without an error accepts DEC_SYM and runs it next. -/
theorem engineTurn_accept_decSym (herr : s.err = false) :
    engineTurn (accept (encode .decSym) s) = exec .decSym (accept (encode .decSym) s) :=
  engineTurn_of_ok rfl (by rw [discarded, accept_err, herr, Bool.false_and]) (encodeThenDecodeGivesCommand .decSym)

/-- A round ends with RESULT0 on the read port, and the loop ends with it if its bit 8 is 1. -/
theorem takeTurns_loopRound (hb : s.busy = false) (herr : s.err = false)
    (hexec : exec .decSym (accept (encode .decSym) s) = .next t) :
    takeTurns (loopRound n) { acts := .decSym :: k, state := s } =
      .next { acts := if t.result0.getLsbD 8 then k else .decSym :: k, state := { t with rdata := t.result0 } } := by
  have haccept : applyEvent (actEvent .decSym) s = .next (accept (encode .decSym) s) :=
    congrArg Host.Outcome.next ((busWrite_cmd _ rfl).trans (unlessBusy_idle hb _))
  have hissue := takeTurn_host (k := k) haccept
  obtain ⟨v, hwait⟩ := takeTurns_wait (k := .endTest :: k) (s := accept (encode .decSym) s) rfl
    ((engineTurn_accept_decSym herr).trans hexec) n
  have hread : applyEvent (actEvent .endTest) { t with rdata := v } = .next { t with rdata := t.result0 } :=
    congrArg Host.Outcome.next (busRead_defined (r := .result0) rfl (.inl (exec_completed hexec).1))
  have htest := takeTurn_host (k := k) hread
  rw [actAfter] at htest
  have hround : loopRound n = .host :: ((List.replicate n .host ++ [.outside .complete, .host]) ++ [.host]) := by
    rw [loopRound, List.append_assoc]
    rfl
  rw [hround, takeTurns_cons_next hissue]
  refine (takeTurns_append_next hwait [.host]).trans ((takeTurns_cons_next htest []).trans ?_)
  cases t.result0.getLsbD 8 <;> rfl

/-- The loop is at DEC_SYM, with the symbols xs left to read. -/
structure AtLoop (s : State) (xs : List Symbol) : Prop where
  unread : Unread s xs
  idle : s.busy = false
  err : s.err = false

theorem Unread.accept (h : Unread s xs) (w : Word) : Unread (accept w s) xs :=
  ⟨h.sound.accept w, h.coded, h.present, h.bitLen, h.stream⟩

theorem Unread.withRdata (h : Unread s xs) (v : Word) : Unread { s with rdata := v } xs :=
  ⟨h.sound.withHost, h.coded, h.present, h.bitLen, h.stream⟩

/-- A round with symbols left reads the first of them and goes on. -/
theorem AtLoop.round_cons (h : AtLoop s (x :: xs)) (n : Nat) (k : List HostAct) :
    ∃ t, takeTurns (loopRound n) { acts := .decSym :: k, state := s } = .next { acts := .decSym :: k, state := t }
      ∧ AtLoop t xs ∧ t.rdata = x.setWidth 32 ∧ t.bitLen = s.bitLen := by
  obtain ⟨t, hexec, hunread, hresult, herr, hlen⟩ := (h.unread.accept (encode .decSym)).exec_decSym_cons
  have hround := takeTurns_loopRound (k := k) (n := n) h.idle h.err hexec
  have hbit : t.result0.getLsbD 8 = false := by simp [hresult]
  rw [hbit, if_neg Bool.false_ne_true] at hround
  exact ⟨_, hround, ⟨hunread.withRdata _, (exec_completed hexec).1, herr.trans h.err⟩, hresult, hlen⟩

/-- A round with nothing left reads 0x100 and ends the loop. -/
theorem AtLoop.round_nil (h : AtLoop s []) (n : Nat) (k : List HostAct) :
    ∃ t, takeTurns (loopRound n) { acts := .decSym :: k, state := s } = .next { acts := k, state := t }
      ∧ t.rdata = 0x100 ∧ t.bitPos = t.bitLen ∧ t.bitLen = s.bitLen ∧ t.err = false := by
  have hround := takeTurns_loopRound (k := k) (n := n) h.idle h.err
    (h.unread.accept (encode .decSym)).exec_decSym_nil
  have hbit : (0x100 : Word).getLsbD 8 = true := by decide
  rw [complete_result0, setResults_result0, if_pos hbit] at hround
  exact ⟨_, hround, rfl, BitVec.eq_of_toNat_eq h.unread.bitLen.symm, rfl, h.err⟩

/-- m rounds read the first m symbols. -/
theorem AtLoop.rounds (h : AtLoop s xs) (n : Nat) (k : List HostAct) {m : Nat} (hm : m ≤ xs.length) :
    ∃ t, takeTurns (List.replicate m (loopRound n)).flatten { acts := .decSym :: k, state := s } =
        .next { acts := .decSym :: k, state := t }
      ∧ AtLoop t (xs.drop m) ∧ t.bitLen = s.bitLen := by
  induction m generalizing s xs with
  | zero => exact ⟨s, rfl, h, rfl⟩
  | succ m ih =>
    cases xs with
    | nil => cases hm
    | cons x xs =>
      obtain ⟨u, hfirst, hu, -, hlen⟩ := h.round_cons n k
      obtain ⟨t, hrest, ht, hlen'⟩ := ih hu (Nat.le_of_succ_le_succ hm)
      refine ⟨t, ?_, ht, hlen'.trans hlen⟩
      rw [List.replicate_succ, List.flatten_cons]
      exact (takeTurns_append_next hfirst _).trans hrest

theorem flatten_replicate_succ {α : Type} (m : Nat) (l : List α) :
    (List.replicate (m + 1) l).flatten = (List.replicate m l).flatten ++ l := by
  rw [List.replicate_succ', List.flatten_append, List.flatten_singleton]

end Loop

/-- Settles O60: after REWIND the loop is at the first symbol; each round reads one, and the round after the last ends
the loop. -/
theorem decompressLoopStopsAtEndOfStream : Obligations.DecompressLoopStopsAtEndOfStream := by
  intro s t u xs n k hs hc herr h0 hxs hfit hencode hrewind round
  have hzero : s.bitLen.toNat = 0 := congrArg BitVec.toNat h0
  rw [← packedBits_length] at hfit
  obtain ⟨t', ht', hpacked⟩ := encodeAll_packs hs hc hxs (by rwa [hzero, Nat.zero_add])
  obtain rfl : t' = t := Host.Outcome.next.inj (ht'.symm.trans hencode)
  cases hrewind
  have hloop : AtLoop (complete { t' with bitPos := 0 }) xs :=
    ⟨hpacked.unread_rewind hc h0 hxs, rfl, hpacked.err.trans herr⟩
  refine ⟨fun m x hx => ?_, ?_⟩
  · obtain ⟨hm, hget⟩ := List.getElem?_eq_some_iff.1 hx
    obtain ⟨v, hbefore, hv, -⟩ := hloop.rounds n k hm.le
    rw [List.drop_eq_getElem_cons hm, hget] at hv
    obtain ⟨v', hlast, hv', hresult, -⟩ := hv.round_cons n k
    refine ⟨v', ?_, hresult, hv'.err⟩
    rw [flatten_replicate_succ]
    exact (takeTurns_append_next hbefore _).trans hlast
  · obtain ⟨v, hbefore, hv, hlen⟩ := hloop.rounds n k le_rfl
    rw [List.drop_length] at hv
    obtain ⟨v', hlast, hresult, hpos, hlen', herr'⟩ := hv.round_nil n k
    refine ⟨v', ?_, hresult, hpos, hlen'.trans hlen, herr'⟩
    rw [flatten_replicate_succ]
    exact (takeTurns_append_next hbefore _).trans hlast

end Sys2Proof.Machine
end
